-- ==== Sys2Proof/Word.lean ====
section
/-! DEFINITION. The words of CORE: what the spec treats as bits. A Command pointer is a handle and no word:
it is a number (20_memory.md R48). -/

namespace Sys2Proof

/-- A request word (30_encoding.md R60). -/
abbrev RequestWord := BitVec 32

/-- An absolute time of N = 32 bits; its arithmetic is modulo 2^32 (00_scope.md R7, 41_timer.md R110). -/
abbrev Time := BitVec 32

/-- The wires of port A, B, C or R. A port has MAX_W + 1 of them, at most 128 (10_state.md R11, 00_scope.md R5): an input
port's upper wires are not read, port R's repeat the sign. -/
abbrev PortWord := BitVec 128

/-- A magnitude width, a target width or a shift amount of format X (30_encoding.md R61). -/
abbrev WidthField := BitVec 7

/-- The CID field of SP.START and the IDX field of format C (30_encoding.md R63, R64). -/
abbrev ConsumerId := BitVec 8

end Sys2Proof
end

