-- ==== Sys2Proof/Syntax.lean ====
section
/-! DEFINITION. The 30 operations of CORE (30_encoding.md R67), one constructor per row of spec/opcode_table.json,
with the row's fields as the encoding gives them (30_encoding.md R61 to R65). -/

namespace Sys2Proof

inductive Instr where
  | fxMake (sa : Bool) (wa : WidthField)
  | fxTos (wa : WidthField)
  | fxTou (wa : WidthField)
  | fxWiden (sa : Bool) (wa : WidthField) (n : WidthField)
  | fxNarrow (sa : Bool) (wa : WidthField) (n : WidthField)
  | fxShl (sa : Bool) (wa : WidthField) (n : WidthField)
  | fxShr (sa : Bool) (wa : WidthField) (n : WidthField)
  | fxAdd (sa : Bool) (wa : WidthField) (sb : Bool) (wb : WidthField)
  | fxSub (sa : Bool) (wa : WidthField) (sb : Bool) (wb : WidthField)
  | fxMul (sa : Bool) (wa : WidthField) (sb : Bool) (wb : WidthField)
  | fxDiv (sa : Bool) (wa : WidthField) (sb : Bool) (wb : WidthField) (n : WidthField)
  | fxSqrt (wa : WidthField) (n : WidthField)
  | tmInit
  | tmDeinit
  | tmSetfirst
  | tmSetnext
  | tmUnset
  | tmIrq
  | tmGettime
  | tmGe
  | spInit
  | spDeinit
  | spStart (cid : ConsumerId)
  | spStop
  | spStep
  | spGencmd (flag : Bool)
  | spPrestep (flag : Bool)
  | cdCmdcb (idx : ConsumerId)
  | cdPrecb (idx : ConsumerId)
  | sysRdreg (reg : BitVec 8)
  deriving DecidableEq, Repr

/-- Who may perform an operation (30_encoding.md R67, column "kind"). -/
inductive OpKind where
  /-- P: accepted on the operation port. -/
  | port
  /-- I: performed only inside other operations. -/
  | inner
  /-- E: performed by the interrupt agent. -/
  | event
  /-- O: issued outward by CORE on the callback port. -/
  | outward
  deriving DecidableEq, Repr

/-- The kind column of R67. -/
def Instr.kind : Instr → OpKind
  | .fxMake .. | .fxTos .. | .fxTou .. | .fxWiden .. | .fxNarrow .. | .fxShl .. | .fxShr .. => .port
  | .fxAdd .. | .fxSub .. | .fxMul .. | .fxDiv .. | .fxSqrt .. => .port
  | .tmInit | .tmDeinit | .tmSetfirst | .tmSetnext | .tmUnset => .inner
  | .tmIrq => .event
  | .tmGettime | .tmGe => .port
  | .spInit | .spDeinit | .spStart .. | .spStop | .spGencmd .. | .spPrestep .. => .port
  | .spStep => .event
  | .cdCmdcb .. | .cdPrecb .. => .outward
  | .sysRdreg .. => .port

end Sys2Proof
end

