-- ==== Sys2Proof/Decode.lean ====
section
/-! DEFINITION. Decoding and encoding of request words (30_encoding.md R60 to R67). A word the table does not name
is rejected by name; the operation port answers every rejection with ILLEGAL_OP (R68). -/

namespace Sys2Proof

/-- Why a word names no operation (30_encoding.md R68). -/
inductive DecodeError where
  /-- UNIT is 4 to 14. -/
  | reservedUnit
  /-- FUNC is not in the table of R67 for its UNIT. -/
  | reservedFunc
  /-- A field that must be 0 is not 0. -/
  | mustBeZero
  /-- SA is not the one value the operation admits (FX.TOS, FX.TOU, FX.SQRT). -/
  | wrongSign
  deriving DecidableEq, Repr

/-- Bits `lo + n - 1` down to `lo` of a request word. -/
def wordField (w : RequestWord) (lo n : Nat) : BitVec n := w.extractLsb' lo n

/-- UNIT and FUNC together, bits 31:24 (R60, R67). -/
def wordOpcode (w : RequestWord) : Nat := (wordField w 24 8).toNat

/-- Bit 23, SA (R61). -/
def wordSA (w : RequestWord) : Bool := w.getLsbD 23

/-- Bits 22:16, WA (R61). -/
def wordWA (w : RequestWord) : WidthField := wordField w 16 7

/-- Bit 15, SB (R61). -/
def wordSB (w : RequestWord) : Bool := w.getLsbD 15

/-- Bits 14:8, WB (R61). -/
def wordWB (w : RequestWord) : WidthField := wordField w 8 7

/-- Bits 6:0, N (R61). -/
def wordN (w : RequestWord) : WidthField := wordField w 0 7

/-- Bits 23:16, CID of SP.START (R63) and IDX of format C (R64). -/
def wordCid (w : RequestWord) : ConsumerId := wordField w 16 8

/-- Bit 0, FLAG (R63). -/
def wordFlag (w : RequestWord) : Bool := w.getLsbD 0

/-- Bits 7:0, REG (R65). -/
def wordReg (w : RequestWord) : BitVec 8 := wordField w 0 8

/-- The operation `i`, if the bits `lo + n - 1` to `lo` that must be 0 are 0. -/
def whenZero (w : RequestWord) (lo n : Nat) (i : Instr) : Except DecodeError Instr :=
  if wordField w lo n = 0 then .ok i else .error .mustBeZero

/-- The operation `r` gives, if bit SA has the one value the operation admits. -/
def whenSign (w : RequestWord) (sa : Bool) (r : Except DecodeError Instr) : Except DecodeError Instr :=
  if wordSA w = sa then r else .error .wrongSign

/-- The opcode map of R67, with the fields that must be 0 of R61 to R65. -/
def decode (w : RequestWord) : Except DecodeError Instr :=
  match wordOpcode w with
  | 0x00 => whenZero w 0 16 (.fxMake (wordSA w) (wordWA w))
  | 0x01 => whenSign w false (whenZero w 0 16 (.fxTos (wordWA w)))
  | 0x02 => whenSign w true (whenZero w 0 16 (.fxTou (wordWA w)))
  | 0x03 => whenZero w 7 9 (.fxWiden (wordSA w) (wordWA w) (wordN w))
  | 0x04 => whenZero w 7 9 (.fxNarrow (wordSA w) (wordWA w) (wordN w))
  | 0x05 => whenZero w 7 9 (.fxShl (wordSA w) (wordWA w) (wordN w))
  | 0x06 => whenZero w 7 9 (.fxShr (wordSA w) (wordWA w) (wordN w))
  | 0x07 => whenZero w 0 8 (.fxAdd (wordSA w) (wordWA w) (wordSB w) (wordWB w))
  | 0x08 => whenZero w 0 8 (.fxSub (wordSA w) (wordWA w) (wordSB w) (wordWB w))
  | 0x09 => whenZero w 0 8 (.fxMul (wordSA w) (wordWA w) (wordSB w) (wordWB w))
  | 0x0A => whenZero w 7 1 (.fxDiv (wordSA w) (wordWA w) (wordSB w) (wordWB w) (wordN w))
  | 0x0B => whenSign w false (whenZero w 7 9 (.fxSqrt (wordWA w) (wordN w)))
  | 0x10 => whenZero w 0 24 .tmInit
  | 0x11 => whenZero w 0 24 .tmDeinit
  | 0x12 => whenZero w 0 24 .tmSetfirst
  | 0x13 => whenZero w 0 24 .tmSetnext
  | 0x14 => whenZero w 0 24 .tmUnset
  | 0x15 => whenZero w 0 24 .tmIrq
  | 0x16 => whenZero w 0 24 .tmGettime
  | 0x17 => whenZero w 0 24 .tmGe
  | 0x20 => whenZero w 0 24 .spInit
  | 0x21 => whenZero w 0 24 .spDeinit
  | 0x22 => whenZero w 0 16 (.spStart (wordCid w))
  | 0x23 => whenZero w 0 24 .spStop
  | 0x24 => whenZero w 0 24 .spStep
  | 0x25 => whenZero w 1 23 (.spGencmd (wordFlag w))
  | 0x26 => whenZero w 1 23 (.spPrestep (wordFlag w))
  | 0x30 => whenZero w 0 16 (.cdCmdcb (wordCid w))
  | 0x31 => whenZero w 0 16 (.cdPrecb (wordCid w))
  | 0xF0 => whenZero w 8 16 (.sysRdreg (wordReg w))
  | op => if 0x40 ≤ op ∧ op < 0xF0 then .error .reservedUnit else .error .reservedFunc

/-- The instruction the decoder reads from the table's word `w` of `nbits` bits. A request word is one word of 32
bits (R60) and has no byte order. -/
def decodeTableWord (nbits w : Nat) : Option Instr :=
  match decode (BitVec.ofNat 32 (w % 2 ^ nbits)) with
  | .ok i => some i
  | .error _ => none

/-- A format X word (R61). -/
def encodeX (op : BitVec 8) (sa : Bool) (wa : WidthField) (sb : Bool) (wb : WidthField) (n : WidthField) : RequestWord :=
  op ++ BitVec.ofBool sa ++ wa ++ BitVec.ofBool sb ++ wb ++ 0#1 ++ n

/-- A format S or C word (R63, R64). -/
def encodeS (op : BitVec 8) (cid : ConsumerId) (flag : Bool) : RequestWord :=
  op ++ cid ++ 0#15 ++ BitVec.ofBool flag

/-- The request word of an operation (R60 to R67). -/
def encode : Instr → RequestWord
  | .fxMake sa wa => encodeX 0x00 sa wa false 0 0
  | .fxTos wa => encodeX 0x01 false wa false 0 0
  | .fxTou wa => encodeX 0x02 true wa false 0 0
  | .fxWiden sa wa n => encodeX 0x03 sa wa false 0 n
  | .fxNarrow sa wa n => encodeX 0x04 sa wa false 0 n
  | .fxShl sa wa n => encodeX 0x05 sa wa false 0 n
  | .fxShr sa wa n => encodeX 0x06 sa wa false 0 n
  | .fxAdd sa wa sb wb => encodeX 0x07 sa wa sb wb 0
  | .fxSub sa wa sb wb => encodeX 0x08 sa wa sb wb 0
  | .fxMul sa wa sb wb => encodeX 0x09 sa wa sb wb 0
  | .fxDiv sa wa sb wb n => encodeX 0x0A sa wa sb wb n
  | .fxSqrt wa n => encodeX 0x0B false wa false 0 n
  | .tmInit => encodeS 0x10 0 false
  | .tmDeinit => encodeS 0x11 0 false
  | .tmSetfirst => encodeS 0x12 0 false
  | .tmSetnext => encodeS 0x13 0 false
  | .tmUnset => encodeS 0x14 0 false
  | .tmIrq => encodeS 0x15 0 false
  | .tmGettime => encodeS 0x16 0 false
  | .tmGe => encodeS 0x17 0 false
  | .spInit => encodeS 0x20 0 false
  | .spDeinit => encodeS 0x21 0 false
  | .spStart cid => encodeS 0x22 cid false
  | .spStop => encodeS 0x23 0 false
  | .spStep => encodeS 0x24 0 false
  | .spGencmd flag => encodeS 0x25 0 flag
  | .spPrestep flag => encodeS 0x26 0 flag
  | .cdCmdcb idx => encodeS 0x30 idx false
  | .cdPrecb idx => encodeS 0x31 idx false
  | .sysRdreg reg => 0xF0#8 ++ 0#16 ++ reg

end Sys2Proof
end

