-- ==== Sys2Proof/Config.lean ====
section
/-! DEFINITION. What every implementation of CORE shares, and the free values of the model.

The one width the spec fixes stands here; every other width and the open parameters are arguments of an instance
(00_scope.md R5), held in `Machine.State.params` (log entries 1 and 2). The opaque constants are the free values (log
entry 6): nothing in Lean can evaluate them, so a claim about a run that reads one holds for every value. -/

namespace Sys2Proof
namespace Config

/-- TIME_BITS (N), the width of the counter and of every absolute time (R5: the source's own value, fixed). -/
abbrev timeBits : Nat := 32

/-- A free value of `w` bits, the `n`-th drawn (log entry 6). -/
opaque freeBits (w : Nat) (n : Nat) : BitVec w

/-- A free integer, the `n`-th drawn (log entry 6). -/
opaque freeInt (n : Nat) : Int

end Config
end Sys2Proof
end

