-- ==== Sys2Proof/Machine/State.lean ====
section
/-! DEFINITION. The state of one CORE instance (10_state.md R10), what the environment supplies to it (00_scope.md R9),
and the reasons a step can stop. All of it is plain data. -/

namespace Sys2Proof
namespace Machine

/-- The contract violations of 60_exceptions.md R181. -/
inductive Violation where
  | fxRange
  | fxDivZero
  | fxNegative
  | fxWidth
  | tmAlreadyArmed
  | tmContext
  | tmArmed
  | spAlreadyRunning
  | spNullCommand
  | spDeinitRunning
  | spAccelRange
  | spDiscNegative
  | spBusy
  | spNotRunning
  | spLife
  | spContext
  | illegalOp
  deriving DecidableEq, Repr

/-- Why a step stops the machine. -/
inductive Fault where
  /-- Raised by a check that fails in a build with ASSERTIONS = false: from there on the spec leaves the behaviour of
  the whole instance undefined (60_exceptions.md R183). SAFE: the model stops (log entry 14). -/
  | uncheckedViolation (v : Violation)
  /-- Raised by CD.CMDCB and CD.PRECB where the consumer never returns (93_implementation_defined.md U7, `stuck`).
  SAFE: the model stops (log entry 15). -/
  | callbackNeverReturned
  deriving DecidableEq, Repr

/-- Why a step refuses. -/
inductive Refusal where
  /-- The arm of an instruction without a meaning; SAFE. No arm of this model answers with it. -/
  | notModelled (mnemonic : String)
  deriving DecidableEq, Repr

/-- The parameters of an instance, constants of it (00_scope.md R5, 10_state.md R30): the arguments a model of CORE takes.
TIME_BITS is fixed (`Config.timeBits`); the two that nothing can show are not represented (log entry 26). -/
structure Params where
  /-- STEP_BITS (S), the width of a Command's stepCount. -/
  stepBits : Nat
  /-- DISC_PREC (P), the fractional bits of the square root. -/
  discPrec : Nat
  /-- FRAC_BITS (F), the fractional bits of the time fraction. -/
  fracBits : Nat
  /-- TMUL_BITS (TB), the width of timeMultiplier. -/
  tmulBits : Nat
  /-- MAX_W, the largest magnitude width the FXU handles. -/
  maxW : Nat
  /-- PTR_BITS, the width of a Command pointer. -/
  ptrBits : Nat
  /-- CID_BITS, the width of the consumer id. -/
  cidBits : Nat
  /-- CLEARANCE, in ticks. -/
  clearance : Nat
  /-- NUM_CONSUMERS (C). -/
  numConsumers : Nat
  /-- ASSERTIONS: are contract violations detected. -/
  assertions : Bool
  deriving DecidableEq, Repr

/-- The constraints of 00_scope.md R5 on the parameters, row by row. -/
structure Params.Valid (p : Params) : Prop where
  stepBits : 1 ≤ p.stepBits
  discriminant : 2 * p.stepBits + 2 + 2 * p.discPrec ≤ p.maxW
  fracBits : 2 ≤ p.fracBits
  dividend : p.stepBits + p.discPrec + p.fracBits ≤ p.maxW
  tmulBits : 1 ≤ p.tmulBits ∧ p.tmulBits ≤ Config.timeBits - 1
  product : p.tmulBits + p.fracBits + 1 ≤ p.maxW
  maxW : 1 ≤ p.maxW ∧ p.maxW ≤ 127
  ptrBits : 1 ≤ p.ptrBits
  numConsumers : 1 ≤ p.numConsumers ∧ p.numConsumers ≤ 2 ^ p.cidBits
  clearance : 1 ≤ p.clearance ∧ p.clearance < 2 ^ (Config.timeBits - 1)

/-- The defaults of R5; CLEARANCE, NUM_CONSUMERS and ASSERTIONS, which R5 leaves open, are those of 95_test_vectors.md (log
entry 2). -/
def defaultParams : Params where
  stepBits := 16
  discPrec := 12
  fracBits := 24
  tmulBits := 31
  maxW := 64
  ptrBits := 32
  cidBits := 8
  clearance := 8
  numConsumers := 1
  assertions := true

/-- The scheduler registers (10_state.md R14 to R19). Those whose width is a parameter of the instance are the number they
hold, below two to the power of that width (`RegistersInRange`): SP_CMDPTR PTR_BITS, SP_POS S, SP_V0 S + P, SP_CONSUMER
CID_BITS. -/
structure SpRegs where
  running : Bool
  notEnded : Bool
  notDecel : Bool
  prestepEn : Bool
  life : Bool
  cmdPtr : Nat
  pos : Nat
  time : Time
  v0 : Nat
  consumer : Nat
  deriving DecidableEq, Repr

/-- The timer registers (10_state.md R20 to R22). -/
structure TmRegs where
  time : Time
  cmp : Time
  armed : Bool
  irqEn : Bool
  tlife : Bool
  deriving DecidableEq, Repr

/-- The FAULT register (10_state.md R24). -/
structure FaultReg where
  halted : Bool
  code : BitVec 8
  deriving DecidableEq, Repr

/-- The pins (10_state.md R25); true is high. -/
structure Pins where
  dir : Bool
  step : Bool
  deriving DecidableEq, Repr

/-- The answer to CD.CMDCB (30_encoding.md R72): stop, or continue with the pointer left in the slot. -/
inductive CmdAnswer where
  | stop
  | proceed (ptr : Nat)
  deriving DecidableEq, Repr

/-- An event of the output trace (10_state.md R25). -/
inductive OutEvent where
  | dirSet (b : Bool)
  | pulseOn
  | pulseOff
  | arm (v : Time)
  | disarm
  | cmdCb (i : Nat) (ptrIn : Nat) (answer : CmdAnswer)
  | preCb (i : Nat) (abort : Bool)
  deriving DecidableEq, Repr

/-- The four fields of a Command record (20_memory.md R41). -/
inductive Field where
  | dirx
  | tmul
  | amul
  | disc
  deriving DecidableEq, Repr

/-- A Command record: four typed fields (20_memory.md R41, R47). -/
structure CommandRecord where
  dirx : Int
  tmul : Int
  amul : Int
  disc : Int
  deriving DecidableEq, Repr

/-- A record and the pointer that names it. A Command pointer is an opaque handle, a number below 2^PTR_BITS; 0 is the null
pointer (20_memory.md R48). -/
structure RecordCell where
  ptr : Nat
  record : CommandRecord
  deriving DecidableEq, Repr

/-- The Command memory: a map from pointer to a record of four typed fields (20_memory.md R40, R47), as the list of the
records that are filled, in rising order of their pointers (`Memory.wf`). An unlisted record is not filled: it holds no
value, and a read of any of its fields is free (R48, log entry 7). -/
abbrev Memory := List RecordCell

/-- An operation issued on the operation port: the request word, the values on ports A, B, C and PTR
(10_state.md R11), and the ticks that pass before the operation reads the counter (log entry 11). -/
structure Request where
  word : RequestWord
  a : PortWord
  b : PortWord
  c : PortWord
  ptr : Nat
  lag : Nat
  deriving DecidableEq, Repr

/-- What a consumer may do inside a callback (43_dispatch.md R164). -/
inductive CallbackAction where
  /-- Issue an operation on this instance. -/
  | operate (r : Request)
  /-- Fill a record. -/
  | fill (ptr : Nat) (record : CommandRecord)
  /-- Free a record. -/
  | free (ptr : Nat)
  deriving DecidableEq, Repr

/-- What the consumer does if CORE calls it in this interrupt: its actions, whether it returns at all
(93_implementation_defined.md U7), and its answer to either transaction (30_encoding.md R72). -/
structure Reply where
  actions : List CallbackAction
  returns : Bool
  next : CmdAnswer
  abort : Bool
  deriving DecidableEq, Repr

/-- Who performs an operation (30_encoding.md R67, R69; log entry 12). -/
inductive Issuer where
  /-- It was issued on the operation port. -/
  | operationPort
  /-- CORE performs it itself: inside another operation, as the interrupt agent, or on the callback port. -/
  | core
  deriving DecidableEq, Repr

/-- What the environment supplies to the operation of this step (MODEL's own field, log entries 11 to 13). -/
structure Latch where
  issuer : Issuer
  a : PortWord
  b : PortWord
  c : PortWord
  ptr : Nat
  lag : Nat
  reply : Option Reply
  deriving DecidableEq, Repr

/-- What an operation presents on ports R and RT (10_state.md R11). -/
structure Result where
  r : PortWord
  rt : BitVec 8
  deriving DecidableEq, Repr

/-- What the environment does next (00_scope.md R9, log entry 9). -/
inductive Input where
  /-- The background agent issues an operation. -/
  | request (r : Request)
  /-- The platform delivers the compare interrupt, due or not (41_timer.md R120); `lag` ticks pass inside the handler,
  and `reply` is what the consumer does if it is called (none: a free answer). -/
  | interrupt (lag : Nat) (reply : Option Reply)
  /-- The counter advances by `n` ticks. -/
  | tick (n : Nat)
  /-- A producer fills a record. -/
  | fill (ptr : Nat) (record : CommandRecord)
  /-- A producer frees a record. -/
  | free (ptr : Nat)
  /-- Code outside CORE enters (true) or leaves (false) a critical section (10_state.md R28, IM). -/
  | mask (b : Bool)
  /-- RESET is asserted (70_reset_and_hazards.md R210). -/
  | reset
  deriving DecidableEq, Repr

/-- The state of one instance (10_state.md R10), with the model's own fields last. -/
structure State where
  /-- The parameters of the instance; no step changes them (log entries 1 and 2). -/
  params : Params
  /-- SP_STATUS, SP_CMDPTR, SP_POS, SP_TIME, SP_V0, SP_CONSUMER. -/
  sp : SpRegs
  /-- TM_TIME, TM_CMP, TM_CTRL. -/
  tm : TmRegs
  /-- TM_CNT, the platform's free-running counter (10_state.md R23). -/
  cnt : Time
  /-- FAULT. -/
  fault : FaultReg
  /-- DIR and STEP. -/
  pins : Pins
  /-- The event trace, oldest first. -/
  trace : List OutEvent
  /-- IM, the interrupt mask (10_state.md R28). -/
  im : Bool
  /-- IN_IRQ (10_state.md R28). -/
  inIrq : Bool
  /-- The Command memory. -/
  mem : Memory
  /-- What the environment supplies to the operation of this step. -/
  latch : Latch
  /-- What the operation of this step presents on R and RT, if anything (log entry 13). -/
  result : Option Result
  /-- The environment's schedule, next first (log entry 9). -/
  inputs : List Input
  /-- How many free values have been drawn (log entry 6). -/
  freeCount : Nat
  deriving DecidableEq, Repr

/-- An instance with the parameters `p` right after reset (10_state.md R29). The fields R29 calls unspecified, the counter
and the model's own fields are DESIGN CHOICE values (log entries 3, 4, 6, 9, 13), UNSAFE where a claim leans on them. -/
def State.resetOf (p : Params) : State where
  params := p
  sp := { running := false, notEnded := false, notDecel := false, prestepEn := false, life := false,
          cmdPtr := 0, pos := 0, time := 0, v0 := 0, consumer := 0 }
  tm := { time := 0, cmp := 0, armed := false, irqEn := false, tlife := false }
  cnt := 0
  fault := { halted := false, code := 0 }
  pins := { dir := false, step := false }
  trace := []
  im := false
  inIrq := false
  mem := []
  latch := { issuer := .operationPort, a := 0, b := 0, c := 0, ptr := 0, lag := 0, reply := none }
  result := none
  inputs := []
  freeCount := 0

/-- The machine right after reset, with the default parameters (log entries 1 and 2). -/
def State.reset : State := State.resetOf defaultParams

end Machine
end Sys2Proof
end

