-- ==== Sys2Proof/Machine/Flags.lean ====
section
/-! DEFINITION. The status words of CORE as SYS.RDREG presents them (10_state.md R14, R22, R24) and the violation codes
(60_exceptions.md R181). CORE has no arithmetic flags: no FX operation sets one (10_state.md R13). -/

namespace Sys2Proof
namespace Machine

/-- The value written to FAULT bits 8:1 (R181). -/
def violationCode : Violation → BitVec 8
  | .fxRange => 0x01
  | .fxDivZero => 0x02
  | .fxNegative => 0x03
  | .fxWidth => 0x04
  | .tmAlreadyArmed => 0x10
  | .tmContext => 0x11
  | .tmArmed => 0x12
  | .spAlreadyRunning => 0x20
  | .spNullCommand => 0x21
  | .spDeinitRunning => 0x22
  | .spAccelRange => 0x23
  | .spDiscNegative => 0x24
  | .spBusy => 0x25
  | .spNotRunning => 0x26
  | .spLife => 0x27
  | .spContext => 0x28
  | .illegalOp => 0x30

/-- ILLEGAL_OP and FX_WIDTH are detected whatever ASSERTIONS is (R183). -/
def alwaysDetected (v : Violation) : Bool :=
  v = .illegalOp || v = .fxWidth

/-- SP_STATUS: bit 0 RUNNING, 1 NOT_ENDED, 2 NOT_DECEL, 3 PRESTEP_EN, 4 LIFE (10_state.md R14). -/
def spStatusWord (r : SpRegs) : BitVec 5 :=
  BitVec.ofBool r.life ++ BitVec.ofBool r.prestepEn ++ BitVec.ofBool r.notDecel ++ BitVec.ofBool r.notEnded ++
    BitVec.ofBool r.running

/-- TM_CTRL: bit 0 ARMED, which reads 0 when ASSERTIONS is false, 1 IRQ_EN, 2 TLIFE (10_state.md R22). -/
def tmCtrlWord (p : Params) (r : TmRegs) : BitVec 3 :=
  BitVec.ofBool r.tlife ++ BitVec.ofBool r.irqEn ++ BitVec.ofBool (r.armed && p.assertions)

/-- FAULT: bit 0 HALTED, bits 8:1 CODE (10_state.md R24). -/
def faultWord (r : FaultReg) : BitVec 9 :=
  r.code ++ BitVec.ofBool r.halted

end Machine
end Sys2Proof
end

