-- ==== Sys2Proof/WellFormed.lean ====
section
/-! DEFINITION. Which operations of `Instr` a legal request word names: the conditions of 30_encoding.md R68 on
fields that any bits of the field's place can hold. (The fields that must be 0 are no fields of a constructor.)
An operation that is not well formed still has a meaning: it raises ILLEGAL_OP (R68). -/

namespace Sys2Proof

/-- A magnitude width field is legal from 1 to MAX_W, a parameter of the instance (00_scope.md R5; R61, R68). -/
def legalWidth (maxW : Nat) (w : WidthField) : Bool :=
  decide (1 ≤ w.toNat) && decide (w.toNat ≤ maxW)

/-- The register numbers 10_state.md defines (R68, 44_system.md R170). -/
def definedRegister (reg : BitVec 8) : Bool :=
  [0, 1, 2, 3, 4, 5, 8, 9, 10, 11, 15].contains reg.toNat

/-- R68: the width fields are in 1 to MAX_W, the register number is defined. The N field is not bounded here: a
target width or shift amount outside its limits is FX_WIDTH, not an illegal word (40_fxu.md R85 to R93). -/
def Instr.wellFormed (maxW : Nat) : Instr → Bool
  | .fxMake _ wa | .fxTos wa | .fxTou wa | .fxWiden _ wa _ | .fxNarrow _ wa _ | .fxShl _ wa _ | .fxShr _ wa _ =>
    legalWidth maxW wa
  | .fxSqrt wa _ => legalWidth maxW wa
  | .fxAdd _ wa _ wb | .fxSub _ wa _ wb | .fxMul _ wa _ wb | .fxDiv _ wa _ wb _ => legalWidth maxW wa && legalWidth maxW wb
  | .sysRdreg reg => definedRegister reg
  | .tmInit | .tmDeinit | .tmSetfirst | .tmSetnext | .tmUnset | .tmIrq | .tmGettime | .tmGe => true
  | .spInit | .spDeinit | .spStart _ | .spStop | .spStep | .spGencmd _ | .spPrestep _ => true
  | .cdCmdcb _ | .cdPrecb _ => true

end Sys2Proof
end

