-- ==== Sys2Proof/Machine/Operands.lean ====
section
/-! DEFINITION. Operand forms: typed values (40_fxu.md R80), the reading of a port (30_encoding.md R66), the type code of
port RT (10_state.md R11), the fields of a Command record (20_memory.md R41, R42), the arithmetic of 00_scope.md R7, and
the order on times (41_timer.md R110, R115). -/

namespace Sys2Proof
namespace Machine

/-- A BoundedValue: a type (signedness and magnitude width) and an integer (R80). -/
structure Bounded where
  signed : Bool
  width : Nat
  val : Int
  deriving DecidableEq, Repr

/-- `max(W) = 2^W - 1` (R80). -/
def maxMagnitude (w : Nat) : Int := 2 ^ w - 1

/-- `fits(v, u, W)` and `fits(v, s, W)`: the signed range is symmetric (R80). -/
def fits (v : Int) (signed : Bool) (w : Nat) : Bool :=
  if signed then decide (-maxMagnitude w ≤ v) && decide (v ≤ maxMagnitude w)
  else decide (0 ≤ v) && decide (v ≤ maxMagnitude w)

/-- The pattern on a port of MAX_W + 1 wires, as a number (10_state.md R11). -/
def portNat (maxW : Nat) (p : PortWord) : Nat := (p.setWidth (maxW + 1)).toNat

/-- A value on a port of MAX_W + 1 wires, read as signed or as unsigned (10_state.md R11, 30_encoding.md R66). Read as
unsigned, a value with bit MAX_W set is at least 2^MAX_W and so fits no unsigned type (log entry 20). -/
def portValue (maxW : Nat) (signed : Bool) (p : PortWord) : Int :=
  if signed then (p.setWidth (maxW + 1)).toInt else (portNat maxW p : Int)

/-- A port holds a time: read as unsigned it is below 2^N, and bit MAX_W is 0 as R66 asks of an unsigned value
(30_encoding.md R66, R68). -/
def portHoldsTime (maxW : Nat) (p : PortWord) : Bool :=
  decide (portNat maxW p < 2 ^ Config.timeBits) && decide (portNat maxW p < 2 ^ maxW)

/-- A value on port PTR or in the Command slot, of PTR_BITS wires (10_state.md R11). -/
def pointer (p : Params) (v : Nat) : Nat := v % 2 ^ p.ptrBits

/-- The type code on RT: bit 7 the signedness, bits 6:0 the magnitude width (10_state.md R11). -/
def typeCode (signed : Bool) (w : Nat) : BitVec 8 :=
  BitVec.ofBool signed ++ BitVec.ofNat 7 w

/-- A typed value as ports R and RT present it (10_state.md R11). -/
def presented (b : Bounded) : Result where
  r := BitVec.ofInt 128 b.val
  rt := typeCode b.signed b.width

/-- `trunc_div(a, b)`: the quotient rounded toward zero (00_scope.md R7). -/
def truncDiv (a b : Int) : Int := a.tdiv b

/-- `shr_tz(a, n)`: the signed right shift of 40_fxu.md R88 (00_scope.md R7). -/
def shrTz (a : Int) (n : Nat) : Int := truncDiv a (2 ^ n)

/-- The bit-by-bit root of 40_fxu.md R94: bits `k - 1` down to 0 are tried on the root `r` found so far. -/
def sqrtBits : Nat → Nat → Nat → Nat
  | 0, r, _ => r
  | k + 1, r, a =>
    let c := r + 2 ^ k
    sqrtBits k (if c * c ≤ a then c else r) a

/-- `floor_sqrt(v)`: half the bits of `v` are tried (00_scope.md R7, 40_fxu.md R93, R94). -/
def floorSqrt (v : Nat) : Nat := sqrtBits (v.log2 / 2 + 1) 0 v

/-- The signedness of a field's type (20_memory.md R41). -/
def fieldSigned : Field → Bool
  | .dirx | .tmul => false
  | .amul | .disc => true

/-- The magnitude width of a field's type: u(S+2), u(TB), s(S+2+2P), s(2S+2+2P) (20_memory.md R41). -/
def fieldWidth (p : Params) : Field → Nat
  | .dirx => p.stepBits + 2
  | .tmul => p.tmulBits
  | .amul => p.stepBits + 2 + 2 * p.discPrec
  | .disc => 2 * p.stepBits + 2 + 2 * p.discPrec

/-- The width of the sum DISC + AMUL that EVAL takes, an FX.ADD (40_fxu.md R89, 42_scheduler.md R137). -/
def evalWidth (p : Params) : Nat := max (fieldWidth p .disc) (fieldWidth p .amul) + 1

/-- The value is in the range of the field's type (20_memory.md R45). -/
def fieldFits (p : Params) (f : Field) (v : Int) : Bool := fits v (fieldSigned f) (fieldWidth p f)

/-- The value of a field of a record (20_memory.md R41). -/
def recordGet (r : CommandRecord) : Field → Int
  | .dirx => r.dirx
  | .tmul => r.tmul
  | .amul => r.amul
  | .disc => r.disc

/-- The record with one field changed. -/
def recordSet (r : CommandRecord) (v : Int) : Field → CommandRecord
  | .dirx => { r with dirx := v }
  | .tmul => { r with tmul := v }
  | .amul => { r with amul := v }
  | .disc => { r with disc := v }

/-- Every field of the record is in the range of its type. -/
def recordFits (p : Params) (r : CommandRecord) : Bool :=
  fieldFits p .dirx r.dirx && fieldFits p .tmul r.tmul && fieldFits p .amul r.amul && fieldFits p .disc r.disc

/-- DIRX bits S-1:0, the step count (20_memory.md R42). -/
def dirxSteps (p : Params) (dirx : Int) : Nat := dirx.toNat % 2 ^ p.stepBits

/-- DIRX bit S, the direction (20_memory.md R42). -/
def dirxDirection (p : Params) (dirx : Int) : Bool := dirx.toNat.testBit p.stepBits

/-- DIRX bit S+1, isAccelerating (20_memory.md R42). -/
def dirxAccelerating (p : Params) (dirx : Int) : Bool := dirx.toNat.testBit (p.stepBits + 1)

/-- DIRX of a step count, a direction and an acceleration sign (20_memory.md R42, 42_scheduler.md R134). -/
def packDirx (p : Params) (x : Int) (dir acc : Bool) : Int :=
  x + (if dir then 2 ^ p.stepBits else 0) + (if acc then 2 ^ (p.stepBits + 1) else 0)

/-- AMUL: `a << (2 + 2P)` (42_scheduler.md R134). -/
def amulOf (p : Params) (a : Int) : Int := a * 2 ^ (2 + 2 * p.discPrec)

/-- DISC at hand-over: `((x - a) << P)^2` (42_scheduler.md R134). -/
def discOf (p : Params) (x a : Int) : Int := ((x - a) * 2 ^ p.discPrec) * ((x - a) * 2 ^ p.discPrec)

/-- The record of a Command: `x` steps in `t` ticks with signed acceleration `a` in the direction `dir` (42_scheduler.md
R134). -/
def commandRecord (p : Params) (x t a : Int) (dir : Bool) : CommandRecord where
  dirx := packDirx p x dir (decide (0 ≤ a))
  tmul := t
  amul := amulOf p a
  disc := discOf p x a

/-- `time_ge(b, a)`: time b is at or after time a (41_timer.md R110). -/
def timeGe (b a : Time) : Bool := decide ((b - a).toNat < 2 ^ (Config.timeBits - 1))

/-- `rebase(time, now)` with the clearance `c` (41_timer.md R115). -/
def rebase (c : Nat) (time now : Time) : Time :=
  let limit := now + BitVec.ofNat 32 c
  if timeGe limit time then limit else time

/-- `route(id)` for `c` registered consumers (43_dispatch.md R161). -/
def route (c : Nat) (id : Nat) : Nat :=
  if id < c - 1 then id else c - 1

end Machine
end Sys2Proof
end

