-- ==== Sys2Proof/Machine/Ops.lean ====
section
/-! DEFINITION. The named operations over registers, memory and the environment that every meaning is written with:
contract violations (60_exceptions.md R181 to R184), the operation port (30_encoding.md R68, R69), the Command memory
(20_memory.md R45 to R48), the counter, the critical section (20_memory.md R53), the trace (10_state.md R25). -/

namespace Sys2Proof
namespace Machine

/-- How an operation ends before its last line. -/
inductive Stop where
  /-- It raised a contract violation, which the state records. -/
  | violated
  /-- The machine stops. -/
  | machine (f : Fault)
  deriving DecidableEq, Repr

/-- The body of an operation: it reads and writes the state and may end early, keeping what it wrote before
(60_exceptions.md R182, "the writes the operation made before the raise stand"). -/
abbrev Op (α : Type) := EStateM Stop State α

/-- The outcome of a step that performs `body`. -/
def perform (body : Op Unit) (s : State) : Host.Outcome State Fault Refusal :=
  match body s with
  | .ok _ t => .next t
  | .error .violated t => .next t
  | .error (.machine f) _ => .fault f

/-! ### Contract violations -/

/-- What `raise Violation(v)` writes: the code of the first violation, HALTED; the operation returns no result (R182). -/
def recordViolation (v : Violation) (s : State) : State :=
  { s with
    fault := { halted := true, code := if s.fault.halted then s.fault.code else violationCode v }
    result := none }

/-- `raise Violation(v)`. A detected violation is recorded and ends the operation (R182). With ASSERTIONS = false every
violation but ILLEGAL_OP and FX_WIDTH leaves the behaviour undefined from there on (R183, log entry 14). -/
def raise {α : Type} (v : Violation) : Op α := fun s =>
  if s.params.assertions || alwaysDetected v then .error .violated (recordViolation v s)
  else .error (.machine (.uncheckedViolation v)) s

/-- `assert c else v` (00_scope.md R8). -/
def check (c : Prop) [Decidable c] (v : Violation) : Op Unit :=
  if c then pure () else raise v

/-! ### The operation port -/

/-- No result stands on R and RT. -/
def clearResult : Op Unit := modify fun s => { s with result := none }

/-- An operation of kind P (30_encoding.md R67). A halted instance refuses it without effect (60_exceptions.md R182). -/
def onPort (body : Op Unit) : Op Unit := do
  clearResult
  if (← get).fault.halted then pure () else body

/-- An operation of kind I, E or O. On the operation port its word is illegal (30_encoding.md R69); performed by CORE it
runs its body. A halted instance does neither (60_exceptions.md R182). -/
def coreOnly (body : Op Unit) : Op Unit := do
  clearResult
  let s ← get
  if s.fault.halted then pure ()
  else if s.latch.issuer = .operationPort then raise .illegalOp
  else body

/-- A request word that names no operation (30_encoding.md R68). -/
def illegalWord : Op Unit := onPort (raise .illegalOp)

/-- Presents a value on R and RT. -/
def present (b : Bounded) : Op Unit := modify fun s => { s with result := some (presented b) }

/-- A time operand: a port value outside 0 to 2^N - 1 makes the word illegal (30_encoding.md R68). -/
def timeOperand (p : PortWord) : Op Time := do
  let m := (← get).params.maxW
  check (portHoldsTime m p = true) .illegalOp
  pure (BitVec.ofNat 32 (portNat m p))

/-! ### Free values (log entry 6) -/

/-- Draws a free value of `w` bits. -/
def freshBits (w : Nat) : Op (BitVec w) := do
  let s ← get
  set { s with freeCount := s.freeCount + 1 }
  pure (Config.freeBits w s.freeCount)

/-- Presents the value of a register or of the counter, `w` bits unsigned (44_system.md R170, 41_timer.md R112). Port R
holds an unsigned value with bit MAX_W at 0 (30_encoding.md R66); for a value of 2^MAX_W or more the spec states nothing it
shows: what it shows is free (log entry 27). -/
def presentRegister (w n : Nat) : Op Unit := do
  let m := (← get).params.maxW
  if n < 2 ^ m then present ⟨false, w, (n : Int)⟩
  else
    let free ← freshBits (m + 1)
    modify fun s => { s with result := some { r := free.signExtend 128, rt := typeCode false w } }

/-- The `n`-th free value as a value of the field's type: every value of the type is one it may be. -/
def freeFieldValue (p : Params) (f : Field) (n : Nat) : Int :=
  if fieldFits p f (Config.freeInt n) then Config.freeInt n else 0

/-- Draws a free value of the field's type. -/
def freshField (f : Field) : Op Int := do
  let s ← get
  set { s with freeCount := s.freeCount + 1 }
  pure (freeFieldValue s.params f s.freeCount)

/-- The registers of which 10_state.md R29 and 42_scheduler.md R132 say that they are unspecified, each at a free value;
LIFE, RUNNING, IRQ_EN and TLIFE are 0. That NOT_ENDED and NOT_DECEL are free, where the examples of 42_scheduler.md R131 and
44_system.md R170 and 95_test_vectors.md V21 show them 0 after SP.INIT, is the model's reading (DEDUCED, log entry 30). -/
def unspecifyRegisters (s : State) : State :=
  let n := s.freeCount
  { s with
    sp := { running := false
            notEnded := Config.freeBits 1 n = 1
            notDecel := Config.freeBits 1 (n + 1) = 1
            prestepEn := Config.freeBits 1 (n + 2) = 1
            life := false
            cmdPtr := (Config.freeBits s.params.ptrBits (n + 3)).toNat
            pos := (Config.freeBits s.params.stepBits (n + 4)).toNat
            time := Config.freeBits 32 (n + 5)
            v0 := (Config.freeBits (s.params.stepBits + s.params.discPrec) (n + 6)).toNat
            consumer := (Config.freeBits s.params.cidBits (n + 7)).toNat }
    tm := { time := Config.freeBits 32 (n + 8)
            cmp := Config.freeBits 32 (n + 9)
            armed := Config.freeBits 1 (n + 10) = 1
            irqEn := false
            tlife := false }
    freeCount := n + 11 }

/-! ### The Command memory -/

/-- The canonical form: pointers strictly rising, none null, each of PTR_BITS bits, every value in the range of its field's
type. -/
abbrev Memory.wf (p : Params) (m : Memory) : Prop :=
  m.Pairwise (fun c d => c.ptr < d.ptr) ∧
    ∀ c ∈ m, 0 < c.ptr ∧ c.ptr < 2 ^ p.ptrBits ∧ recordFits p c.record = true

/-- The record at `q`, none where it is not filled. -/
def memRecord (m : Memory) (q : Nat) : Option CommandRecord :=
  (m.find? fun c => c.ptr = q).map RecordCell.record

/-- The value of a field, none where the record is not filled. -/
def memGet (m : Memory) (q : Nat) (f : Field) : Option Int := (memRecord m q).map fun r => recordGet r f

/-- The memory with a whole record put in its place. -/
def memPut (m : Memory) (c : RecordCell) : Memory :=
  match m with
  | [] => [c]
  | d :: ds =>
    if c.ptr < d.ptr then c :: d :: ds
    else if c.ptr = d.ptr then c :: ds
    else d :: memPut ds c

/-- The memory with one field of the record at `q` written. A record that is not filled stays so: written partly it names
no filled record (20_memory.md R48). -/
def memSet (m : Memory) (q : Nat) (f : Field) (v : Int) : Memory :=
  m.map fun c => if c.ptr = q then { c with record := recordSet c.record v f } else c

/-- The memory without the record at `q`. -/
def memErase (m : Memory) (q : Nat) : Memory := m.filter fun c => c.ptr ≠ q

/-- `MemRead(ptr.FIELD)` (20_memory.md R45); a field of a record that is not filled reads as an arbitrary value of its type,
another one at each read (R48, log entry 7). -/
def memRead (q : Nat) (f : Field) : Op Int := do
  match memGet (← get).mem q f with
  | some v => pure v
  | none => freshField f

/-- `MemWrite(ptr.FIELD, v)`: a value outside the field's range raises FX_RANGE (20_memory.md R45). -/
def memWrite (q : Nat) (f : Field) (v : Int) : Op Unit := do
  check (fieldFits (← get).params f v = true) .fxRange
  modify fun s => { s with mem := memSet s.mem q f v }

/-- The `MemWrite` of all four fields of a record, which fills it (20_memory.md R45, R48). -/
def memFill (q : Nat) (r : CommandRecord) : Op Unit := do
  check (recordFits (← get).params r = true) .fxRange
  modify fun s => { s with mem := memPut s.mem { ptr := q, record := r } }

/-- CORE owns the record at `p`: from the hand-over to the end of the SP.STEP that emits the boundary pulse, or of the
LOAD of a zero-step Command, or of the run (20_memory.md R44): while RUNNING and NOT_ENDED (log entry 8). -/
def owns (s : State) (p : Nat) : Bool := s.sp.running && s.sp.notEnded && s.sp.cmdPtr == p

/-- After a write by another agent to a record CORE owns its fields are arbitrary (93_implementation_defined.md U5, log
entry 8). -/
def spoilIfOwned (p : Nat) (s : State) : State :=
  if owns s p then { s with mem := memErase s.mem p } else s

/-- A producer fills the record at `p` (20_memory.md R44). The null pointer names no record (R48); a record with a value
outside its field's type is not filled (log entry 25). -/
def fillRecord (p : Nat) (r : CommandRecord) (s : State) : State :=
  let q := pointer s.params p
  if q = 0 then s
  else if recordFits s.params r then spoilIfOwned q { s with mem := memPut s.mem { ptr := q, record := r } }
  else { s with mem := memErase s.mem q }

/-- A producer frees the record at `p` (20_memory.md R48). -/
def freeRecord (p : Nat) (s : State) : State := { s with mem := memErase s.mem (pointer s.params p) }

/-! ### The counter, the critical section, the trace, the pins -/

/-- The counter `n` ticks later (10_state.md R23). -/
def advanceCounter (n : Nat) (s : State) : State := { s with cnt := s.cnt + BitVec.ofNat 32 n }

/-- A read of CNT, after the ticks that pass before it inside the operation (93_implementation_defined.md U8, log
entry 11). -/
def readCounter : Op Time := do
  modify fun s => advanceCounter s.latch.lag s
  pure (← get).cnt

/-- `atomic { body }`: IM is 1 inside (10_state.md R28, 20_memory.md R53); a scoped section leaves it as it was before
(log entry 23). -/
def atomically {α : Type} (body : Op α) : Op α := do
  let before := (← get).im
  modify fun s => { s with im := true }
  let r ← body
  modify fun s => { s with im := before }
  pure r

/-- `emit e` (10_state.md R25). -/
def emit (e : OutEvent) : Op Unit := modify fun s => { s with trace := s.trace ++ [e] }

/-- One pulse: STEP high, then low, nothing between them (42_scheduler.md R141). -/
def pulse : Op Unit := do
  emit .pulseOn
  modify fun s => { s with pins := { s.pins with step := true } }
  emit .pulseOff
  modify fun s => { s with pins := { s.pins with step := false } }

/-- `setDirection(b)` (10_state.md R25). -/
def setDirection (b : Bool) : Op Unit := do
  emit (.dirSet b)
  modify fun s => { s with pins := { s.pins with dir := b } }

/-- TM.IRQ may start (60_exceptions.md R187). -/
def interruptMayStart (s : State) : Bool := s.tm.irqEn && !s.im && !s.inIrq && !s.fault.halted

/-- An expiry is due (41_timer.md R120). -/
def expiryDue (s : State) : Bool := s.tm.irqEn && timeGe s.cnt s.tm.cmp

end Machine
end Sys2Proof
end

