-- ==== Sys2Proof/Machine/Fxu.lean ====
section
/-! DEFINITION. FXU, the fixed-point arithmetic unit (40_fxu.md): the twelve FX operations as functions on typed values (for a given MAX_W),
and as operations on the ports. The order of the checks is that of R81: the word, the operands' ranges, the result
width, the operation's own preconditions. -/

namespace Sys2Proof
namespace Machine

/-! ### Typed values to typed values -/

/-- FX.MAKE (R82): construction with bounds assertion. -/
def fxMakeValue (v : Int) (signed : Bool) (w : Nat) : Except Violation Bounded :=
  if fits v signed w then .ok ⟨signed, w, v⟩ else .error .fxRange

/-- FX.TOS (R83). -/
def fxTosValue (a : Bounded) : Except Violation Bounded := .ok ⟨true, a.width, a.val⟩

/-- FX.TOU (R84). -/
def fxTouValue (a : Bounded) : Except Violation Bounded :=
  if 0 ≤ a.val then .ok ⟨false, a.width, a.val⟩ else .error .fxNegative

/-- FX.WIDEN (R85). -/
def fxWidenValue (maxW : Nat) (a : Bounded) (tw : Nat) : Except Violation Bounded :=
  if a.width ≤ tw ∧ tw ≤ maxW then .ok ⟨a.signed, tw, a.val⟩ else .error .fxWidth

/-- FX.NARROW (R86). -/
def fxNarrowValue (a : Bounded) (tw : Nat) : Except Violation Bounded :=
  if 1 ≤ tw ∧ tw ≤ a.width then
    if fits a.val a.signed tw then .ok ⟨a.signed, tw, a.val⟩ else .error .fxRange
  else .error .fxWidth

/-- FX.SHL (R87). -/
def fxShlValue (maxW : Nat) (a : Bounded) (n : Nat) : Except Violation Bounded :=
  if a.width + n ≤ maxW then .ok ⟨a.signed, a.width + n, a.val * 2 ^ n⟩ else .error .fxWidth

/-- FX.SHR (R88): rounded toward zero. -/
def fxShrValue (a : Bounded) (n : Nat) : Except Violation Bounded :=
  if n + 1 ≤ a.width then .ok ⟨a.signed, a.width - n, shrTz a.val n⟩ else .error .fxWidth

/-- FX.ADD (R89). -/
def fxAddValue (maxW : Nat) (a b : Bounded) : Except Violation Bounded :=
  let w := max a.width b.width + 1
  if w ≤ maxW then .ok ⟨a.signed || b.signed, w, a.val + b.val⟩ else .error .fxWidth

/-- FX.SUB (R90): always signed. -/
def fxSubValue (maxW : Nat) (a b : Bounded) : Except Violation Bounded :=
  let w := if a.signed || b.signed then max a.width b.width + 1 else max a.width b.width
  if w ≤ maxW then .ok ⟨true, w, a.val - b.val⟩ else .error .fxWidth

/-- FX.MUL (R91). -/
def fxMulValue (maxW : Nat) (a b : Bounded) : Except Violation Bounded :=
  let w := a.width + b.width
  if w ≤ maxW then .ok ⟨a.signed || b.signed, w, a.val * b.val⟩ else .error .fxWidth

/-- FX.DIV (R92): rounded toward zero, with an explicit target width. -/
def fxDivValue (maxW : Nat) (a b : Bounded) (tw : Nat) : Except Violation Bounded :=
  if 1 ≤ tw ∧ tw ≤ maxW then
    if b.val ≠ 0 then
      let q := truncDiv a.val b.val
      if fits q (a.signed || b.signed) tw then .ok ⟨a.signed || b.signed, tw, q⟩ else .error .fxRange
    else .error .fxDivZero
  else .error .fxWidth

/-- FX.SQRT (R93): rounded down, with an explicit target width. Which of the two algorithms of R94 is used is not
observable. -/
def fxSqrtValue (maxW : Nat) (a : Bounded) (tw : Nat) : Except Violation Bounded :=
  if 1 ≤ tw ∧ tw ≤ maxW then
    let r : Int := floorSqrt a.val.toNat
    if fits r false tw then .ok ⟨false, tw, r⟩ else .error .fxRange
  else .error .fxWidth

/-! ### Operations on the ports -/

/-- A width field outside 1 to MAX_W makes the word illegal (30_encoding.md R68). -/
def requireWidth (w : WidthField) : Op Unit := do
  check (legalWidth (← get).params.maxW w = true) .illegalOp

/-- The operand on a port, of the declared type (R81: a value outside it is FX_RANGE). -/
def typedOperand (signed : Bool) (w : WidthField) (p : PortWord) : Op Bounded := do
  let v := portValue (← get).params.maxW signed p
  check (fits v signed w.toNat = true) .fxRange
  pure ⟨signed, w.toNat, v⟩

/-- Presents the value of an FX function, or raises its violation. -/
def presentOrRaise (r : Except Violation Bounded) : Op Unit :=
  match r with
  | .ok b => present b
  | .error v => raise v

/-- An FX operation with one operand, on port A (30_encoding.md R66); `f` is its function, for an instance with the given
MAX_W. -/
def unaryFx (sa : Bool) (wa : WidthField) (f : Nat → Bounded → Except Violation Bounded) : Op Unit :=
  onPort do
    requireWidth wa
    let a ← typedOperand sa wa (← get).latch.a
    presentOrRaise (f (← get).params.maxW a)

/-- An FX operation with two operands, on ports A and B (30_encoding.md R66). -/
def binaryFx (sa : Bool) (wa : WidthField) (sb : Bool) (wb : WidthField)
    (f : Nat → Bounded → Bounded → Except Violation Bounded) : Op Unit :=
  onPort do
    requireWidth wa
    requireWidth wb
    let a ← typedOperand sa wa (← get).latch.a
    let b ← typedOperand sb wb (← get).latch.b
    presentOrRaise (f (← get).params.maxW a b)

/-- FX.MAKE (R82): port A is always read as signed (30_encoding.md R66). -/
def fxMake (sa : Bool) (wa : WidthField) : Op Unit :=
  onPort do
    requireWidth wa
    let s ← get
    presentOrRaise (fxMakeValue (portValue s.params.maxW true s.latch.a) sa wa.toNat)

/-- FX.TOS (R83). -/
def fxTos (wa : WidthField) : Op Unit := unaryFx false wa fun _ a => fxTosValue a

/-- FX.TOU (R84). -/
def fxTou (wa : WidthField) : Op Unit := unaryFx true wa fun _ a => fxTouValue a

/-- FX.WIDEN (R85). -/
def fxWiden (sa : Bool) (wa n : WidthField) : Op Unit := unaryFx sa wa fun m a => fxWidenValue m a n.toNat

/-- FX.NARROW (R86). -/
def fxNarrow (sa : Bool) (wa n : WidthField) : Op Unit := unaryFx sa wa fun _ a => fxNarrowValue a n.toNat

/-- FX.SHL (R87). -/
def fxShl (sa : Bool) (wa n : WidthField) : Op Unit := unaryFx sa wa fun m a => fxShlValue m a n.toNat

/-- FX.SHR (R88). -/
def fxShr (sa : Bool) (wa n : WidthField) : Op Unit := unaryFx sa wa fun _ a => fxShrValue a n.toNat

/-- FX.ADD (R89). -/
def fxAdd (sa : Bool) (wa : WidthField) (sb : Bool) (wb : WidthField) : Op Unit := binaryFx sa wa sb wb fxAddValue

/-- FX.SUB (R90). -/
def fxSub (sa : Bool) (wa : WidthField) (sb : Bool) (wb : WidthField) : Op Unit := binaryFx sa wa sb wb fxSubValue

/-- FX.MUL (R91). -/
def fxMul (sa : Bool) (wa : WidthField) (sb : Bool) (wb : WidthField) : Op Unit := binaryFx sa wa sb wb fxMulValue

/-- FX.DIV (R92). -/
def fxDiv (sa : Bool) (wa : WidthField) (sb : Bool) (wb n : WidthField) : Op Unit :=
  binaryFx sa wa sb wb fun m a b => fxDivValue m a b n.toNat

/-- FX.SQRT (R93). -/
def fxSqrt (wa n : WidthField) : Op Unit := unaryFx false wa fun m a => fxSqrtValue m a n.toNat

/-! ### Meanings -/

def execFxMake (sa : Bool) (wa : WidthField) (s : State) : Host.Outcome State Fault Refusal := perform (fxMake sa wa) s

def execFxTos (wa : WidthField) (s : State) : Host.Outcome State Fault Refusal := perform (fxTos wa) s

def execFxTou (wa : WidthField) (s : State) : Host.Outcome State Fault Refusal := perform (fxTou wa) s

def execFxWiden (sa : Bool) (wa n : WidthField) (s : State) : Host.Outcome State Fault Refusal :=
  perform (fxWiden sa wa n) s

def execFxNarrow (sa : Bool) (wa n : WidthField) (s : State) : Host.Outcome State Fault Refusal :=
  perform (fxNarrow sa wa n) s

def execFxShl (sa : Bool) (wa n : WidthField) (s : State) : Host.Outcome State Fault Refusal :=
  perform (fxShl sa wa n) s

def execFxShr (sa : Bool) (wa n : WidthField) (s : State) : Host.Outcome State Fault Refusal :=
  perform (fxShr sa wa n) s

def execFxAdd (sa : Bool) (wa : WidthField) (sb : Bool) (wb : WidthField) (s : State) :
    Host.Outcome State Fault Refusal := perform (fxAdd sa wa sb wb) s

def execFxSub (sa : Bool) (wa : WidthField) (sb : Bool) (wb : WidthField) (s : State) :
    Host.Outcome State Fault Refusal := perform (fxSub sa wa sb wb) s

def execFxMul (sa : Bool) (wa : WidthField) (sb : Bool) (wb : WidthField) (s : State) :
    Host.Outcome State Fault Refusal := perform (fxMul sa wa sb wb) s

def execFxDiv (sa : Bool) (wa : WidthField) (sb : Bool) (wb n : WidthField) (s : State) :
    Host.Outcome State Fault Refusal := perform (fxDiv sa wa sb wb n) s

def execFxSqrt (wa n : WidthField) (s : State) : Host.Outcome State Fault Refusal := perform (fxSqrt wa n) s

end Machine
end Sys2Proof
end

