-- ==== Sys2Proof/Machine/Timer.lean ====
section
/-! DEFINITION. TMR, the timer compare unit (41_timer.md), but for TM.IRQ, which stands in Machine/Handler.lean. -/

namespace Sys2Proof
namespace Machine

/-! ### The unit's own operations, as other operations perform them -/

/-- TM.INIT (R113). -/
def timerInit : Op Unit :=
  modify fun s => { s with tm := { s.tm with tlife := true, irqEn := false, armed := false } }

/-- TM.DEINIT (R114). -/
def timerDeinit : Op Unit := do
  check ((← get).tm.irqEn = false) .tmArmed
  modify fun s => { s with tm := { s.tm with tlife := false } }

/-- The critical section TM.SETFIRST and TM.SETNEXT share: the counter is read, the requested time is kept in TM_TIME, the
re-based one is written to TM_CMP (R115 to R117), and the platform's armAt enables the interrupt (10_state.md R22: ARMED
exists only when ASSERTIONS is true). -/
def armAt (time : Time) : Op Unit :=
  atomically do
    let now ← readCounter
    let s ← get
    let cmp := rebase s.params.clearance time now
    set { s with tm := { s.tm with time := time, cmp := cmp, irqEn := true, armed := s.params.assertions } }
    emit (.arm cmp)

/-- TM.SETFIRST (R116). -/
def timerSetFirst (time : Time) : Op Unit := do
  check ((← get).tm.irqEn = false) .tmAlreadyArmed
  armAt time

/-- TM.SETNEXT (R117): IRQ_EN is 1 already and stays so. -/
def timerSetNext (time : Time) : Op Unit := do
  let s ← get
  check (s.inIrq = true ∧ s.tm.irqEn = true) .tmContext
  armAt time

/-- TM.UNSET (R118). -/
def timerUnset : Op Unit :=
  atomically do
    modify fun s => { s with tm := { s.tm with irqEn := false, armed := false } }
    emit .disarm

/-! ### The operations as requests -/

/-- TM.GE (R111): time b on port A, time a on port B. -/
def tmGe : Op Unit :=
  onPort do
    let b ← timeOperand (← get).latch.a
    let a ← timeOperand (← get).latch.b
    present ⟨false, 1, if timeGe b a then 1 else 0⟩

/-- TM.GETTIME (R112). -/
def tmGettime : Op Unit :=
  onPort do
    let now ← atomically readCounter
    presentRegister Config.timeBits now.toNat

/-- TM.SETFIRST with its time on port A (30_encoding.md R62). -/
def tmSetfirst : Op Unit :=
  coreOnly do
    let time ← timeOperand (← get).latch.a
    timerSetFirst time

/-- TM.SETNEXT with its time on port A (30_encoding.md R62). -/
def tmSetnext : Op Unit :=
  coreOnly do
    let time ← timeOperand (← get).latch.a
    timerSetNext time

/-! ### Meanings -/

def execTmInit (s : State) : Host.Outcome State Fault Refusal := perform (coreOnly timerInit) s

def execTmDeinit (s : State) : Host.Outcome State Fault Refusal := perform (coreOnly timerDeinit) s

def execTmSetfirst (s : State) : Host.Outcome State Fault Refusal := perform tmSetfirst s

def execTmSetnext (s : State) : Host.Outcome State Fault Refusal := perform tmSetnext s

def execTmUnset (s : State) : Host.Outcome State Fault Refusal := perform (coreOnly timerUnset) s

def execTmGettime (s : State) : Host.Outcome State Fault Refusal := perform tmGettime s

def execTmGe (s : State) : Host.Outcome State Fault Refusal := perform tmGe s

end Machine
end Sys2Proof
end

