-- ==== Sys2Proof/Machine/Scheduler.lean ====
section
/-! DEFINITION. SPS, the step-pulse scheduler (42_scheduler.md): life cycle, building a Command, the procedures LOAD and EVAL,
start and stop. SP.STEP stands in Machine/Handler.lean. -/

namespace Sys2Proof
namespace Machine

/-! ### Life cycle and configuration -/

/-- An operation of background context only: SP_CONTEXT when IN_IRQ = 1 (60_exceptions.md R193). -/
def requireBackground : Op Unit := do
  check ((← get).inIrq = false) .spContext

/-- SP.INIT (R131). 10_state.md R29 calls the DIR pin and the registers the rule does not name unspecified until SP.START or
TM.SETFIRST: that SP.INIT keeps the level and the values they have is the model's choice (log entry 5). -/
def spInit : Op Unit :=
  onPort do
    requireBackground
    check ((← get).sp.life = false) .spLife
    timerInit
    modify fun s => { s with sp := { s.sp with life := true, running := false, prestepEn := false } }

/-- SP.DEINIT (R132): afterwards the scheduler and timer registers are unspecified, LIFE, RUNNING, IRQ_EN and TLIFE are 0
(log entry 5). -/
def spDeinit : Op Unit :=
  onPort do
    requireBackground
    check ((← get).sp.life = true) .spLife
    check ((← get).sp.running = false) .spDeinitRunning
    timerDeinit
    modify unspecifyRegisters

/-- SP.PRESTEP (R133). -/
def spPrestep (flag : Bool) : Op Unit :=
  onPort do
    requireBackground
    check ((← get).sp.life = true) .spLife
    check ((← get).sp.running = false) .spBusy
    modify fun s => { s with sp := { s.sp with prestepEn := flag } }

/-! ### Building a Command -/

/-- SP.GENCMD (R134): its four writes fill the record. A record CORE owns becomes arbitrary by them (93_implementation_defined.md U5, log
entry 8). -/
def spGencmd (dir : Bool) : Op Unit :=
  onPort do
    let s ← get
    let x := portValue s.params.maxW false s.latch.a
    let t := portValue s.params.maxW false s.latch.b
    let a := portValue s.params.maxW true s.latch.c
    let ptr := pointer s.params s.latch.ptr
    check (fits x false s.params.stepBits = true ∧ fits t false s.params.tmulBits = true ∧
      fits a true s.params.stepBits = true) .fxRange
    check (ptr ≠ 0) .spNullCommand
    check (-x ≤ a ∧ a ≤ x) .spAccelRange
    memFill ptr (commandRecord s.params x t a dir)
    modify (spoilIfOwned ptr)

/-! ### LOAD and EVAL -/

/-- EVAL (R137): one addition, one square root, one division; the offset of the pulse at SP_POS from the segment
boundary, in ticks. The sum is an FX.ADD under the FXU's own rules (40_fxu.md R96): where its type is wider than MAX_W, as
00_scope.md R5 lets it be, it raises FX_WIDTH (R81, log entry 29). -/
def evalSegment (ptr : Nat) : Op Nat := do
  let disc ← memRead ptr .disc
  let amul ← memRead ptr .amul
  let s ← get
  check (evalWidth s.params ≤ s.params.maxW) .fxWidth
  let d := disc + amul
  check (0 ≤ d) .spDiscNegative
  check (d ≤ maxMagnitude (fieldWidth s.params .disc)) .fxRange
  memWrite ptr .disc d
  if s.sp.pos = 0 then pure 0
  else
    let sq := floorSqrt d.toNat
    let q := (s.sp.v0 + sq) / 2
    check (q ≠ 0) .fxDivZero
    let tf := (s.sp.pos * 2 ^ (s.params.discPrec + s.params.fracBits)) / q
    check (tf ≤ 2 ^ (s.params.fracBits + 1) - 1) .fxRange
    let tmul ← memRead ptr .tmul
    pure (tmul.toNat * tf / 2 ^ s.params.fracBits)

/-- The seeds LOAD gives SP_POS, SP_TIME and SP_V0 for a Command with steps (R136): from the start upward in the
acceleration phase, from the end downward in the deceleration phase. -/
def seedSegment (x : Nat) (acc : Bool) (amul : Int) (t0 tend : Time) : Op Unit := do
  let pr := (← get).params
  let ap := shrTz amul (2 + pr.discPrec)
  let xp : Int := (x : Int) * 2 ^ pr.discPrec
  let v := if acc then xp - ap else xp + ap
  modify fun s => { s with sp := { s.sp with
    pos := if acc then 1 else x - 1
    time := if acc then t0 else tend } }
  check (0 ≤ v) .fxNegative
  check (v ≤ maxMagnitude (pr.stepBits + pr.discPrec)) .fxRange
  modify fun s => { s with sp := { s.sp with v0 := v.toNat } }

/-- The first event of the segment just loaded (R136): the end time of a zero-step Command, else the first pulse. -/
def firstEvent (ptr : Nat) (x : Nat) (acc : Bool) (t0 tend : Time) : Op Time := do
  if x = 0 then
    modify fun s => { s with sp := { s.sp with time := tend } }
    pure tend
  else
    let amul ← memRead ptr .amul
    seedSegment x acc amul t0 tend
    let delta ← evalSegment ptr
    let s ← get
    pure (if acc then s.sp.time + BitVec.ofNat 32 delta else s.sp.time - BitVec.ofNat 32 delta)

/-- LOAD (R136). -/
def loadCommand (ptr : Nat) (t0 : Time) (first : Bool) : Op Unit := do
  let dirx ← memRead ptr .dirx
  let pr := (← get).params
  let x := dirxSteps pr dirx
  let acc := dirxAccelerating pr dirx
  setDirection (dirxDirection pr dirx)
  modify fun s => { s with sp := { s.sp with notDecel := acc, notEnded := decide (x ≠ 0) } }
  let tmul ← memRead ptr .tmul
  let tend := t0 + BitVec.ofNat 32 tmul.toNat
  let target ← firstEvent ptr x acc t0 tend
  if first then timerSetFirst target else timerSetNext target

/-! ### Start and stop -/

/-- The consumer id SP.START records. Any CID is accepted (R138); what a register of CID_BITS bits holds of one it has no room
for is not stated, so that value is free (log entry 28). -/
def recordedConsumer (cid : ConsumerId) : Op Nat := do
  let w := (← get).params.cidBits
  if cid.toNat < 2 ^ w then pure cid.toNat
  else
    let free ← freshBits w
    pure free.toNat

/-- SP.START (R138). -/
def spStart (cid : ConsumerId) : Op Unit :=
  onPort do
    let startTime ← timeOperand (← get).latch.a
    requireBackground
    check ((← get).sp.life = true) .spLife
    check ((← get).sp.running = false) .spAlreadyRunning
    let s ← get
    let ptr := pointer s.params s.latch.ptr
    check (ptr ≠ 0) .spNullCommand
    let id ← recordedConsumer cid
    modify fun s => { s with sp := { s.sp with running := true, consumer := id, cmdPtr := ptr } }
    loadCommand ptr startTime true

/-- SP.STOP (R139). -/
def spStop : Op Unit :=
  onPort do
    requireBackground
    check ((← get).sp.life = true) .spLife
    atomically do
      timerUnset
      modify fun s => { s with sp := { s.sp with running := false } }

/-! ### Meanings -/

def execSpInit (s : State) : Host.Outcome State Fault Refusal := perform spInit s

def execSpDeinit (s : State) : Host.Outcome State Fault Refusal := perform spDeinit s

def execSpStart (cid : ConsumerId) (s : State) : Host.Outcome State Fault Refusal := perform (spStart cid) s

def execSpStop (s : State) : Host.Outcome State Fault Refusal := perform spStop s

def execSpGencmd (flag : Bool) (s : State) : Host.Outcome State Fault Refusal := perform (spGencmd flag) s

def execSpPrestep (flag : Bool) (s : State) : Host.Outcome State Fault Refusal := perform (spPrestep flag) s

end Machine
end Sys2Proof
end

