-- ==== Sys2Proof/Machine/Sys.lean ====
section
/-! DEFINITION. SYS, reading the state (44_system.md R170). -/

namespace Sys2Proof
namespace Machine

/-- The value and width of a register, none for a number 10_state.md does not define (R170). TM_CNT is read by the caller,
which knows the moment. -/
def registerValue (s : State) (reg : Nat) : Option (Nat × Nat) :=
  match reg with
  | 0 => some ((spStatusWord s.sp).toNat, 5)
  | 1 => some (s.sp.cmdPtr, s.params.ptrBits)
  | 2 => some (s.sp.pos, s.params.stepBits)
  | 3 => some (s.sp.time.toNat, Config.timeBits)
  | 4 => some (s.sp.v0, s.params.stepBits + s.params.discPrec)
  | 5 => some (s.sp.consumer, s.params.cidBits)
  | 8 => some (s.tm.time.toNat, Config.timeBits)
  | 9 => some (s.tm.cmp.toNat, Config.timeBits)
  | 10 => some ((tmCtrlWord s.params s.tm).toNat, 3)
  | 11 => some (s.cnt.toNat, Config.timeBits)
  | 15 => some ((faultWord s.fault).toNat, 9)
  | _ => none

/-- SYS.RDREG (R170): the one operation a halted instance performs (60_exceptions.md R182). Register 11 reads the counter
at the moment of the read, after the ticks that pass inside the operation. -/
def sysRdreg (reg : BitVec 8) : Op Unit := do
  clearResult
  check (definedRegister reg = true) .illegalOp
  let v ← atomically do
    if reg = 11 then
      let now ← readCounter
      pure (some (now.toNat, Config.timeBits))
    else
      pure (registerValue (← get) reg.toNat)
  match v with
  | some (n, w) => presentRegister w n
  | none => raise .illegalOp

def execSysRdreg (reg : BitVec 8) (s : State) : Host.Outcome State Fault Refusal := perform (sysRdreg reg) s

end Machine
end Sys2Proof
end

