-- ==== Sys2Proof/Machine/Consumer.lean ====
section
/-! DEFINITION. CDX, the consumer dispatch (43_dispatch.md): the two callback transactions, and what a consumer may do inside
one (R164). -/

namespace Sys2Proof
namespace Machine

/-- An operation a consumer issues from inside a callback of this instance: what the operation port accepts, with IN_IRQ = 1
(R164, 60_exceptions.md R193). The kinds I, E and O are illegal words there (30_encoding.md R69). -/
def portOperation : Instr → Op Unit
  | .fxMake sa wa => fxMake sa wa
  | .fxTos wa => fxTos wa
  | .fxTou wa => fxTou wa
  | .fxWiden sa wa n => fxWiden sa wa n
  | .fxNarrow sa wa n => fxNarrow sa wa n
  | .fxShl sa wa n => fxShl sa wa n
  | .fxShr sa wa n => fxShr sa wa n
  | .fxAdd sa wa sb wb => fxAdd sa wa sb wb
  | .fxSub sa wa sb wb => fxSub sa wa sb wb
  | .fxMul sa wa sb wb => fxMul sa wa sb wb
  | .fxDiv sa wa sb wb n => fxDiv sa wa sb wb n
  | .fxSqrt wa n => fxSqrt wa n
  | .tmGettime => tmGettime
  | .tmGe => tmGe
  | .spInit => spInit
  | .spDeinit => spDeinit
  | .spStart cid => spStart cid
  | .spStop => spStop
  | .spGencmd flag => spGencmd flag
  | .spPrestep flag => spPrestep flag
  | .sysRdreg reg => sysRdreg reg
  | .tmInit | .tmDeinit | .tmSetfirst | .tmSetnext | .tmUnset | .tmIrq | .spStep => illegalWord
  | .cdCmdcb _ | .cdPrecb _ => illegalWord

/-- What a request puts on the ports (10_state.md R11). -/
def latchOf (r : Request) : Latch where
  issuer := .operationPort
  a := r.a
  b := r.b
  c := r.c
  ptr := r.ptr
  lag := r.lag
  reply := none

/-- One action of a consumer inside a callback (R164). -/
def callbackAction : CallbackAction → Op Unit
  | .operate r => do
    modify fun s => { s with latch := latchOf r }
    match decode r.word with
    | .ok i => portOperation i
    | .error _ => illegalWord
  | .fill p r => modify (fillRecord p r)
  | .free p => modify (freeRecord p)

/-- A consumer's actions, in order. -/
def callbackActions : List CallbackAction → Op Unit
  | [] => pure ()
  | a :: rest => do
    callbackAction a
    callbackActions rest

/-- The consumer runs: its actions on its own port values, then it returns or never does (93_implementation_defined.md U7,
log entries 15 and 24). -/
def runConsumer (r : Reply) : Op Unit := do
  let l := (← get).latch
  callbackActions r.actions
  if r.returns then
    modify fun s => { s with latch := l, result := none }
  else
    throw (.machine .callbackNeverReturned)

/-- An answer with the pointer as the slot of PTR_BITS bits holds it (R162). -/
def slotAnswer (p : Params) : CmdAnswer → CmdAnswer
  | .stop => .stop
  | .proceed ptr => .proceed (pointer p ptr)

/-- The consumer's answer to CD.CMDCB; where the environment supplies no reply it is free (log entry 24). -/
def commandAnswer : Op CmdAnswer := do
  match (← get).latch.reply with
  | some r =>
    runConsumer r
    pure (slotAnswer (← get).params r.next)
  | none =>
    let cont ← freshBits 1
    let p ← freshBits (← get).params.ptrBits
    pure (if cont = 1 then CmdAnswer.proceed p.toNat else CmdAnswer.stop)

/-- The consumer's answer to CD.PRECB; where the environment supplies no reply it is free (log entry 24). -/
def prestepAnswer : Op Bool := do
  match (← get).latch.reply with
  | some r =>
    runConsumer r
    pure r.abort
  | none =>
    let b ← freshBits 1
    pure (decide (b = 1))

/-- CD.CMDCB (R162): asks consumer `i` for the Command after the one at `ptrIn`. -/
def commandCallback (i : Nat) (ptrIn : Nat) : Op CmdAnswer := do
  let answer ← commandAnswer
  emit (.cmdCb i ptrIn answer)
  pure answer

/-- CD.PRECB (R163): asks consumer `i` whether to abort before the pulse. -/
def prestepCallback (i : Nat) : Op Bool := do
  let abort ← prestepAnswer
  emit (.preCb i abort)
  pure abort

/-- The consumer that owns the run (R161, R165). -/
def owningConsumer (s : State) : Nat := route s.params.numConsumers s.sp.consumer

/-! ### Meanings: the transactions as CORE issues them, IDX in the word and the slot content on PTR (30_encoding.md R64);
the answer stands in the trace (log entry 21). -/

def execCdCmdcb (idx : ConsumerId) (s : State) : Host.Outcome State Fault Refusal :=
  perform (coreOnly do let _ ← commandCallback idx.toNat (pointer s.params s.latch.ptr); pure ()) s

def execCdPrecb (idx : ConsumerId) (s : State) : Host.Outcome State Fault Refusal :=
  perform (coreOnly do let _ ← prestepCallback idx.toNat; pure ()) s

end Machine
end Sys2Proof
end

