-- ==== Sys2Proof/Machine/Handler.lean ====
section
/-! DEFINITION. The interrupt of the axis: SP.STEP, the handler (42_scheduler.md R140), and TM.IRQ, the entry into it and the
return from it (41_timer.md R119, 60_exceptions.md R186 to R192). -/

namespace Sys2Proof
namespace Machine

/-- The run ends without re-programming the timer (R140, R143). -/
def endRun : Op Bool := do
  modify fun s => { s with sp := { s.sp with running := false } }
  pure false

/-- A fetch interrupt (R140, source step 1): the consumer is asked for the next Command, which is loaded with the old
segment's end as its start. -/
def fetchInterrupt (ptr : Nat) : Op Bool := do
  let answer ← commandCallback (owningConsumer (← get)) ptr
  match answer with
  | .stop => endRun
  | .proceed newptr => do
    check (newptr ≠ 0) .spNullCommand
    modify fun s => { s with sp := { s.sp with cmdPtr := newptr } }
    loadCommand newptr (← get).sp.time false
    pure true

/-- SP_POS <- p: a position outside uS is FX_RANGE (10_state.md R13, 60_exceptions.md R181, log entry 16). -/
def writePos (p : Nat) : Op Unit := do
  check (p < 2 ^ (← get).params.stepBits) .fxRange
  modify fun s => { s with sp := { s.sp with pos := p } }

/-- What follows the pulse in the acceleration phase (R140). -/
def advanceUp (ptr : Nat) (x : Nat) : Op Unit := do
  let s ← get
  if s.sp.pos = x then
    modify fun s => { s with sp := { s.sp with notEnded := false } }
    let tmul ← memRead ptr .tmul
    modify fun s => { s with sp := { s.sp with time := s.sp.time + BitVec.ofNat 32 tmul.toNat } }
    timerSetNext (← get).sp.time
  else
    writePos (s.sp.pos + 1)
    let delta ← evalSegment ptr
    timerSetNext ((← get).sp.time + BitVec.ofNat 32 delta)

/-- What follows the pulse in the deceleration phase (R140). -/
def advanceDown (ptr : Nat) : Op Unit := do
  let s ← get
  if s.sp.pos = 0 then
    modify fun s => { s with sp := { s.sp with notEnded := false } }
    timerSetNext (← get).sp.time
  else
    writePos (s.sp.pos - 1)
    let delta ← evalSegment ptr
    timerSetNext ((← get).sp.time - BitVec.ofNat 32 delta)

/-- The pulse and what follows it (R140, source steps 3 to 7). -/
def emitStep (ptr : Nat) : Op Bool := do
  pulse
  let dirx ← memRead ptr .dirx
  let s ← get
  if s.sp.notDecel then advanceUp ptr (dirxSteps s.params dirx) else advanceDown ptr
  pure true

/-- A pulse interrupt (R140, source steps 2 to 7): the guard first, where it is enabled. -/
def pulseInterrupt (ptr : Nat) : Op Bool := do
  let s ← get
  if s.sp.prestepEn then
    let abort ← prestepCallback (owningConsumer s)
    if abort then endRun else emitStep ptr
  else emitStep ptr

/-- SP.STEP (R140). It answers keep: the timer has been re-programmed. -/
def stepHandler : Op Bool := do
  let s ← get
  check (s.sp.running = true) .spNotRunning
  if s.sp.notEnded then pulseInterrupt s.sp.cmdPtr else fetchInterrupt s.sp.cmdPtr

/-- TM.IRQ past its time check: IN_IRQ is 1 for the handler; without keep the timer is disarmed (R119). A violation inside
leaves IN_IRQ at 1 (60_exceptions.md R192). -/
def runHandler : Op Unit := do
  modify fun s => { s with inIrq := true }
  let keep ← stepHandler
  if keep then pure () else timerUnset
  modify fun s => { s with inIrq := false }

/-- TM.IRQ (R119), the entry of 60_exceptions.md R190: where it may not start nothing happens (R187, log entry 17); before
TM_TIME it is a no-op. The current time is CNT at entry. -/
def timerIrq : Op Unit := do
  let s ← get
  if interruptMayStart s && timeGe s.cnt s.tm.time then runHandler else pure ()

/-! ### Meanings -/

/-- SP.STEP performed directly (95_test_vectors.md V20 k). Its answer keep is RUNNING after it (log entry 18). -/
def execSpStep (s : State) : Host.Outcome State Fault Refusal :=
  perform (coreOnly do let _ ← stepHandler; pure ()) s

def execTmIrq (s : State) : Host.Outcome State Fault Refusal := perform (coreOnly timerIrq) s

end Machine
end Sys2Proof
end

