-- ==== Sys2Proof/Machine/Dispatch.lean ====
section
/-! DEFINITION. One arm per operation of 30_encoding.md R67. -/

namespace Sys2Proof
namespace Machine

def exec (i : Instr) (s : State) : Host.Outcome State Fault Refusal :=
  match i with
  | .fxMake sa wa => Sys2Proof.Machine.execFxMake sa wa s
  | .fxTos wa => Sys2Proof.Machine.execFxTos wa s
  | .fxTou wa => Sys2Proof.Machine.execFxTou wa s
  | .fxWiden sa wa n => Sys2Proof.Machine.execFxWiden sa wa n s
  | .fxNarrow sa wa n => Sys2Proof.Machine.execFxNarrow sa wa n s
  | .fxShl sa wa n => Sys2Proof.Machine.execFxShl sa wa n s
  | .fxShr sa wa n => Sys2Proof.Machine.execFxShr sa wa n s
  | .fxAdd sa wa sb wb => Sys2Proof.Machine.execFxAdd sa wa sb wb s
  | .fxSub sa wa sb wb => Sys2Proof.Machine.execFxSub sa wa sb wb s
  | .fxMul sa wa sb wb => Sys2Proof.Machine.execFxMul sa wa sb wb s
  | .fxDiv sa wa sb wb n => Sys2Proof.Machine.execFxDiv sa wa sb wb n s
  | .fxSqrt wa n => Sys2Proof.Machine.execFxSqrt wa n s
  | .tmInit => Sys2Proof.Machine.execTmInit s
  | .tmDeinit => Sys2Proof.Machine.execTmDeinit s
  | .tmSetfirst => Sys2Proof.Machine.execTmSetfirst s
  | .tmSetnext => Sys2Proof.Machine.execTmSetnext s
  | .tmUnset => Sys2Proof.Machine.execTmUnset s
  | .tmIrq => Sys2Proof.Machine.execTmIrq s
  | .tmGettime => Sys2Proof.Machine.execTmGettime s
  | .tmGe => Sys2Proof.Machine.execTmGe s
  | .spInit => Sys2Proof.Machine.execSpInit s
  | .spDeinit => Sys2Proof.Machine.execSpDeinit s
  | .spStart cid => Sys2Proof.Machine.execSpStart cid s
  | .spStop => Sys2Proof.Machine.execSpStop s
  | .spStep => Sys2Proof.Machine.execSpStep s
  | .spGencmd flag => Sys2Proof.Machine.execSpGencmd flag s
  | .spPrestep flag => Sys2Proof.Machine.execSpPrestep flag s
  | .cdCmdcb idx => Sys2Proof.Machine.execCdCmdcb idx s
  | .cdPrecb idx => Sys2Proof.Machine.execCdPrecb idx s
  | .sysRdreg reg => Sys2Proof.Machine.execSysRdreg reg s

end Machine
end Sys2Proof
end

