-- ==== Sys2Proof/Machine/Environment.lean ====
section
/-! DEFINITION. What the environment's own steps do to the state (00_scope.md R9), and how it hands an operation to CORE. -/

namespace Sys2Proof
namespace Machine

/-- The state an issued request is performed in: its port values stand on the ports, no result does, the request is
taken from the schedule (10_state.md R11). -/
def acceptRequest (r : Request) (rest : List Input) (s : State) : State :=
  { s with latch := latchOf r, result := none, inputs := rest }

/-- The state a delivered interrupt is performed in: the interrupt agent issues it, with the ticks that pass inside the
handler and what the consumer does if it is called. -/
def acceptInterrupt (lag : Nat) (reply : Option Reply) (rest : List Input) (s : State) : State :=
  { s with
    latch := { s.latch with issuer := .core, lag := lag, reply := reply }
    result := none
    inputs := rest }

/-- RESET (70_reset_and_hazards.md R210): every field R29 gives a value has it, the registers it calls unspecified and the
DIR pin are free (log entry 5); the Command memory, the counter and the parameters are not touched. -/
def assertReset (s : State) : State :=
  let u := unspecifyRegisters s
  { u with
    sp := { u.sp with prestepEn := false }
    tm := { u.tm with armed := false }
    fault := { halted := false, code := 0 }
    pins := { dir := Config.freeBits 1 u.freeCount = 1, step := false }
    trace := []
    im := false
    inIrq := false
    result := none
    freeCount := u.freeCount + 1 }

/-- An environment step that is no operation; what it does to the state, its entry taken from the schedule. -/
def environmentStep (f : State → State) (rest : List Input) (s : State) : State :=
  f { s with result := none, inputs := rest }

/-- Time passes and nothing else happens: between operations and interrupts CORE is idle with its state held in the registers,
whatever they hold; no state of it is a power state (60_exceptions.md R198). Only the counter, the platform's, advances. -/
def idle (n : Nat) (rest : List Input) (s : State) : State := environmentStep (advanceCounter n) rest s

/-- The interrupt is delivered in a step without a schedule: it may start, it is due and its time has arrived (log entry
10). -/
def idleInterrupt (s : State) : Bool :=
  interruptMayStart s && expiryDue s && timeGe s.cnt s.tm.time

end Machine
end Sys2Proof
end

