-- ==== Sys2Proof/Machine/Step.lean ====
section
/-! DEFINITION. One step: the environment's next entry, or, where it schedules nothing, one tick of the counter or the due
interrupt (60_exceptions.md R187, R189; log entries 9 and 10). CORE fetches no instruction (10_state.md R12): a request
word reaches it on the operation port. -/

namespace Sys2Proof
namespace Machine

/-- An operation issued on the operation port, its ports latched in `s`: the decoded operation, or ILLEGAL_OP
(30_encoding.md R68). -/
def performRequest (w : RequestWord) (s : State) : Host.Outcome State Fault Refusal :=
  match decode w with
  | .ok i => exec i s
  | .error _ => perform illegalWord s

/-- A step without a schedule: the due interrupt, or CORE is idle for a tick. -/
def idleStep (s : State) : Host.Outcome State Fault Refusal :=
  if idleInterrupt s then exec .tmIrq (acceptInterrupt 0 none [] s)
  else .next (idle 1 [] s)

def step (s : State) : Host.Outcome State Fault Refusal :=
  match s.inputs with
  | [] => idleStep s
  | .request r :: rest => performRequest r.word (acceptRequest r rest s)
  | .interrupt lag reply :: rest => exec .tmIrq (acceptInterrupt lag reply rest s)
  | .tick n :: rest => .next (idle n rest s)
  | .fill p r :: rest => .next (environmentStep (fillRecord p r) rest s)
  | .free p :: rest => .next (environmentStep (freeRecord p) rest s)
  | .mask b :: rest => .next (environmentStep (fun t => { t with im := b }) rest s)
  | .reset :: rest => .next (environmentStep assertReset rest s)

/-- `s` with the request word `w` as the next request on the operation port, on the port values `s` latches (log entry
9). -/
def State.withFetchWord (s : State) (nbits w : Nat) : State :=
  { s with
    inputs := .request { word := BitVec.ofNat 32 (w % 2 ^ nbits), a := s.latch.a, b := s.latch.b, c := s.latch.c,
                         ptr := s.latch.ptr, lag := s.latch.lag } :: s.inputs }

end Machine
end Sys2Proof
end

