-- ==== Sys2Proof/Safety.lean ====
section
/-! DEFINITION. The terms claims are stated in: what an operation shows, what a violation answers, the invariant of a
machine that is coherent between operations (10_state.md R26, R27), and what it means that a segment is under way
(42_scheduler.md R135, R144). -/

namespace Sys2Proof
namespace Machine

/-! ### Answers of an operation -/

/-- The instance is not halted (60_exceptions.md R182). -/
abbrev Live (s : State) : Prop := s.fault.halted = false

/-- The state with nothing on ports R and RT. -/
def State.quiet (s : State) : State := { s with result := none }

/-- The state with a typed value on ports R and RT. -/
def State.shows (s : State) (b : Bounded) : State := { s with result := some (presented b) }

/-- What an operation answers that raises `v` in the state `s` (60_exceptions.md R182, R183). -/
def violationOutcome (v : Violation) (s : State) : Host.Outcome State Fault Refusal :=
  if s.params.assertions || alwaysDetected v then .next (recordViolation v s) else .fault (.uncheckedViolation v)

/-- The port of an instance with the given MAX_W holds the value `v` of the type (signed, w), and the width field is legal
(40_fxu.md R80, R81). -/
abbrev PortHolds (maxW : Nat) (p : PortWord) (signed : Bool) (w : WidthField) (v : Int) : Prop :=
  legalWidth maxW w = true ∧ portValue maxW signed p = v ∧ fits v signed w.toNat = true

/-- The port holds the time `t` (30_encoding.md R62, R66). -/
abbrev PortTime (maxW : Nat) (p : PortWord) (t : Time) : Prop :=
  portHoldsTime maxW p = true ∧ portNat maxW p = t.toNat

/-- The outcome is `s` with the typed value `b` shown, the value fits its type, and the ports hold it exactly (10_state.md
R11, 40_fxu.md R81). -/
abbrev Presents (s : State) (b : Bounded) (o : Host.Outcome State Fault Refusal) : Prop :=
  o = .next (s.shows b) ∧ fits b.val b.signed b.width = true ∧ (presented b).r.toInt = b.val ∧
    (presented b).rt.toNat = (if b.signed then 128 else 0) + b.width

/-- The outcome is `s` with `n`, unsigned of `w` bits, shown, and port R holds it exactly; where port R cannot hold `n`, being
2^MAX_W or more, a free value is shown. (Both that and the code of a width above 127 on RT are log entry 27.) -/
abbrev ShowsRegister (s : State) (w n : Nat) (o : Host.Outcome State Fault Refusal) : Prop :=
  n < 2 ^ w ∧
    (n < 2 ^ s.params.maxW → o = .next (s.shows ⟨false, w, (n : Int)⟩) ∧
      (presented ⟨false, w, (n : Int)⟩).r.toInt = n ∧ (presented ⟨false, w, (n : Int)⟩).rt.toNat = w % 128) ∧
    (2 ^ s.params.maxW ≤ n → ∃ r, o = .next { s with
      result := some { r := r, rt := typeCode false w }, freeCount := s.freeCount + 1 })

/-! ### Who performs an operation -/

/-- The twelve FX operations (40_fxu.md R82 to R93). -/
def isFx : Instr → Bool
  | .fxMake .. | .fxTos .. | .fxTou .. | .fxWiden .. | .fxNarrow .. | .fxShl .. | .fxShr .. => true
  | .fxAdd .. | .fxSub .. | .fxMul .. | .fxDiv .. | .fxSqrt .. => true
  | .tmInit | .tmDeinit | .tmSetfirst | .tmSetnext | .tmUnset | .tmIrq | .tmGettime | .tmGe => false
  | .spInit | .spDeinit | .spStart _ | .spStop | .spStep | .spGencmd _ | .spPrestep _ => false
  | .cdCmdcb _ | .cdPrecb _ | .sysRdreg _ => false

/-! ### The invariant -/

/-- The registers whose width is a parameter hold a value of that width (10_state.md R15, R16, R18, R19). -/
structure RegistersInRange (s : State) : Prop where
  cmdPtr : s.sp.cmdPtr < 2 ^ s.params.ptrBits
  pos : s.sp.pos < 2 ^ s.params.stepBits
  v0 : s.sp.v0 < 2 ^ (s.params.stepBits + s.params.discPrec)
  consumer : s.sp.consumer < 2 ^ s.params.cidBits

/-- 10_state.md R26, outside an operation or handler: RUNNING and IRQ_EN agree, a run has a life and a Command, the handler
is not executing. A halted instance stopped inside an operation, so only the last line holds of it. -/
structure Coherent (s : State) : Prop where
  runningArmed : s.fault.halted = false → s.sp.running = s.tm.irqEn
  runningAlive : s.fault.halted = false → s.sp.running = true → s.sp.life = true ∧ s.sp.cmdPtr ≠ 0
  background : s.fault.halted = false → s.inIrq = false
  lifeAcquired : s.sp.life = true → s.tm.tlife = true

/-- While armed the compare register lies at or after the requested time (10_state.md R27), and ARMED tells so in a build
that has it (R22). -/
structure TimerAhead (s : State) : Prop where
  ahead : s.tm.irqEn = true → timeGe s.tm.cmp s.tm.time = true
  armed : s.tm.irqEn = true → s.tm.armed = s.params.assertions

/-- FAULT holds a code of 60_exceptions.md R181 exactly when it is halted. -/
structure FaultCoherent (s : State) : Prop where
  clear : s.fault.halted = false → s.fault.code = 0
  coded : s.fault.halted = true → ∃ v : Violation, s.fault.code = violationCode v

/-- The invariant every step keeps. -/
structure Inv (s : State) : Prop where
  params : s.params.Valid
  registers : RegistersInRange s
  memory : Memory.wf s.params s.mem
  coherent : Coherent s
  timer : TimerAhead s
  fault : FaultCoherent s
  stepLow : s.pins.step = false

/-! ### A segment under way -/

/-- The record at `q` is the one SP.GENCMD writes for `x` steps in `t` ticks with signed acceleration `a` and the direction
`dir`, after `k` evaluations (20_memory.md R43, 42_scheduler.md R134, R135). -/
structure RecordAfter (p : Params) (m : Memory) (q : Nat) (x t : Nat) (a : Int) (dir : Bool) (k : Nat) : Prop where
  steps : x < 2 ^ p.stepBits
  duration : t < 2 ^ p.tmulBits
  lower : -(x : Int) ≤ a
  upper : a ≤ x
  record : memRecord m q = some { commandRecord p x t a dir with disc := discOf p x a + k * amulOf p a }

/-- The segment of the record at SP_CMDPTR began at the boundary time `b` and its `k`-th event is the one the timer waits for:
`k` evaluations are done, SP_POS counts up from the start or down from the end, SP_TIME is the boundary it counts from
(10_state.md R16 to R18, 42_scheduler.md R135). -/
structure SegmentAt (s : State) (x t : Nat) (a : Int) (dir : Bool) (b : Time) (k : Nat) : Prop where
  record : RecordAfter s.params s.mem s.sp.cmdPtr x t a dir k
  running : s.sp.running = true
  notEnded : s.sp.notEnded = true
  first : 1 ≤ k
  last : k ≤ x
  phase : s.sp.notDecel = decide (0 ≤ a)
  velocity : s.sp.v0 = (x - a.natAbs) * 2 ^ s.params.discPrec
  position : s.sp.pos = if 0 ≤ a then k else x - k
  boundary : s.sp.time = if 0 ≤ a then b else b + BitVec.ofNat 32 t

/-- The offset EVAL computes from SP_V0, SP_POS, TMUL and the new discriminant (42_scheduler.md R137). -/
def evalOffset (p : Params) (v0 pos t d : Nat) : Nat :=
  if pos = 0 then 0
  else t * ((pos * 2 ^ (p.discPrec + p.fracBits)) / ((v0 + floorSqrt d) / 2)) / 2 ^ p.fracBits

/-- The discriminant of a Command with `x` steps and acceleration `a` at SP_POS = `pos`: `v0^2 + 4 |a| pos`, with 2P
fractional bits (42_scheduler.md R135). -/
def discAt (p : Params) (x : Nat) (a : Int) (pos : Nat) : Nat :=
  ((x - a.natAbs) * (x - a.natAbs) + 4 * a.natAbs * pos) * 2 ^ (2 * p.discPrec)

/-- What LOAD does with a fresh record of `x` steps in `t` ticks at `q`, for a segment that begins at the boundary time `b`
(42_scheduler.md R136): from `s` to `u`. -/
structure Loaded (s u : State) (q : Nat) (x t : Nat) (a : Int) (dir : Bool) (b : Time) : Prop where
  cmdPtr : u.sp.cmdPtr = q
  running : u.sp.running = true
  direction : u.pins = { s.pins with dir := dir }
  phase : u.sp.notDecel = decide (0 ≤ a)
  emptySegment : x = 0 → u.sp.notEnded = false ∧ u.sp.time = b + BitVec.ofNat 32 t ∧
    u.tm.time = b + BitVec.ofNat 32 t ∧ u.sp.pos = s.sp.pos ∧ u.sp.v0 = s.sp.v0 ∧ u.mem = s.mem
  segment : 0 < x → SegmentAt u x t a dir b 1 ∧
    u.tm.time = (if 0 ≤ a then
        u.sp.time + BitVec.ofNat 32 (evalOffset s.params u.sp.v0 u.sp.pos t (discAt s.params x a u.sp.pos))
      else u.sp.time - BitVec.ofNat 32 (evalOffset s.params u.sp.v0 u.sp.pos t (discAt s.params x a u.sp.pos)))
  single : x = 1 → u.tm.time = b + BitVec.ofNat 32 t
  counter : u.cnt = s.cnt + BitVec.ofNat 32 s.latch.lag
  compare : u.tm.cmp = rebase s.params.clearance u.tm.time u.cnt
  control : u.tm.irqEn = true ∧ u.tm.armed = s.params.assertions ∧ u.tm.tlife = s.tm.tlife
  trace : u.trace = s.trace ++ [.dirSet dir, .arm u.tm.cmp]
  memory : ∀ p f, ¬ (p = q ∧ f = .disc) → memGet u.mem p f = memGet s.mem p f
  kept : u.sp.prestepEn = s.sp.prestepEn ∧ u.sp.life = s.sp.life ∧ u.params = s.params ∧ u.fault = s.fault ∧
    u.im = s.im ∧ u.inIrq = s.inIrq ∧ u.latch = s.latch ∧ u.inputs = s.inputs ∧ u.result = none

/-- EVAL as the chain of FX operations 42_scheduler.md R137 names, with their types, past its own check that the
discriminant is not negative (95_test_vectors.md P1). -/
def fxEvalChain (p : Params) (disc amul v0 pos tmul : Int) : Except Violation Bounded := do
  let sum ← fxAddValue p.maxW ⟨true, fieldWidth p .disc, disc⟩ ⟨true, fieldWidth p .amul, amul⟩
  let d ← fxNarrowValue sum (fieldWidth p .disc)
  let u ← fxTouValue d
  let sq ← fxSqrtValue p.maxW u (p.stepBits + 1 + p.discPrec)
  let twice ← fxAddValue p.maxW ⟨false, p.stepBits + p.discPrec, v0⟩ sq
  let q ← fxShrValue twice 1
  let dividend ← fxShlValue p.maxW ⟨false, p.stepBits, pos⟩ (p.discPrec + p.fracBits)
  let tf ← fxDivValue p.maxW dividend q (p.fracBits + 1)
  let product ← fxMulValue p.maxW ⟨false, p.tmulBits, tmul⟩ tf
  fxShrValue product p.fracBits

end Machine
end Sys2Proof
end

