-- ==== Sys2Proof/Certificates/Slice0/Obligations.lean ====
section
/-! DEFINITION. The statements about CORE for the provers. Each cites the rule of spec/ it formalises. -/

open Sys2Proof Sys2Proof.Machine

/-! ### FXU -/

/-- 40_fxu.md R82: FX.MAKE shows the raw value of port A with the target type, or raises FX_RANGE where the value is outside
the type. -/
def Obligations.MakeConstructsOrRaises : Prop :=
  (∀ sa wa, decode (encodeX 0x00 sa wa false 0 0) = .ok (.fxMake sa wa)) ∧
  ∀ (s : State) (sa : Bool) (wa : WidthField) (v : Int), Live s → s.params.Valid → legalWidth s.params.maxW wa = true →
    v = (s.latch.a.setWidth (s.params.maxW + 1)).toInt →
    ((if sa then -(2 ^ wa.toNat - 1 : Int) else 0) ≤ v ∧ v ≤ 2 ^ wa.toNat - 1 →
      Presents s ⟨sa, wa.toNat, v⟩ (exec (.fxMake sa wa) s)) ∧
    (¬ ((if sa then -(2 ^ wa.toNat - 1 : Int) else 0) ≤ v ∧ v ≤ 2 ^ wa.toNat - 1) →
      exec (.fxMake sa wa) s = violationOutcome .fxRange s)

/-- 40_fxu.md R83, R84: FX.TOS keeps the value and the width of an unsigned operand and makes its type signed; FX.TOU keeps a
non-negative value and its width and makes its type unsigned, and raises FX_NEGATIVE on a negative one. -/
def Obligations.SignConversionsKeepTheValue : Prop :=
  (∀ wa, decode (encodeX 0x01 false wa false 0 0) = .ok (.fxTos wa) ∧
    decode (encodeX 0x02 true wa false 0 0) = .ok (.fxTou wa)) ∧
  ∀ (s : State) (wa : WidthField) (v : Int), Live s → s.params.Valid →
    (PortHolds s.params.maxW s.latch.a false wa v → Presents s ⟨true, wa.toNat, v⟩ (exec (.fxTos wa) s)) ∧
    (PortHolds s.params.maxW s.latch.a true wa v → 0 ≤ v → Presents s ⟨false, wa.toNat, v⟩ (exec (.fxTou wa) s)) ∧
    (PortHolds s.params.maxW s.latch.a true wa v → v < 0 → exec (.fxTou wa) s = violationOutcome .fxNegative s)

/-- 40_fxu.md R85: FX.WIDEN keeps the value in a type of the target width, FX_WIDTH unless WA <= TW <= MAX_W. -/
def Obligations.WidenKeepsValue : Prop :=
  (∀ sa wa n, decode (encodeX 0x03 sa wa false 0 n) = .ok (.fxWiden sa wa n)) ∧
  ∀ (s : State) (sa : Bool) (wa n : WidthField) (v : Int), Live s → s.params.Valid → PortHolds s.params.maxW s.latch.a sa wa v →
    (wa.toNat ≤ n.toNat ∧ n.toNat ≤ s.params.maxW → Presents s ⟨sa, n.toNat, v⟩ (exec (.fxWiden sa wa n) s)) ∧
    (¬ (wa.toNat ≤ n.toNat ∧ n.toNat ≤ s.params.maxW) → exec (.fxWiden sa wa n) s = violationOutcome .fxWidth s)

/-- 40_fxu.md R86: FX.NARROW keeps a value that fits the target width, raises FX_RANGE on one that does not, and FX_WIDTH
unless 1 <= TW <= WA. -/
def Obligations.NarrowChecksTheValue : Prop :=
  (∀ sa wa n, decode (encodeX 0x04 sa wa false 0 n) = .ok (.fxNarrow sa wa n)) ∧
  ∀ (s : State) (sa : Bool) (wa n : WidthField) (v : Int), Live s → s.params.Valid → PortHolds s.params.maxW s.latch.a sa wa v →
    (¬ (1 ≤ n.toNat ∧ n.toNat ≤ wa.toNat) → exec (.fxNarrow sa wa n) s = violationOutcome .fxWidth s) ∧
    (1 ≤ n.toNat ∧ n.toNat ≤ wa.toNat → -(2 ^ n.toNat - 1 : Int) ≤ v ∧ v ≤ 2 ^ n.toNat - 1 →
      Presents s ⟨sa, n.toNat, v⟩ (exec (.fxNarrow sa wa n) s)) ∧
    (1 ≤ n.toNat ∧ n.toNat ≤ wa.toNat → ¬ (-(2 ^ n.toNat - 1 : Int) ≤ v ∧ v ≤ 2 ^ n.toNat - 1) →
      exec (.fxNarrow sa wa n) s = violationOutcome .fxRange s)

/-- 40_fxu.md R87: FX.SHL shows a * 2^n in a type n bits wider; FX_WIDTH where that is wider than MAX_W. -/
def Obligations.ShiftLeftMultiplies : Prop :=
  (∀ sa wa n, decode (encodeX 0x05 sa wa false 0 n) = .ok (.fxShl sa wa n)) ∧
  ∀ (s : State) (sa : Bool) (wa n : WidthField) (v : Int), Live s → s.params.Valid → PortHolds s.params.maxW s.latch.a sa wa v →
    (wa.toNat + n.toNat ≤ s.params.maxW → Presents s ⟨sa, wa.toNat + n.toNat, v * 2 ^ n.toNat⟩ (exec (.fxShl sa wa n) s)) ∧
    (s.params.maxW < wa.toNat + n.toNat → exec (.fxShl sa wa n) s = violationOutcome .fxWidth s)

/-- 40_fxu.md R88: FX.SHR divides by 2^n, rounding toward zero, in a type n bits narrower; FX_WIDTH where no bit is left. -/
def Obligations.ShiftRightRoundsTowardZero : Prop :=
  (∀ sa wa n, decode (encodeX 0x06 sa wa false 0 n) = .ok (.fxShr sa wa n)) ∧
  ∀ (s : State) (sa : Bool) (wa n : WidthField) (v : Int), Live s → s.params.Valid → PortHolds s.params.maxW s.latch.a sa wa v →
    (n.toNat ≤ wa.toNat - 1 →
      Presents s ⟨sa, wa.toNat - n.toNat, if 0 ≤ v then v / 2 ^ n.toNat else -((-v) / 2 ^ n.toNat)⟩
        (exec (.fxShr sa wa n) s)) ∧
    (¬ n.toNat ≤ wa.toNat - 1 → exec (.fxShr sa wa n) s = violationOutcome .fxWidth s)

/-- 40_fxu.md R89: FX.ADD shows the exact sum, one bit wider than the wider operand, signed if an operand is; FX_WIDTH where
that is wider than MAX_W. -/
def Obligations.AddIsExact : Prop :=
  (∀ sa wa sb wb, decode (encodeX 0x07 sa wa sb wb 0) = .ok (.fxAdd sa wa sb wb)) ∧
  ∀ (s : State) (sa : Bool) (wa : WidthField) (sb : Bool) (wb : WidthField) (v w : Int), Live s → s.params.Valid →
    PortHolds s.params.maxW s.latch.a sa wa v → PortHolds s.params.maxW s.latch.b sb wb w →
    (max wa.toNat wb.toNat + 1 ≤ s.params.maxW →
      Presents s ⟨sa || sb, max wa.toNat wb.toNat + 1, v + w⟩ (exec (.fxAdd sa wa sb wb) s)) ∧
    (s.params.maxW < max wa.toNat wb.toNat + 1 → exec (.fxAdd sa wa sb wb) s = violationOutcome .fxWidth s)

/-- 40_fxu.md R90: FX.SUB shows the exact difference in a signed type, as wide as the wider operand if both are unsigned and one
bit wider otherwise; FX_WIDTH where that is wider than MAX_W. -/
def Obligations.SubtractIsExactAndSigned : Prop :=
  (∀ sa wa sb wb, decode (encodeX 0x08 sa wa sb wb 0) = .ok (.fxSub sa wa sb wb)) ∧
  ∀ (s : State) (sa : Bool) (wa : WidthField) (sb : Bool) (wb : WidthField) (v w : Int) (wr : Nat), Live s → s.params.Valid →
    PortHolds s.params.maxW s.latch.a sa wa v → PortHolds s.params.maxW s.latch.b sb wb w →
    wr = (if sa = false ∧ sb = false then max wa.toNat wb.toNat else max wa.toNat wb.toNat + 1) →
    (wr ≤ s.params.maxW → Presents s ⟨true, wr, v - w⟩ (exec (.fxSub sa wa sb wb) s)) ∧
    (s.params.maxW < wr → exec (.fxSub sa wa sb wb) s = violationOutcome .fxWidth s)

/-- 40_fxu.md R91: FX.MUL shows the full product, as wide as both operands together, signed if an operand is; FX_WIDTH where
that is wider than MAX_W. -/
def Obligations.MultiplyIsExact : Prop :=
  (∀ sa wa sb wb, decode (encodeX 0x09 sa wa sb wb 0) = .ok (.fxMul sa wa sb wb)) ∧
  ∀ (s : State) (sa : Bool) (wa : WidthField) (sb : Bool) (wb : WidthField) (v w : Int), Live s → s.params.Valid →
    PortHolds s.params.maxW s.latch.a sa wa v → PortHolds s.params.maxW s.latch.b sb wb w →
    (wa.toNat + wb.toNat ≤ s.params.maxW → Presents s ⟨sa || sb, wa.toNat + wb.toNat, v * w⟩ (exec (.fxMul sa wa sb wb) s)) ∧
    (s.params.maxW < wa.toNat + wb.toNat → exec (.fxMul sa wa sb wb) s = violationOutcome .fxWidth s)

/-- 40_fxu.md R92: FX.DIV shows the quotient rounded toward zero in the target width, signed if an operand is; in the order of
the checks FX_WIDTH for a target outside 1 to MAX_W, FX_DIV_ZERO for a divisor 0, FX_RANGE for a quotient that does not
fit. -/
def Obligations.DivideRoundsTowardZero : Prop :=
  (∀ sa wa sb wb n, decode (encodeX 0x0A sa wa sb wb n) = .ok (.fxDiv sa wa sb wb n)) ∧
  ∀ (s : State) (sa : Bool) (wa : WidthField) (sb : Bool) (wb n : WidthField) (v w q : Int), Live s → s.params.Valid →
    PortHolds s.params.maxW s.latch.a sa wa v → PortHolds s.params.maxW s.latch.b sb wb w →
    q = (if (0 ≤ v ∧ 0 ≤ w) ∨ (v < 0 ∧ w < 0) then ((v.natAbs / w.natAbs : Nat) : Int)
      else -((v.natAbs / w.natAbs : Nat) : Int)) →
    (¬ (1 ≤ n.toNat ∧ n.toNat ≤ s.params.maxW) → exec (.fxDiv sa wa sb wb n) s = violationOutcome .fxWidth s) ∧
    (1 ≤ n.toNat ∧ n.toNat ≤ s.params.maxW →
      (w = 0 → exec (.fxDiv sa wa sb wb n) s = violationOutcome .fxDivZero s) ∧
      (w ≠ 0 → q.natAbs ≤ 2 ^ n.toNat - 1 → Presents s ⟨sa || sb, n.toNat, q⟩ (exec (.fxDiv sa wa sb wb n) s)) ∧
      (w ≠ 0 → 2 ^ n.toNat - 1 < q.natAbs → exec (.fxDiv sa wa sb wb n) s = violationOutcome .fxRange s))

/-- 40_fxu.md R93: FX.SQRT shows the largest r with r * r <= a in the target width; FX_WIDTH for a target outside 1 to MAX_W,
FX_RANGE for a root that does not fit. -/
def Obligations.SqrtIsLargestRoot : Prop :=
  (∀ wa n, decode (encodeX 0x0B false wa false 0 n) = .ok (.fxSqrt wa n)) ∧
  ∀ (s : State) (wa n : WidthField) (v r : Nat), Live s → s.params.Valid → PortHolds s.params.maxW s.latch.a false wa v →
    r * r ≤ v → v < (r + 1) * (r + 1) →
    (¬ (1 ≤ n.toNat ∧ n.toNat ≤ s.params.maxW) → exec (.fxSqrt wa n) s = violationOutcome .fxWidth s) ∧
    (1 ≤ n.toNat ∧ n.toNat ≤ s.params.maxW → r ≤ 2 ^ n.toNat - 1 → Presents s ⟨false, n.toNat, r⟩ (exec (.fxSqrt wa n) s)) ∧
    (1 ≤ n.toNat ∧ n.toNat ≤ s.params.maxW → 2 ^ n.toNat - 1 < r → exec (.fxSqrt wa n) s = violationOutcome .fxRange s)

/-- 40_fxu.md R81: an operand outside its declared type raises FX_RANGE, before any check of the result width, on port A of
every operation with an operand and on port B of every operation with two (FX.MAKE's port A is raw: R82). -/
def Obligations.FxOperandOutsideItsTypeRaisesRange : Prop :=
  ∀ (s : State) (sa : Bool) (wa : WidthField) (sb : Bool) (wb n : WidthField), Live s → s.params.Valid → legalWidth s.params.maxW wa = true →
    (fits (portValue s.params.maxW sa s.latch.a) sa wa.toNat = false →
      (∀ i ∈ [Instr.fxWiden sa wa n, .fxNarrow sa wa n, .fxShl sa wa n, .fxShr sa wa n],
        exec i s = violationOutcome .fxRange s) ∧
      (sa = false → ∀ i ∈ [Instr.fxTos wa, .fxSqrt wa n], exec i s = violationOutcome .fxRange s) ∧
      (sa = true → exec (.fxTou wa) s = violationOutcome .fxRange s)) ∧
    (legalWidth s.params.maxW wb = true →
      fits (portValue s.params.maxW sa s.latch.a) sa wa.toNat = false ∨ fits (portValue s.params.maxW sb s.latch.b) sb wb.toNat = false →
      ∀ i ∈ [Instr.fxAdd sa wa sb wb, .fxSub sa wa sb wb, .fxMul sa wa sb wb, .fxDiv sa wa sb wb n],
        exec i s = violationOutcome .fxRange s)

/-- 30_encoding.md R68: a word whose width field is 0 or greater than MAX_W, or whose register number is not defined, raises
ILLEGAL_OP, which changes nothing but FAULT, and is detected in every build (60_exceptions.md R183). -/
def Obligations.IllFormedWordsRaiseIllegalOp : Prop :=
  ∀ (i : Instr) (s : State), Live s → i.wellFormed s.params.maxW = false → exec i s = .next (recordViolation .illegalOp s)

/-- 40_fxu.md R81, R96: no FX operation writes a register, a flag, a pin, the trace or memory: what it changes is the result
port, or it records a violation. -/
def Obligations.FxTouchesNothingButResult : Prop :=
  ∀ (i : Instr) (s t : State), isFx i = true → exec i s = .next t →
    t = { s with result := t.result } ∨ ∃ v, t = recordViolation v s

/-! ### Encoding and the operation port -/

/-- Decoding the request word of any operation gives the operation back, whatever its fields hold (30_encoding.md R60 to
R67). -/
def Obligations.DecodeOfEncode : Prop :=
  ∀ i : Instr, decode (encode i) = .ok i

/-- A word that names an operation is that operation's request word, bit for bit: the fields that must be 0 are read
(30_encoding.md R61 to R68). -/
def Obligations.EncodeOfDecode : Prop :=
  ∀ (w : RequestWord) (i : Instr), decode w = .ok i → encode i = w

/-- Words of 95_test_vectors.md (V1 to V23) decode to the operations they stand for. -/
def Obligations.SpecWordsDecode : Prop :=
  decode 0x00900000 = .ok (.fxMake true 16) ∧ decode 0x06830001 = .ok (.fxShr true 3 1) ∧
  decode 0x07108800 = .ok (.fxAdd false 16 true 8) ∧ decode 0x0A341D19 = .ok (.fxDiv false 52 false 29 25) ∧
  decode 0x12000000 = .ok .tmSetfirst ∧ decode 0x17000000 = .ok .tmGe ∧ decode 0x22050000 = .ok (.spStart 5) ∧
  decode 0x25000001 = .ok (.spGencmd true) ∧ decode 0x30010000 = .ok (.cdCmdcb 1) ∧
  decode 0xF000000B = .ok (.sysRdreg 11)

/-- 30_encoding.md R68: a word with UNIT 4 to 14 names no operation, and every word that names none, issued on the operation
port of an instance that is not halted, raises ILLEGAL_OP and changes nothing else. -/
def Obligations.UnnamedWordsRaiseIllegalOp : Prop :=
  (∀ w : RequestWord, 4 ≤ w.toNat / 2 ^ 28 → w.toNat / 2 ^ 28 ≤ 14 → decode w = .error .reservedUnit) ∧
  ∀ (s : State) (r : Request) (rest : List Input) (e : DecodeError), Live s → s.inputs = .request r :: rest →
    decode r.word = .error e → step s = .next (recordViolation .illegalOp (acceptRequest r rest s))

/-- One step: a request at the head of the schedule whose word names an operation is that operation's meaning in the state with
its ports latched and the request taken (10_state.md R11, R12); a delivery of the interrupt is TM.IRQ; and while ticks pass, or
where nothing is scheduled and no interrupt is due, CORE is idle: only the counter advances (60_exceptions.md R198). The
schedule is the model's, log entries 9 and 10. -/
def Obligations.StepPerformsWhatTheScheduleHolds : Prop :=
  ∀ (s : State) (rest : List Input),
    (∀ (r : Request) (i : Instr), s.inputs = .request r :: rest → decode r.word = .ok i →
      step s = exec i (acceptRequest r rest s)) ∧
    (∀ lag reply, s.inputs = .interrupt lag reply :: rest → step s = exec .tmIrq (acceptInterrupt lag reply rest s)) ∧
    (∀ n, s.inputs = .tick n :: rest →
      step s = .next { s.quiet with cnt := s.cnt + BitVec.ofNat 32 n, inputs := rest }) ∧
    (s.inputs = [] → s.tm.irqEn = false ∨ s.im = true ∨ s.inIrq = true ∨ s.fault.halted = true ∨
        2 ^ 31 ≤ (s.cnt - s.tm.cmp).toNat →
      step s = .next { s.quiet with cnt := s.cnt + 1 })

/-- 30_encoding.md R69: words of kind I, E and O presented on the operation port raise ILLEGAL_OP. -/
def Obligations.CoreOnlyKindsAreIllegalOnThePort : Prop :=
  ∀ (i : Instr) (s : State), Live s → i.kind ≠ .port → s.latch.issuer = .operationPort →
    exec i s = .next (recordViolation .illegalOp s)

/-- 60_exceptions.md R182: a halted instance refuses everything but SYS.RDREG: no state change, no result, no further
violation. -/
def Obligations.HaltedRefusesAllButRegisterReads : Prop :=
  ∀ (i : Instr) (s : State), s.fault.halted = true → (∀ reg, i ≠ .sysRdreg reg) → exec i s = .next s.quiet

/-- 60_exceptions.md R182, 70_reset_and_hazards.md R210: whatever the environment does but RESET, a halted machine goes on
and keeps its registers, its pins, its trace and its fault. -/
def Obligations.HaltedMachineIsLeftOnlyByReset : Prop :=
  ∀ s : State, s.fault.halted = true → s.inputs.head? ≠ some .reset →
    ∃ t, step s = .next t ∧ t.fault = s.fault ∧ t.sp = s.sp ∧ t.tm = s.tm ∧ t.pins = s.pins ∧ t.trace = s.trace ∧
      t.inIrq = s.inIrq ∧ t.params = s.params

/-- 10_state.md R24, 60_exceptions.md R181: after the first violation, with code c, SYS.RDREG 15 reads 1 + 2c where port R holds
that number, and it keeps reading that after a second one. (Where 1 + 2c is 2^MAX_W or more the value shown is free: the model's
choice, log entry 27.) -/
def Obligations.FaultRegisterShowsFirstViolation : Prop :=
  ∀ (v w : Violation) (s : State), Live s → s.params.Valid →
    ShowsRegister (recordViolation v s) 9 (1 + 2 * (violationCode v).toNat) (exec (.sysRdreg 15) (recordViolation v s)) ∧
    recordViolation w (recordViolation v s) = recordViolation v s

/-- 60_exceptions.md R193: SP.INIT, SP.DEINIT, SP.START, SP.STOP and SP.PRESTEP raise SP_CONTEXT in interrupt context, before
any check of life cycle or state (R184). -/
def Obligations.BackgroundOperationsRaiseContext : Prop :=
  ∀ (s : State) (cid : ConsumerId) (flag : Bool), Live s → s.inIrq = true →
    (∀ i ∈ [Instr.spInit, .spDeinit, .spStop, .spPrestep flag], exec i s = violationOutcome .spContext s) ∧
    (portHoldsTime s.params.maxW s.latch.a = true → exec (.spStart cid) s = violationOutcome .spContext s) ∧
    (portHoldsTime s.params.maxW s.latch.a = false → exec (.spStart cid) s = violationOutcome .illegalOp s)

/-- 42_scheduler.md R131 to R133, R138, R139 and the order of 60_exceptions.md R184: the violations of life cycle and state in
background context. Only SP.START reads port A: where it holds no time its word is illegal before any of them (R68). -/
def Obligations.LifeCycleViolations : Prop :=
  ∀ (s : State) (cid : ConsumerId) (flag : Bool), Live s → s.inIrq = false →
    (s.sp.life = true → exec .spInit s = violationOutcome .spLife s) ∧
    (s.sp.life = false → ∀ i ∈ [Instr.spDeinit, .spStop, .spPrestep flag], exec i s = violationOutcome .spLife s) ∧
    (s.sp.life = true → s.sp.running = true →
      exec .spDeinit s = violationOutcome .spDeinitRunning s ∧
      exec (.spPrestep flag) s = violationOutcome .spBusy s) ∧
    (portHoldsTime s.params.maxW s.latch.a = false → exec (.spStart cid) s = violationOutcome .illegalOp s) ∧
    (portHoldsTime s.params.maxW s.latch.a = true →
      (s.sp.life = false → exec (.spStart cid) s = violationOutcome .spLife s) ∧
      (s.sp.life = true → s.sp.running = true → exec (.spStart cid) s = violationOutcome .spAlreadyRunning s) ∧
      (s.sp.life = true → s.sp.running = false → pointer s.params s.latch.ptr = 0 →
        exec (.spStart cid) s = violationOutcome .spNullCommand s))

/-- 60_exceptions.md R183: in a build with ASSERTIONS = false an operation that answers a next state has raised no violation but
ILLEGAL_OP or FX_WIDTH. -/
def Obligations.ReleaseBuildDetectsOnlyCompileTimeErrors : Prop :=
  ∀ (i : Instr) (s t : State), s.params.assertions = false → Live s → exec i s = .next t →
    t.fault = s.fault ∨ t.fault = { halted := true, code := 0x30 } ∨ t.fault = { halted := true, code := 0x04 }

/-! ### TMR -/

/-- 41_timer.md R110: time_ge agrees with the order of the unwrapped times wherever they are less than half the range apart, and
answers false at a difference of exactly half the range, either way. -/
def Obligations.TimeOrderAgreesInHalfRange : Prop :=
  (∀ a b : Int, -(2 ^ 31) < b - a → b - a < 2 ^ 31 →
    (timeGe (BitVec.ofInt 32 b) (BitVec.ofInt 32 a) = true ↔ a ≤ b)) ∧
  ∀ a b : Int, b - a = 2 ^ 31 ∨ b - a = -(2 ^ 31) → timeGe (BitVec.ofInt 32 b) (BitVec.ofInt 32 a) = false

/-- 41_timer.md R111: TM.GE shows 1 where (b - a) mod 2^32 is less than 2^31 and 0 elsewhere, b on port A and a on port B; a port
value that is no time makes the word illegal. -/
def Obligations.GeComparesTimes : Prop :=
  decode 0x17000000 = .ok .tmGe ∧
  ∀ (s : State), Live s → s.params.Valid →
    (∀ b a : Time, PortTime s.params.maxW s.latch.a b → PortTime s.params.maxW s.latch.b a →
      Presents s ⟨false, 1, if (b.toNat + 2 ^ 32 - a.toNat) % 2 ^ 32 < 2 ^ 31 then 1 else 0⟩ (exec .tmGe s)) ∧
    (portHoldsTime s.params.maxW s.latch.a = false ∨ portHoldsTime s.params.maxW s.latch.b = false →
      exec .tmGe s = violationOutcome .illegalOp s)

/-- 41_timer.md R112: TM.GETTIME shows the counter at the moment of the read, after the ticks the environment lets pass, and
changes nothing else. (A time
of 2^MAX_W or more, which port R of an instance with MAX_W < 32 cannot hold, shows a free value: the model's choice, log entry
27.) -/
def Obligations.GettimeReadsTheCounter : Prop :=
  decode 0x16000000 = .ok .tmGettime ∧
  ∀ s : State, Live s → s.params.Valid →
    ShowsRegister (advanceCounter s.latch.lag s) 32 (s.cnt + BitVec.ofNat 32 s.latch.lag).toNat (exec .tmGettime s)

/-- 41_timer.md R113, R114: performed by CORE, TM.INIT acquires the comparator with the interrupt off, and TM.DEINIT releases it
or raises TM_ARMED where it is still armed; nothing else changes (the rule leaves TM_TIME and TM_CMP unspecified: that they are
kept is the model's choice, log entry 5). -/
def Obligations.TimerInitAndDeinit : Prop :=
  ∀ s : State, Live s → s.latch.issuer = .core →
    exec .tmInit s = .next { s.quiet with tm := { s.tm with tlife := true, irqEn := false, armed := false } } ∧
    (s.tm.irqEn = false → exec .tmDeinit s = .next { s.quiet with tm := { s.tm with tlife := false } }) ∧
    (s.tm.irqEn = true → exec .tmDeinit s = violationOutcome .tmArmed s)

/-- 41_timer.md R115: with D = (time - now) mod 2^32, rebase answers now + CLEARANCE for D <= CLEARANCE and for D > 2^31 +
CLEARANCE, and time in between; the answer is always at least CLEARANCE ticks ahead of now. -/
def Obligations.RebaseKeepsTheClearance : Prop :=
  ∀ (c : Nat) (time now : Time), 1 ≤ c → c < 2 ^ 31 →
    ((time - now).toNat ≤ c → rebase c time now = now + BitVec.ofNat 32 c) ∧
    (c < (time - now).toNat → (time - now).toNat ≤ 2 ^ 31 + c → rebase c time now = time) ∧
    (2 ^ 31 + c < (time - now).toNat → rebase c time now = now + BitVec.ofNat 32 c) ∧
    c ≤ (rebase c time now - now).toNat

/-- 41_timer.md R116: performed by CORE on a timer that is not armed, TM.SETFIRST keeps the requested time in TM_TIME, writes the
re-based one to TM_CMP, enables the interrupt and emits Arm; on an armed one it raises TM_ALREADY_ARMED. -/
def Obligations.SetfirstArmsTheTimer : Prop :=
  decode 0x12000000 = .ok .tmSetfirst ∧
  ∀ (s : State) (time now : Time), Live s → s.latch.issuer = .core →
    PortTime s.params.maxW s.latch.a time → now = s.cnt + BitVec.ofNat 32 s.latch.lag →
    (s.tm.irqEn = false → exec .tmSetfirst s = .next { s.quiet with
      cnt := now
      tm := { s.tm with time := time, cmp := rebase s.params.clearance time now, irqEn := true,
                        armed := s.params.assertions }
      trace := s.trace ++ [.arm (rebase s.params.clearance time now)] }) ∧
    (s.tm.irqEn = true → exec .tmSetfirst s = violationOutcome .tmAlreadyArmed s)

/-- 41_timer.md R117: performed by CORE inside the handler of an armed timer, TM.SETNEXT re-programs it as TM.SETFIRST does and
leaves it armed; elsewhere it raises TM_CONTEXT. -/
def Obligations.SetnextReprogramsTheTimer : Prop :=
  decode 0x13000000 = .ok .tmSetnext ∧
  ∀ (s : State) (time now : Time), Live s → s.latch.issuer = .core →
    PortTime s.params.maxW s.latch.a time → now = s.cnt + BitVec.ofNat 32 s.latch.lag →
    (s.inIrq = true ∧ s.tm.irqEn = true ∧ s.tm.armed = s.params.assertions → exec .tmSetnext s = .next { s.quiet with
      cnt := now
      tm := { s.tm with time := time, cmp := rebase s.params.clearance time now }
      trace := s.trace ++ [.arm (rebase s.params.clearance time now)] }) ∧
    (¬ (s.inIrq = true ∧ s.tm.irqEn = true) → exec .tmSetnext s = violationOutcome .tmContext s)

/-- 41_timer.md R118: performed by CORE in any state of the timer, TM.UNSET disables the interrupt, keeps TM_TIME and TM_CMP, and
emits Disarm. -/
def Obligations.UnsetDisarmsTheTimer : Prop :=
  decode 0x14000000 = .ok .tmUnset ∧
  ∀ s : State, Live s → s.latch.issuer = .core →
    exec .tmUnset s = .next { s.quiet with
      tm := { s.tm with irqEn := false, armed := false }
      trace := s.trace ++ [.disarm] }

/-! ### The interrupt -/

/-- 41_timer.md R119, 60_exceptions.md R187: TM.IRQ changes nothing before the requested time has arrived. Where it may not start
(IRQ_EN = 0, IM = 1, IN_IRQ = 1 or HALTED = 1) the rules say only that it does not: that performing it there changes nothing is
the model's choice, log entry 17. -/
def Obligations.InterruptOutOfTurnChangesNothing : Prop :=
  ∀ s : State, s.latch.issuer = .core →
    s.tm.irqEn = false ∨ s.im = true ∨ s.inIrq = true ∨ s.fault.halted = true ∨ 2 ^ 31 ≤ (s.cnt - s.tm.time).toNat →
    exec .tmIrq s = .next s.quiet

/-- 41_timer.md R119, 60_exceptions.md R190, R191: past its time check TM.IRQ performs SP.STEP with IN_IRQ = 1; where the run goes
on it leaves with IN_IRQ = 0, where the run has ended it disarms the timer first, and where SP.STEP raised a violation it
stays inside the handler. -/
def Obligations.InterruptRunsTheHandlerAndReturns : Prop :=
  ∀ s u : State, s.latch.issuer = .core → interruptMayStart s = true → (s.cnt - s.tm.time).toNat < 2 ^ 31 →
    exec .spStep { s with inIrq := true } = .next u →
    (u.fault.halted = true → exec .tmIrq s = .next u) ∧
    (u.fault.halted = false → u.sp.running = true → exec .tmIrq s = .next { u with inIrq := false }) ∧
    (u.fault.halted = false → u.sp.running = false → exec .tmIrq s = .next { u with
      inIrq := false
      tm := { u.tm with irqEn := false, armed := false }
      trace := u.trace ++ [.disarm] })

/-! ### SPS -/

/-- 42_scheduler.md R131: in background context SP.INIT takes Uninitialised to Stopped, the guard off, the comparator acquired and
disarmed; every other register and the DIR pin keep what they have (the rule and 10_state.md R29 leave them unspecified: that they
are kept is the model's choice, log entry 5). -/
def Obligations.SpInitEntersStopped : Prop :=
  ∀ s : State, Live s → s.inIrq = false → s.sp.life = false →
    exec .spInit s = .next { s.quiet with
      sp := { s.sp with life := true, running := false, prestepEn := false }
      tm := { s.tm with tlife := true, irqEn := false, armed := false } }

/-- 42_scheduler.md R132: SP.DEINIT takes Stopped to Uninitialised; LIFE, RUNNING, IRQ_EN and TLIFE are 0 afterwards, and only the
scheduler and timer registers change (which value an unspecified register has is not stated: it is free, log entries 5, 19 and
30). -/
def Obligations.SpDeinitEntersUninitialised : Prop :=
  ∀ s : State, Live s → s.inIrq = false → s.sp.life = true → s.sp.running = false →
    (s.tm.irqEn = false → ∃ t, exec .spDeinit s = .next t ∧
      t.sp.life = false ∧ t.sp.running = false ∧ t.tm.irqEn = false ∧ t.tm.tlife = false ∧
      t = { s.quiet with sp := t.sp, tm := t.tm, freeCount := t.freeCount }) ∧
    (s.tm.irqEn = true → exec .spDeinit s = violationOutcome .tmArmed s)

/-- 42_scheduler.md R133: in Stopped SP.PRESTEP writes the guard's enable flag and nothing else; elsewhere it raises SP_CONTEXT,
SP_LIFE or SP_BUSY, in that order. -/
def Obligations.PrestepWritesTheEnable : Prop :=
  (∀ flag, decode (encodeS 0x26 0 flag) = .ok (.spPrestep flag)) ∧
  ∀ (s : State) (flag : Bool), Live s →
    (s.inIrq = true → exec (.spPrestep flag) s = violationOutcome .spContext s) ∧
    (s.inIrq = false → s.sp.life = false → exec (.spPrestep flag) s = violationOutcome .spLife s) ∧
    (s.inIrq = false → s.sp.life = true → s.sp.running = true → exec (.spPrestep flag) s = violationOutcome .spBusy s) ∧
    (s.inIrq = false → s.sp.life = true → s.sp.running = false →
      exec (.spPrestep flag) s = .next { s.quiet with sp := { s.sp with prestepEn := flag } })

/-- 42_scheduler.md R134: SP.GENCMD writes the four fields of the record at PTR from x, t, a and the direction, and changes no
register and no other record; into a record CORE owns it leaves arbitrary fields (93_implementation_defined.md U5, log entry
8). -/
def Obligations.GencmdBuildsTheRecord : Prop :=
  ∀ (s : State) (dir : Bool) (x t : Nat) (a : Int) (q : Nat), Live s → Memory.wf s.params s.mem →
    portValue s.params.maxW false s.latch.a = x → portValue s.params.maxW false s.latch.b = t →
    portValue s.params.maxW true s.latch.c = a → q = pointer s.params s.latch.ptr → q ≠ 0 →
    x < 2 ^ s.params.stepBits → t < 2 ^ s.params.tmulBits → -(x : Int) ≤ a → a ≤ x →
    ∃ u, exec (.spGencmd dir) s = .next u ∧ u = { s.quiet with mem := u.mem } ∧ Memory.wf s.params u.mem ∧
      (∀ p, p ≠ q → memRecord u.mem p = memRecord s.mem p) ∧
      (owns s q = true → memRecord u.mem q = none) ∧
      (owns s q = false → memRecord u.mem q = some {
        dirx := (x : Int) + (if dir then 2 ^ s.params.stepBits else 0) + (if 0 ≤ a then 2 ^ (s.params.stepBits + 1) else 0)
        tmul := t
        amul := 4 * a * 2 ^ (2 * s.params.discPrec)
        disc := ((x - a) * 2 ^ s.params.discPrec) ^ 2 })

/-- 42_scheduler.md R134: SP.GENCMD raises FX_RANGE for an operand outside its type, else SP_NULL_COMMAND for the null pointer,
else SP_ACCEL_RANGE unless -x <= a <= x, and writes nothing. -/
def Obligations.GencmdChecksItsOperands : Prop :=
  ∀ (s : State) (dir ok : Bool) (x t a : Int), Live s → portValue s.params.maxW false s.latch.a = x →
    portValue s.params.maxW false s.latch.b = t → portValue s.params.maxW true s.latch.c = a →
    (ok = true ↔ x < 2 ^ s.params.stepBits ∧ t < 2 ^ s.params.tmulBits ∧ a.natAbs < 2 ^ s.params.stepBits) →
    (ok = false → exec (.spGencmd dir) s = violationOutcome .fxRange s) ∧
    (ok = true → pointer s.params s.latch.ptr = 0 → exec (.spGencmd dir) s = violationOutcome .spNullCommand s) ∧
    (ok = true → pointer s.params s.latch.ptr ≠ 0 → x < a.natAbs →
      exec (.spGencmd dir) s = violationOutcome .spAccelRange s)

/-- 42_scheduler.md R136, R138: in Stopped SP.START of a fresh record records the consumer and the Command, sets the direction, and
arms the timer for the first event: the first pulse, or the end time of a zero-step Command. It raises nothing, but for a
Command with steps on an instance whose MAX_W is one bit short of EVAL's first sum: there FX_WIDTH, before the timer is armed
(40_fxu.md R81, R96, log entry 29). (What a CID too wide for SP_CONSUMER leaves there is not stated: it is free, log entry
28.) -/
def Obligations.StartLoadsTheFirstCommand : Prop :=
  ∀ (s : State) (cid : ConsumerId) (x t : Nat) (a : Int) (dir : Bool) (q : Nat) (time : Time), Live s → s.params.Valid →
    s.inIrq = false → s.sp.life = true → s.sp.running = false → s.tm.irqEn = false →
    PortTime s.params.maxW s.latch.a time → q = pointer s.params s.latch.ptr → q ≠ 0 →
    RecordAfter s.params s.mem q x t a dir 0 →
    (x = 0 ∨ evalWidth s.params ≤ s.params.maxW →
      ∃ u, exec (.spStart cid) s = .next u ∧ u.sp.consumer < 2 ^ s.params.cidBits ∧
        (cid.toNat < 2 ^ s.params.cidBits → u.sp.consumer = cid.toNat ∧ u.freeCount = s.freeCount) ∧
        Loaded s u q x t a dir time) ∧
    (x ≠ 0 → s.params.maxW < evalWidth s.params →
      ∃ u, exec (.spStart cid) s = .next (recordViolation .fxWidth u) ∧ u.fault = s.fault ∧ u.tm = s.tm ∧ u.mem = s.mem ∧
        u.sp.cmdPtr = q ∧ u.sp.running = true ∧ u.trace = s.trace ++ [.dirSet dir])

/-- 42_scheduler.md R139: SP.STOP disarms the timer and clears RUNNING in Stopped and in Running; no other register, no Command field
and no pin changes, and CORE owns no record any more; elsewhere it raises SP_CONTEXT or SP_LIFE. -/
def Obligations.StopEndsTheRun : Prop :=
  decode 0x23000000 = .ok .spStop ∧
  ∀ s : State, Live s →
    (s.inIrq = true → exec .spStop s = violationOutcome .spContext s) ∧
    (s.inIrq = false → s.sp.life = false → exec .spStop s = violationOutcome .spLife s) ∧
    (s.inIrq = false → s.sp.life = true → exec .spStop s = .next { s.quiet with
      sp := { s.sp with running := false }
      tm := { s.tm with irqEn := false, armed := false }
      trace := s.trace ++ [.disarm] } ∧
      ∀ p, owns { s with sp := { s.sp with running := false } } p = false)

/-- 42_scheduler.md R140, R143: a fetch interrupt whose consumer answers stop ends the run without a pulse; TM.IRQ then disarms the
timer. -/
def Obligations.FetchStopEndsTheRun : Prop :=
  ∀ (s : State) (abort : Bool), Live s → s.latch.issuer = .core → s.sp.running = true → s.sp.notEnded = false →
    s.latch.reply = some ⟨[], true, .stop, abort⟩ →
    exec .spStep s = .next { s.quiet with
      sp := { s.sp with running := false }
      trace := s.trace ++ [.cmdCb (route s.params.numConsumers s.sp.consumer) s.sp.cmdPtr .stop] } ∧
    (s.tm.irqEn = true → s.im = false → s.inIrq = false → (s.cnt - s.tm.time).toNat < 2 ^ 31 →
      exec .tmIrq s = .next { s.quiet with
        sp := { s.sp with running := false }
        tm := { s.tm with irqEn := false, armed := false }
        trace := s.trace ++ [.cmdCb (route s.params.numConsumers s.sp.consumer) s.sp.cmdPtr .stop, .disarm] })

/-- 42_scheduler.md R140, 43_dispatch.md R162: a fetch interrupt whose consumer answers continue loads the Command it answers, whose
segment begins where the old one ended (SP_TIME), and emits no pulse; a null pointer raises SP_NULL_COMMAND, and a Command with
steps raises FX_WIDTH on an instance whose MAX_W is one bit short of EVAL's first sum (40_fxu.md R81, R96, log entry 29). -/
def Obligations.FetchContinueLoadsTheNextCommand : Prop :=
  ∀ (s : State) (abort : Bool) (slot p : Nat), Live s → s.params.Valid → s.latch.issuer = .core → s.sp.running = true →
    s.sp.notEnded = false → s.latch.reply = some ⟨[], true, .proceed slot, abort⟩ → p = pointer s.params slot →
    (p = 0 → exec .spStep s = violationOutcome .spNullCommand { s with
      trace := s.trace ++ [.cmdCb (route s.params.numConsumers s.sp.consumer) s.sp.cmdPtr (.proceed p)] }) ∧
    (∀ (x t : Nat) (a : Int) (dir : Bool), p ≠ 0 → s.inIrq = true → s.tm.irqEn = true →
      RecordAfter s.params s.mem p x t a dir 0 →
      (x = 0 ∨ evalWidth s.params ≤ s.params.maxW →
        ∃ u, exec .spStep s = .next u ∧ u.sp.consumer = s.sp.consumer ∧ u.freeCount = s.freeCount ∧
          Loaded { s with
            trace := s.trace ++ [.cmdCb (route s.params.numConsumers s.sp.consumer) s.sp.cmdPtr (.proceed p)] }
            u p x t a dir s.sp.time) ∧
      (x ≠ 0 → s.params.maxW < evalWidth s.params →
        ∃ u, exec .spStep s = .next (recordViolation .fxWidth u) ∧ u.fault = s.fault ∧ u.tm = s.tm ∧ u.mem = s.mem ∧
          u.sp.cmdPtr = p ∧ u.sp.running = true ∧ u.trace = s.trace ++
            [.cmdCb (route s.params.numConsumers s.sp.consumer) s.sp.cmdPtr (.proceed p), .dirSet dir]))

/-- 42_scheduler.md R140, 43_dispatch.md R163: a pulse interrupt whose guard answers abort ends the run without pulsing, and one
whose guard answers proceed does what it does without a guard. -/
def Obligations.GuardAbortEndsTheRun : Prop :=
  ∀ (s : State) (next : CmdAnswer), Live s → s.latch.issuer = .core → s.sp.running = true → s.sp.notEnded = true →
    s.sp.prestepEn = true →
    (s.latch.reply = some ⟨[], true, next, true⟩ →
      exec .spStep s = .next { s.quiet with
        sp := { s.sp with running := false }
        trace := s.trace ++ [.preCb (route s.params.numConsumers s.sp.consumer) true] }) ∧
    (s.latch.reply = some ⟨[], true, next, false⟩ → ∀ u,
      exec .spStep { s with
        sp := { s.sp with prestepEn := false }
        trace := s.trace ++ [.preCb (route s.params.numConsumers s.sp.consumer) false] } = .next u →
      exec .spStep s = .next { u with sp := { u.sp with prestepEn := true } })

/-- 42_scheduler.md R137, R140, R144: a pulse interrupt before the boundary of a segment emits one pulse, moves SP_POS one step, adds
AMUL to DISC, and re-programs the timer for the next pulse of the same segment at the closed form's offset; the pulse after it is
requested exactly at the segment's end if it is the last. It raises nothing, but on an instance whose MAX_W is one bit short of
EVAL's first sum: there FX_WIDTH, past the pulse (40_fxu.md R81, R96, log entry 29). -/
def Obligations.PulseAdvancesTheSegment : Prop :=
  ∀ (s : State) (x t : Nat) (a : Int) (dir : Bool) (b : Time) (k pos : Nat), Live s → s.params.Valid → s.latch.issuer = .core →
    s.inIrq = true → s.tm.irqEn = true → s.tm.armed = s.params.assertions → s.sp.prestepEn = false →
    SegmentAt s x t a dir b k → k < x → pos = (if 0 ≤ a then k + 1 else x - (k + 1)) →
    (s.params.maxW < evalWidth s.params → exec .spStep s = .next (recordViolation .fxWidth { s.quiet with
      sp := { s.sp with pos := pos }
      pins := { s.pins with step := false }
      trace := s.trace ++ [.pulseOn, .pulseOff] })) ∧
    (evalWidth s.params ≤ s.params.maxW → ∃ (u : State) (time : Time), exec .spStep s = .next u ∧ SegmentAt u x t a dir b (k + 1) ∧
      (time = if 0 ≤ a then s.sp.time + BitVec.ofNat 32 (evalOffset s.params s.sp.v0 pos t (discAt s.params x a pos))
        else s.sp.time - BitVec.ofNat 32 (evalOffset s.params s.sp.v0 pos t (discAt s.params x a pos))) ∧
      (k + 1 = x → time = b + BitVec.ofNat 32 t) ∧
      u = { s.quiet with
        cnt := s.cnt + BitVec.ofNat 32 s.latch.lag
        sp := { s.sp with pos := pos }
        tm := { s.tm with time := time,
                          cmp := rebase s.params.clearance time (s.cnt + BitVec.ofNat 32 s.latch.lag) }
        pins := { s.pins with step := false }
        trace := s.trace ++ [.pulseOn, .pulseOff,
          .arm (rebase s.params.clearance time (s.cnt + BitVec.ofNat 32 s.latch.lag))]
        mem := memSet s.mem s.sp.cmdPtr .disc (discOf s.params x a + ((k + 1 : Nat) : Int) * amulOf s.params a) })

/-- 42_scheduler.md R140: the boundary pulse of a segment is emitted, ends the segment, makes SP_TIME its end time and requests the
fetch at that time; it evaluates nothing and writes no Command field. -/
def Obligations.BoundaryPulseEndsTheSegment : Prop :=
  ∀ (s : State) (x t : Nat) (a : Int) (dir : Bool) (b now : Time), Live s → s.latch.issuer = .core →
    s.inIrq = true → s.tm.irqEn = true → s.tm.armed = s.params.assertions → s.sp.prestepEn = false →
    SegmentAt s x t a dir b x → now = s.cnt + BitVec.ofNat 32 s.latch.lag →
    exec .spStep s = .next { s.quiet with
      cnt := now
      sp := { s.sp with notEnded := false, time := b + BitVec.ofNat 32 t }
      tm := { s.tm with time := b + BitVec.ofNat 32 t, cmp := rebase s.params.clearance (b + BitVec.ofNat 32 t) now }
      pins := { s.pins with step := false }
      trace := s.trace ++ [.pulseOn, .pulseOff, .arm (rebase s.params.clearance (b + BitVec.ofNat 32 t) now)] }

/-- 42_scheduler.md R137, 40_fxu.md R96: EVAL raises FX_WIDTH where its first sum's type is wider than MAX_W (R81, log entry 29), then
SP_DISC_NEGATIVE where the new discriminant is negative, answers 0 for a pulse on the boundary itself, and is elsewhere the chain
of FX operations the rule names, with their types: it answers the chain's value or raises the chain's violation. -/
def Obligations.EvalIsTheFxChain : Prop :=
  ∀ (s : State) (q : Nat) (disc amul tmul : Int), s.params.Valid → RegistersInRange s → Memory.wf s.params s.mem →
    memGet s.mem q .disc = some disc → memGet s.mem q .amul = some amul → memGet s.mem q .tmul = some tmul →
    (s.params.maxW < evalWidth s.params → evalSegment q s = (raise .fxWidth : Op Nat) s) ∧
    (evalWidth s.params ≤ s.params.maxW → disc + amul < 0 → evalSegment q s = (raise .spDiscNegative : Op Nat) s) ∧
    (evalWidth s.params ≤ s.params.maxW → 0 ≤ disc + amul → s.sp.pos = 0 →
      evalSegment q s = if disc + amul ≤ 2 ^ (2 * s.params.stepBits + 2 + 2 * s.params.discPrec) - 1 then
          .ok 0 { s with mem := memSet s.mem q .disc (disc + amul) }
        else (raise .fxRange : Op Nat) s) ∧
    (0 ≤ disc + amul → s.sp.pos ≠ 0 →
    match fxEvalChain s.params disc amul s.sp.v0 s.sp.pos tmul with
    | .ok r => evalSegment q s = .ok r.val.toNat { s with mem := memSet s.mem q .disc (disc + amul) } ∧
        r.signed = false ∧ r.width = s.params.tmulBits + 1 ∧ 0 ≤ r.val
    | .error v => ∃ u, evalSegment q s = (raise v : Op Nat) u ∧
        (u = s ∨ u = { s with mem := memSet s.mem q .disc (disc + amul) }))

/-- 42_scheduler.md R142, R144: for every Command, at every precision, the offset of a later position is not smaller than that of an
earlier one, and the offset of the boundary is exactly the duration. The spec measures this, it does not prove it. -/
def Obligations.PulseOffsetsNeverDecrease : Prop :=
  ∀ (pr : Params) (x t p : Nat) (a : Int), 1 ≤ x → a.natAbs ≤ x → p < x →
    evalOffset pr ((x - a.natAbs) * 2 ^ pr.discPrec) p t (discAt pr x a p) ≤
      evalOffset pr ((x - a.natAbs) * 2 ^ pr.discPrec) (p + 1) t (discAt pr x a (p + 1)) ∧
    evalOffset pr ((x - a.natAbs) * 2 ^ pr.discPrec) x t (discAt pr x a x) = t

/-! ### CDX -/

/-- 43_dispatch.md R161: ids below C - 1 select their own consumer, every other id the last registered one. -/
def Obligations.RouteCatchesAllOtherIds : Prop :=
  ∀ c id : Nat, 1 ≤ c → (id < c - 1 → route c id = id) ∧ (c - 1 ≤ id → route c id = c - 1)

/-- 43_dispatch.md R162, R163: issued by CORE, CD.CMDCB and CD.PRECB append the transaction with the consumer's answer to the trace and
change nothing else. The rules issue them with IDX = route(SP_CONSUMER); that any IDX of the word is used as it stands is the
model's choice, log entry 21. A consumer whose reply the environment does not give answers freely (log entry 24); one that never
returns leaves the machine stuck (93_implementation_defined.md U7, log entry 15). -/
def Obligations.CallbacksAskTheConsumer : Prop :=
  ∀ (s : State) (idx : ConsumerId) (next : CmdAnswer) (abort : Bool), Live s → s.latch.issuer = .core →
    (s.latch.reply = some ⟨[], true, next, abort⟩ →
      exec (.cdCmdcb idx) s = .next { s.quiet with
        trace := s.trace ++ [.cmdCb idx.toNat (pointer s.params s.latch.ptr) (slotAnswer s.params next)] } ∧
      exec (.cdPrecb idx) s = .next { s.quiet with trace := s.trace ++ [.preCb idx.toNat abort] }) ∧
    (s.latch.reply = none →
      (∃ ans n, slotAnswer s.params ans = ans ∧ exec (.cdCmdcb idx) s = .next { s.quiet with
        trace := s.trace ++ [.cmdCb idx.toNat (pointer s.params s.latch.ptr) ans], freeCount := n }) ∧
      (∃ ans n, exec (.cdPrecb idx) s =
        .next { s.quiet with trace := s.trace ++ [.preCb idx.toNat ans], freeCount := n })) ∧
    (s.latch.reply = some ⟨[], false, next, abort⟩ →
      exec (.cdCmdcb idx) s = .fault .callbackNeverReturned ∧ exec (.cdPrecb idx) s = .fault .callbackNeverReturned)

/-- 43_dispatch.md R164, 60_exceptions.md R193: a consumer that issues SP.INIT, SP.DEINIT, SP.STOP, SP.PRESTEP or SP.START on its own
axis from inside a callback raises SP_CONTEXT, and the transaction never completes. (SP.START with no time on port A is an
illegal word first, 30_encoding.md R68.) -/
def Obligations.CallbacksMayNotDriveTheirAxis : Prop :=
  ∀ (s : State) (idx : ConsumerId) (r : Request) (rest : List CallbackAction) (returns : Bool) (next : CmdAnswer)
    (abort : Bool) (i : Instr), Live s → s.latch.issuer = .core → s.inIrq = true →
    s.latch.reply = some ⟨.operate r :: rest, returns, next, abort⟩ → decode r.word = .ok i →
    (i = .spInit ∨ i = .spDeinit ∨ i = .spStop ∨ (∃ flag, i = .spPrestep flag) ∨
        ((∃ cid, i = .spStart cid) ∧ portHoldsTime s.params.maxW r.a = true) →
      exec (.cdCmdcb idx) s = violationOutcome .spContext { s with latch := latchOf r } ∧
      exec (.cdPrecb idx) s = violationOutcome .spContext { s with latch := latchOf r }) ∧
    ((∃ cid, i = .spStart cid) ∧ portHoldsTime s.params.maxW r.a = false →
      exec (.cdCmdcb idx) s = violationOutcome .illegalOp { s with latch := latchOf r } ∧
      exec (.cdPrecb idx) s = violationOutcome .illegalOp { s with latch := latchOf r })

/-! ### SYS -/

/-- 44_system.md R170: SYS.RDREG shows each register with its width, halted or not, and writes no state; an undefined register number
raises ILLEGAL_OP. Register 11 is the counter at the moment of the read. (A value of 2^MAX_W or more, which R5 lets a register hold,
shows a free value, and a width above 127 its lower 7 bits on RT: the model's choice, log entry 27.) -/
def Obligations.RdregShowsTheRegisters : Prop :=
  (∀ reg : BitVec 8, decode (0xF0#8 ++ 0#16 ++ reg) = .ok (.sysRdreg reg)) ∧
  (∀ s : State, s.params.Valid → RegistersInRange s →
    ShowsRegister s 5 (s.sp.running.toNat + 2 * s.sp.notEnded.toNat + 4 * s.sp.notDecel.toNat +
      8 * s.sp.prestepEn.toNat + 16 * s.sp.life.toNat) (exec (.sysRdreg 0) s) ∧
    ShowsRegister s s.params.ptrBits s.sp.cmdPtr (exec (.sysRdreg 1) s) ∧
    ShowsRegister s s.params.stepBits s.sp.pos (exec (.sysRdreg 2) s) ∧
    ShowsRegister s 32 s.sp.time.toNat (exec (.sysRdreg 3) s) ∧
    ShowsRegister s (s.params.stepBits + s.params.discPrec) s.sp.v0 (exec (.sysRdreg 4) s) ∧
    ShowsRegister s s.params.cidBits s.sp.consumer (exec (.sysRdreg 5) s) ∧
    ShowsRegister s 32 s.tm.time.toNat (exec (.sysRdreg 8) s) ∧
    ShowsRegister s 32 s.tm.cmp.toNat (exec (.sysRdreg 9) s) ∧
    ShowsRegister s 3 ((s.tm.armed && s.params.assertions).toNat + 2 * s.tm.irqEn.toNat + 4 * s.tm.tlife.toNat)
      (exec (.sysRdreg 10) s) ∧
    ShowsRegister (advanceCounter s.latch.lag s) 32 (s.cnt + BitVec.ofNat 32 s.latch.lag).toNat (exec (.sysRdreg 11) s) ∧
    ShowsRegister s 9 (s.fault.halted.toNat + 2 * s.fault.code.toNat) (exec (.sysRdreg 15) s)) ∧
  ∀ (s : State) (reg : BitVec 8), reg.toNat ∉ [0, 1, 2, 3, 4, 5, 8, 9, 10, 11, 15] →
    exec (.sysRdreg reg) s = .next (recordViolation .illegalOp s)

/-! ### Reset, the environment, the invariant -/

/-- 10_state.md R29, 70_reset_and_hazards.md R210: the first state holds what R29 gives, and RESET, at any time and in any
state, gives every field of R29 its value and touches neither the Command memory, nor the counter, nor the parameters. -/
def Obligations.ResetGivesTheStatedValues : Prop :=
  (∀ (p : Params) (s : State), s = State.resetOf p → s.params = p ∧ s.sp.life = false ∧ s.sp.running = false ∧
    s.sp.prestepEn = false ∧ tmCtrlWord s.params s.tm = 0 ∧ faultWord s.fault = 0 ∧ s.pins.step = false ∧ s.im = false ∧
    s.inIrq = false ∧ s.trace = []) ∧
  ∀ (s : State) (rest : List Input), s.inputs = .reset :: rest →
    ∃ t, step s = .next t ∧ t.sp.life = false ∧ t.sp.running = false ∧ t.sp.prestepEn = false ∧ t.tm.armed = false ∧
      t.tm.irqEn = false ∧ t.tm.tlife = false ∧ t.fault = { halted := false, code := 0 } ∧ t.pins.step = false ∧
      t.im = false ∧ t.inIrq = false ∧ t.trace = [] ∧ t.mem = s.mem ∧ t.cnt = s.cnt ∧ t.params = s.params ∧
      t.inputs = rest

/-- 20_memory.md R44, R48, 93_implementation_defined.md U3, U5: a record a producer fills reads as filled where CORE does not own it
and is not filled where CORE does; no other record and no register changes. A record with a value outside its field's type is not
filled (log entry 25), and no write of one field fills it. -/
def Obligations.ProducerFillsRecordsItOwns : Prop :=
  (∀ (s : State) (p q : Nat) (r : CommandRecord) (rest : List Input), s.inputs = .fill p r :: rest →
    q = pointer s.params p → q ≠ 0 → Memory.wf s.params s.mem →
    ∃ t, step s = .next t ∧ t = { s.quiet with mem := t.mem, inputs := rest } ∧ Memory.wf s.params t.mem ∧
      (∀ p', p' ≠ q → memRecord t.mem p' = memRecord s.mem p') ∧
      (owns s q = true ∨ recordFits s.params r = false → memRecord t.mem q = none) ∧
      (owns s q = false → recordFits s.params r = true → memRecord t.mem q = some r)) ∧
  ∀ (m : Memory) (q p : Nat) (f : Field) (v : Int), memRecord m q = none → memRecord (memSet m p f v) q = none

/-- An instance with any parameters R5 admits meets the invariant right after reset (10_state.md R26, R29, 00_scope.md R5). The
registers R29 calls unspecified are 0 there: that value is the model's choice, log entry 3. -/
def Obligations.ResetMeetsTheInvariant : Prop :=
  (∀ p : Params, p.Valid → Inv (State.resetOf p)) ∧ defaultParams.Valid ∧ State.reset = State.resetOf defaultParams

/-- 10_state.md R26, R27: every step keeps the invariant: RUNNING and IRQ_EN agree between operations, a run has a life and a Command,
the compare register is never behind the requested time, FAULT holds a code exactly when halted, STEP is low, every register
holds a value of its width (R15, R16, R18, R19), the memory is canonical. -/
def Obligations.StepKeepsTheInvariant : Prop :=
  ∀ s t : State, Inv s → step s = .next t → Inv t

/-- 60_exceptions.md R181, 41_timer.md R114, 42_scheduler.md R140: in a machine that meets the invariant no step raises
TM_ALREADY_ARMED, TM_CONTEXT, TM_ARMED or SP_NOT_RUNNING. -/
def Obligations.InnerViolationsAreUnreachable : Prop :=
  ∀ s t : State, Inv s → Live s → step s = .next t →
    t.fault.code ≠ 0x10 ∧ t.fault.code ≠ 0x11 ∧ t.fault.code ≠ 0x12 ∧ t.fault.code ≠ 0x26

/-- 10_state.md R13, R19, R20, R21: the operations those rules name are the only writers of PRESTEP_EN, of SP_CONSUMER, and of
TM_TIME and TM_CMP, over all operations, in interrupt context for those that call a consumer; but that SP.DEINIT leaves each of
them unspecified (42_scheduler.md R132, log entries 5 and 19). That SP.INIT and TM.INIT, after which 41_timer.md R113 leaves
TM_TIME and TM_CMP unspecified, keep them is the model's choice, log entry 5. -/
def Obligations.RegistersChangeOnlyByTheirWriters : Prop :=
  ∀ (i : Instr) (s t : State), exec i s = .next t →
    (i = .spStep ∨ (∃ idx, i = .cdCmdcb idx) ∨ (∃ idx, i = .cdPrecb idx) → s.inIrq = true) →
    ((i ≠ .spInit ∧ i ≠ .spDeinit ∧ ∀ flag, i ≠ .spPrestep flag) → t.sp.prestepEn = s.sp.prestepEn) ∧
    ((i ≠ .spDeinit ∧ ∀ cid, i ≠ .spStart cid) → t.sp.consumer = s.sp.consumer) ∧
    ((i ≠ .spDeinit ∧ i ≠ .tmSetfirst ∧ i ≠ .tmSetnext ∧ i ≠ .tmIrq ∧ i ≠ .spStep ∧ ∀ cid, i ≠ .spStart cid) →
      t.tm.time = s.tm.time ∧ t.tm.cmp = s.tm.cmp) ∧
    t.params = s.params
end

