-- ==== Sys2Proof/Laws/State.lean ====
section
/-! SUPPORT. One lemma per field and named update of State, so that no later proof unfolds an update. -/

namespace Sys2Proof
namespace Machine

/-! ### Nothing on R and RT -/

@[simp] theorem quiet_params (s : State) : (s.quiet).params = s.params := rfl
@[simp] theorem quiet_sp (s : State) : (s.quiet).sp = s.sp := rfl
@[simp] theorem quiet_tm (s : State) : (s.quiet).tm = s.tm := rfl
@[simp] theorem quiet_cnt (s : State) : (s.quiet).cnt = s.cnt := rfl
@[simp] theorem quiet_fault (s : State) : (s.quiet).fault = s.fault := rfl
@[simp] theorem quiet_pins (s : State) : (s.quiet).pins = s.pins := rfl
@[simp] theorem quiet_trace (s : State) : (s.quiet).trace = s.trace := rfl
@[simp] theorem quiet_im (s : State) : (s.quiet).im = s.im := rfl
@[simp] theorem quiet_inIrq (s : State) : (s.quiet).inIrq = s.inIrq := rfl
@[simp] theorem quiet_mem (s : State) : (s.quiet).mem = s.mem := rfl
@[simp] theorem quiet_latch (s : State) : (s.quiet).latch = s.latch := rfl
@[simp] theorem quiet_result (s : State) : (s.quiet).result = none := rfl
@[simp] theorem quiet_inputs (s : State) : (s.quiet).inputs = s.inputs := rfl
@[simp] theorem quiet_freeCount (s : State) : (s.quiet).freeCount = s.freeCount := rfl

/-! ### A value on R and RT -/

@[simp] theorem shows_params (s : State) (b : Bounded) : (s.shows b).params = s.params := rfl
@[simp] theorem shows_sp (s : State) (b : Bounded) : (s.shows b).sp = s.sp := rfl
@[simp] theorem shows_tm (s : State) (b : Bounded) : (s.shows b).tm = s.tm := rfl
@[simp] theorem shows_cnt (s : State) (b : Bounded) : (s.shows b).cnt = s.cnt := rfl
@[simp] theorem shows_fault (s : State) (b : Bounded) : (s.shows b).fault = s.fault := rfl
@[simp] theorem shows_pins (s : State) (b : Bounded) : (s.shows b).pins = s.pins := rfl
@[simp] theorem shows_trace (s : State) (b : Bounded) : (s.shows b).trace = s.trace := rfl
@[simp] theorem shows_im (s : State) (b : Bounded) : (s.shows b).im = s.im := rfl
@[simp] theorem shows_inIrq (s : State) (b : Bounded) : (s.shows b).inIrq = s.inIrq := rfl
@[simp] theorem shows_mem (s : State) (b : Bounded) : (s.shows b).mem = s.mem := rfl
@[simp] theorem shows_latch (s : State) (b : Bounded) : (s.shows b).latch = s.latch := rfl
@[simp] theorem shows_result (s : State) (b : Bounded) : (s.shows b).result = some (presented b) := rfl
@[simp] theorem shows_inputs (s : State) (b : Bounded) : (s.shows b).inputs = s.inputs := rfl
@[simp] theorem shows_freeCount (s : State) (b : Bounded) : (s.shows b).freeCount = s.freeCount := rfl

/-! ### A recorded violation -/

@[simp] theorem recordViolation_params (v : Violation) (s : State) : (recordViolation v s).params = s.params := rfl
@[simp] theorem recordViolation_sp (v : Violation) (s : State) : (recordViolation v s).sp = s.sp := rfl
@[simp] theorem recordViolation_tm (v : Violation) (s : State) : (recordViolation v s).tm = s.tm := rfl
@[simp] theorem recordViolation_cnt (v : Violation) (s : State) : (recordViolation v s).cnt = s.cnt := rfl
@[simp] theorem recordViolation_pins (v : Violation) (s : State) : (recordViolation v s).pins = s.pins := rfl
@[simp] theorem recordViolation_trace (v : Violation) (s : State) : (recordViolation v s).trace = s.trace := rfl
@[simp] theorem recordViolation_im (v : Violation) (s : State) : (recordViolation v s).im = s.im := rfl
@[simp] theorem recordViolation_inIrq (v : Violation) (s : State) : (recordViolation v s).inIrq = s.inIrq := rfl
@[simp] theorem recordViolation_mem (v : Violation) (s : State) : (recordViolation v s).mem = s.mem := rfl
@[simp] theorem recordViolation_latch (v : Violation) (s : State) : (recordViolation v s).latch = s.latch := rfl
@[simp] theorem recordViolation_result (v : Violation) (s : State) : (recordViolation v s).result = none := rfl
@[simp] theorem recordViolation_inputs (v : Violation) (s : State) : (recordViolation v s).inputs = s.inputs := rfl
@[simp] theorem recordViolation_freeCount (v : Violation) (s : State) :
    (recordViolation v s).freeCount = s.freeCount := rfl

@[simp] theorem recordViolation_halted (v : Violation) (s : State) : (recordViolation v s).fault.halted = true := rfl

/-- The first violation's code is kept (60_exceptions.md R182). -/
theorem recordViolation_code (v : Violation) (s : State) :
    (recordViolation v s).fault.code = if s.fault.halted then s.fault.code else violationCode v := rfl

/-! ### Unspecified registers -/

@[simp] theorem unspecifyRegisters_params (s : State) : (unspecifyRegisters s).params = s.params := rfl
@[simp] theorem unspecifyRegisters_cnt (s : State) : (unspecifyRegisters s).cnt = s.cnt := rfl
@[simp] theorem unspecifyRegisters_fault (s : State) : (unspecifyRegisters s).fault = s.fault := rfl
@[simp] theorem unspecifyRegisters_pins (s : State) : (unspecifyRegisters s).pins = s.pins := rfl
@[simp] theorem unspecifyRegisters_trace (s : State) : (unspecifyRegisters s).trace = s.trace := rfl
@[simp] theorem unspecifyRegisters_im (s : State) : (unspecifyRegisters s).im = s.im := rfl
@[simp] theorem unspecifyRegisters_inIrq (s : State) : (unspecifyRegisters s).inIrq = s.inIrq := rfl
@[simp] theorem unspecifyRegisters_mem (s : State) : (unspecifyRegisters s).mem = s.mem := rfl
@[simp] theorem unspecifyRegisters_latch (s : State) : (unspecifyRegisters s).latch = s.latch := rfl
@[simp] theorem unspecifyRegisters_result (s : State) : (unspecifyRegisters s).result = s.result := rfl
@[simp] theorem unspecifyRegisters_inputs (s : State) : (unspecifyRegisters s).inputs = s.inputs := rfl
@[simp] theorem unspecifyRegisters_freeCount (s : State) : (unspecifyRegisters s).freeCount = s.freeCount + 11 := rfl

@[simp] theorem unspecifyRegisters_running (s : State) : (unspecifyRegisters s).sp.running = false := rfl
@[simp] theorem unspecifyRegisters_life (s : State) : (unspecifyRegisters s).sp.life = false := rfl
@[simp] theorem unspecifyRegisters_irqEn (s : State) : (unspecifyRegisters s).tm.irqEn = false := rfl
@[simp] theorem unspecifyRegisters_tlife (s : State) : (unspecifyRegisters s).tm.tlife = false := rfl

/-! ### The counter -/

@[simp] theorem advanceCounter_params (n : Nat) (s : State) : (advanceCounter n s).params = s.params := rfl
@[simp] theorem advanceCounter_sp (n : Nat) (s : State) : (advanceCounter n s).sp = s.sp := rfl
@[simp] theorem advanceCounter_tm (n : Nat) (s : State) : (advanceCounter n s).tm = s.tm := rfl
@[simp] theorem advanceCounter_cnt (n : Nat) (s : State) : (advanceCounter n s).cnt = s.cnt + BitVec.ofNat 32 n := rfl
@[simp] theorem advanceCounter_fault (n : Nat) (s : State) : (advanceCounter n s).fault = s.fault := rfl
@[simp] theorem advanceCounter_pins (n : Nat) (s : State) : (advanceCounter n s).pins = s.pins := rfl
@[simp] theorem advanceCounter_trace (n : Nat) (s : State) : (advanceCounter n s).trace = s.trace := rfl
@[simp] theorem advanceCounter_im (n : Nat) (s : State) : (advanceCounter n s).im = s.im := rfl
@[simp] theorem advanceCounter_inIrq (n : Nat) (s : State) : (advanceCounter n s).inIrq = s.inIrq := rfl
@[simp] theorem advanceCounter_mem (n : Nat) (s : State) : (advanceCounter n s).mem = s.mem := rfl
@[simp] theorem advanceCounter_latch (n : Nat) (s : State) : (advanceCounter n s).latch = s.latch := rfl
@[simp] theorem advanceCounter_result (n : Nat) (s : State) : (advanceCounter n s).result = s.result := rfl
@[simp] theorem advanceCounter_inputs (n : Nat) (s : State) : (advanceCounter n s).inputs = s.inputs := rfl
@[simp] theorem advanceCounter_freeCount (n : Nat) (s : State) : (advanceCounter n s).freeCount = s.freeCount := rfl

/-! ### A record freed -/

@[simp] theorem freeRecord_params (p : Nat) (s : State) : (freeRecord p s).params = s.params := rfl
@[simp] theorem freeRecord_sp (p : Nat) (s : State) : (freeRecord p s).sp = s.sp := rfl
@[simp] theorem freeRecord_tm (p : Nat) (s : State) : (freeRecord p s).tm = s.tm := rfl
@[simp] theorem freeRecord_cnt (p : Nat) (s : State) : (freeRecord p s).cnt = s.cnt := rfl
@[simp] theorem freeRecord_fault (p : Nat) (s : State) : (freeRecord p s).fault = s.fault := rfl
@[simp] theorem freeRecord_pins (p : Nat) (s : State) : (freeRecord p s).pins = s.pins := rfl
@[simp] theorem freeRecord_trace (p : Nat) (s : State) : (freeRecord p s).trace = s.trace := rfl
@[simp] theorem freeRecord_im (p : Nat) (s : State) : (freeRecord p s).im = s.im := rfl
@[simp] theorem freeRecord_inIrq (p : Nat) (s : State) : (freeRecord p s).inIrq = s.inIrq := rfl
@[simp] theorem freeRecord_mem (p : Nat) (s : State) :
    (freeRecord p s).mem = memErase s.mem (pointer s.params p) := rfl
@[simp] theorem freeRecord_latch (p : Nat) (s : State) : (freeRecord p s).latch = s.latch := rfl
@[simp] theorem freeRecord_result (p : Nat) (s : State) : (freeRecord p s).result = s.result := rfl
@[simp] theorem freeRecord_inputs (p : Nat) (s : State) : (freeRecord p s).inputs = s.inputs := rfl
@[simp] theorem freeRecord_freeCount (p : Nat) (s : State) : (freeRecord p s).freeCount = s.freeCount := rfl

/-! ### Time that passes -/

@[simp] theorem idle_params (n : Nat) (rest : List Input) (s : State) : (idle n rest s).params = s.params := rfl
@[simp] theorem idle_sp (n : Nat) (rest : List Input) (s : State) : (idle n rest s).sp = s.sp := rfl
@[simp] theorem idle_tm (n : Nat) (rest : List Input) (s : State) : (idle n rest s).tm = s.tm := rfl
@[simp] theorem idle_cnt (n : Nat) (rest : List Input) (s : State) :
    (idle n rest s).cnt = s.cnt + BitVec.ofNat 32 n := rfl
@[simp] theorem idle_fault (n : Nat) (rest : List Input) (s : State) : (idle n rest s).fault = s.fault := rfl
@[simp] theorem idle_pins (n : Nat) (rest : List Input) (s : State) : (idle n rest s).pins = s.pins := rfl
@[simp] theorem idle_trace (n : Nat) (rest : List Input) (s : State) : (idle n rest s).trace = s.trace := rfl
@[simp] theorem idle_im (n : Nat) (rest : List Input) (s : State) : (idle n rest s).im = s.im := rfl
@[simp] theorem idle_inIrq (n : Nat) (rest : List Input) (s : State) : (idle n rest s).inIrq = s.inIrq := rfl
@[simp] theorem idle_mem (n : Nat) (rest : List Input) (s : State) : (idle n rest s).mem = s.mem := rfl
@[simp] theorem idle_latch (n : Nat) (rest : List Input) (s : State) : (idle n rest s).latch = s.latch := rfl
@[simp] theorem idle_result (n : Nat) (rest : List Input) (s : State) : (idle n rest s).result = none := rfl
@[simp] theorem idle_inputs (n : Nat) (rest : List Input) (s : State) : (idle n rest s).inputs = rest := rfl
@[simp] theorem idle_freeCount (n : Nat) (rest : List Input) (s : State) :
    (idle n rest s).freeCount = s.freeCount := rfl

/-- Between operations CORE is idle: its registers, its memory and its pins hold (60_exceptions.md R198). -/
theorem idle_holds (n : Nat) (rest : List Input) (s : State) :
    idle n rest s = { s with cnt := s.cnt + BitVec.ofNat 32 n, result := none, inputs := rest } := rfl

/-! ### A request accepted -/

@[simp] theorem acceptRequest_params (r : Request) (rest : List Input) (s : State) :
    (acceptRequest r rest s).params = s.params := rfl
@[simp] theorem acceptRequest_sp (r : Request) (rest : List Input) (s : State) :
    (acceptRequest r rest s).sp = s.sp := rfl
@[simp] theorem acceptRequest_tm (r : Request) (rest : List Input) (s : State) :
    (acceptRequest r rest s).tm = s.tm := rfl
@[simp] theorem acceptRequest_cnt (r : Request) (rest : List Input) (s : State) :
    (acceptRequest r rest s).cnt = s.cnt := rfl
@[simp] theorem acceptRequest_fault (r : Request) (rest : List Input) (s : State) :
    (acceptRequest r rest s).fault = s.fault := rfl
@[simp] theorem acceptRequest_pins (r : Request) (rest : List Input) (s : State) :
    (acceptRequest r rest s).pins = s.pins := rfl
@[simp] theorem acceptRequest_trace (r : Request) (rest : List Input) (s : State) :
    (acceptRequest r rest s).trace = s.trace := rfl
@[simp] theorem acceptRequest_im (r : Request) (rest : List Input) (s : State) :
    (acceptRequest r rest s).im = s.im := rfl
@[simp] theorem acceptRequest_inIrq (r : Request) (rest : List Input) (s : State) :
    (acceptRequest r rest s).inIrq = s.inIrq := rfl
@[simp] theorem acceptRequest_mem (r : Request) (rest : List Input) (s : State) :
    (acceptRequest r rest s).mem = s.mem := rfl
@[simp] theorem acceptRequest_latch (r : Request) (rest : List Input) (s : State) :
    (acceptRequest r rest s).latch = latchOf r := rfl
@[simp] theorem acceptRequest_result (r : Request) (rest : List Input) (s : State) :
    (acceptRequest r rest s).result = none := rfl
@[simp] theorem acceptRequest_inputs (r : Request) (rest : List Input) (s : State) :
    (acceptRequest r rest s).inputs = rest := rfl
@[simp] theorem acceptRequest_freeCount (r : Request) (rest : List Input) (s : State) :
    (acceptRequest r rest s).freeCount = s.freeCount := rfl

/-! ### An interrupt accepted -/

@[simp] theorem acceptInterrupt_params (lag : Nat) (reply : Option Reply) (rest : List Input) (s : State) :
    (acceptInterrupt lag reply rest s).params = s.params := rfl
@[simp] theorem acceptInterrupt_sp (lag : Nat) (reply : Option Reply) (rest : List Input) (s : State) :
    (acceptInterrupt lag reply rest s).sp = s.sp := rfl
@[simp] theorem acceptInterrupt_tm (lag : Nat) (reply : Option Reply) (rest : List Input) (s : State) :
    (acceptInterrupt lag reply rest s).tm = s.tm := rfl
@[simp] theorem acceptInterrupt_cnt (lag : Nat) (reply : Option Reply) (rest : List Input) (s : State) :
    (acceptInterrupt lag reply rest s).cnt = s.cnt := rfl
@[simp] theorem acceptInterrupt_fault (lag : Nat) (reply : Option Reply) (rest : List Input) (s : State) :
    (acceptInterrupt lag reply rest s).fault = s.fault := rfl
@[simp] theorem acceptInterrupt_pins (lag : Nat) (reply : Option Reply) (rest : List Input) (s : State) :
    (acceptInterrupt lag reply rest s).pins = s.pins := rfl
@[simp] theorem acceptInterrupt_trace (lag : Nat) (reply : Option Reply) (rest : List Input) (s : State) :
    (acceptInterrupt lag reply rest s).trace = s.trace := rfl
@[simp] theorem acceptInterrupt_im (lag : Nat) (reply : Option Reply) (rest : List Input) (s : State) :
    (acceptInterrupt lag reply rest s).im = s.im := rfl
@[simp] theorem acceptInterrupt_inIrq (lag : Nat) (reply : Option Reply) (rest : List Input) (s : State) :
    (acceptInterrupt lag reply rest s).inIrq = s.inIrq := rfl
@[simp] theorem acceptInterrupt_mem (lag : Nat) (reply : Option Reply) (rest : List Input) (s : State) :
    (acceptInterrupt lag reply rest s).mem = s.mem := rfl
@[simp] theorem acceptInterrupt_latch (lag : Nat) (reply : Option Reply) (rest : List Input) (s : State) :
    (acceptInterrupt lag reply rest s).latch = { s.latch with issuer := .core, lag := lag, reply := reply } := rfl
@[simp] theorem acceptInterrupt_result (lag : Nat) (reply : Option Reply) (rest : List Input) (s : State) :
    (acceptInterrupt lag reply rest s).result = none := rfl
@[simp] theorem acceptInterrupt_inputs (lag : Nat) (reply : Option Reply) (rest : List Input) (s : State) :
    (acceptInterrupt lag reply rest s).inputs = rest := rfl
@[simp] theorem acceptInterrupt_freeCount (lag : Nat) (reply : Option Reply) (rest : List Input) (s : State) :
    (acceptInterrupt lag reply rest s).freeCount = s.freeCount := rfl

/-! ### RESET -/

@[simp] theorem assertReset_params (s : State) : (assertReset s).params = s.params := rfl
@[simp] theorem assertReset_sp (s : State) :
    (assertReset s).sp = { (unspecifyRegisters s).sp with prestepEn := false } := rfl
@[simp] theorem assertReset_tm (s : State) :
    (assertReset s).tm = { (unspecifyRegisters s).tm with armed := false } := rfl
@[simp] theorem assertReset_cnt (s : State) : (assertReset s).cnt = s.cnt := rfl
@[simp] theorem assertReset_fault (s : State) : (assertReset s).fault = { halted := false, code := 0 } := rfl
@[simp] theorem assertReset_trace (s : State) : (assertReset s).trace = [] := rfl
@[simp] theorem assertReset_im (s : State) : (assertReset s).im = false := rfl
@[simp] theorem assertReset_inIrq (s : State) : (assertReset s).inIrq = false := rfl
@[simp] theorem assertReset_mem (s : State) : (assertReset s).mem = s.mem := rfl
@[simp] theorem assertReset_latch (s : State) : (assertReset s).latch = s.latch := rfl
@[simp] theorem assertReset_result (s : State) : (assertReset s).result = none := rfl
@[simp] theorem assertReset_inputs (s : State) : (assertReset s).inputs = s.inputs := rfl
@[simp] theorem assertReset_freeCount (s : State) : (assertReset s).freeCount = s.freeCount + 12 := rfl

@[simp] theorem assertReset_step (s : State) : (assertReset s).pins.step = false := rfl

/-! ### A write to a record CORE may own -/

@[simp] theorem spoilIfOwned_params (p : Nat) (s : State) : (spoilIfOwned p s).params = s.params := by
  unfold spoilIfOwned; split <;> rfl
@[simp] theorem spoilIfOwned_sp (p : Nat) (s : State) : (spoilIfOwned p s).sp = s.sp := by
  unfold spoilIfOwned; split <;> rfl
@[simp] theorem spoilIfOwned_tm (p : Nat) (s : State) : (spoilIfOwned p s).tm = s.tm := by
  unfold spoilIfOwned; split <;> rfl
@[simp] theorem spoilIfOwned_cnt (p : Nat) (s : State) : (spoilIfOwned p s).cnt = s.cnt := by
  unfold spoilIfOwned; split <;> rfl
@[simp] theorem spoilIfOwned_fault (p : Nat) (s : State) : (spoilIfOwned p s).fault = s.fault := by
  unfold spoilIfOwned; split <;> rfl
@[simp] theorem spoilIfOwned_pins (p : Nat) (s : State) : (spoilIfOwned p s).pins = s.pins := by
  unfold spoilIfOwned; split <;> rfl
@[simp] theorem spoilIfOwned_trace (p : Nat) (s : State) : (spoilIfOwned p s).trace = s.trace := by
  unfold spoilIfOwned; split <;> rfl
@[simp] theorem spoilIfOwned_im (p : Nat) (s : State) : (spoilIfOwned p s).im = s.im := by
  unfold spoilIfOwned; split <;> rfl
@[simp] theorem spoilIfOwned_inIrq (p : Nat) (s : State) : (spoilIfOwned p s).inIrq = s.inIrq := by
  unfold spoilIfOwned; split <;> rfl
@[simp] theorem spoilIfOwned_latch (p : Nat) (s : State) : (spoilIfOwned p s).latch = s.latch := by
  unfold spoilIfOwned; split <;> rfl
@[simp] theorem spoilIfOwned_result (p : Nat) (s : State) : (spoilIfOwned p s).result = s.result := by
  unfold spoilIfOwned; split <;> rfl
@[simp] theorem spoilIfOwned_inputs (p : Nat) (s : State) : (spoilIfOwned p s).inputs = s.inputs := by
  unfold spoilIfOwned; split <;> rfl
@[simp] theorem spoilIfOwned_freeCount (p : Nat) (s : State) : (spoilIfOwned p s).freeCount = s.freeCount := by
  unfold spoilIfOwned; split <;> rfl
theorem spoilIfOwned_mem (p : Nat) (s : State) :
    (spoilIfOwned p s).mem = if owns s p then memErase s.mem p else s.mem := by
  unfold spoilIfOwned; split <;> rfl

/-! ### A record filled -/

@[simp] theorem fillRecord_params (p : Nat) (r : CommandRecord) (s : State) : (fillRecord p r s).params = s.params := by
  unfold fillRecord; dsimp only; split <;> [skip; split] <;> simp
@[simp] theorem fillRecord_sp (p : Nat) (r : CommandRecord) (s : State) : (fillRecord p r s).sp = s.sp := by
  unfold fillRecord; dsimp only; split <;> [skip; split] <;> simp
@[simp] theorem fillRecord_tm (p : Nat) (r : CommandRecord) (s : State) : (fillRecord p r s).tm = s.tm := by
  unfold fillRecord; dsimp only; split <;> [skip; split] <;> simp
@[simp] theorem fillRecord_cnt (p : Nat) (r : CommandRecord) (s : State) : (fillRecord p r s).cnt = s.cnt := by
  unfold fillRecord; dsimp only; split <;> [skip; split] <;> simp
@[simp] theorem fillRecord_fault (p : Nat) (r : CommandRecord) (s : State) : (fillRecord p r s).fault = s.fault := by
  unfold fillRecord; dsimp only; split <;> [skip; split] <;> simp
@[simp] theorem fillRecord_pins (p : Nat) (r : CommandRecord) (s : State) : (fillRecord p r s).pins = s.pins := by
  unfold fillRecord; dsimp only; split <;> [skip; split] <;> simp
@[simp] theorem fillRecord_trace (p : Nat) (r : CommandRecord) (s : State) : (fillRecord p r s).trace = s.trace := by
  unfold fillRecord; dsimp only; split <;> [skip; split] <;> simp
@[simp] theorem fillRecord_im (p : Nat) (r : CommandRecord) (s : State) : (fillRecord p r s).im = s.im := by
  unfold fillRecord; dsimp only; split <;> [skip; split] <;> simp
@[simp] theorem fillRecord_inIrq (p : Nat) (r : CommandRecord) (s : State) : (fillRecord p r s).inIrq = s.inIrq := by
  unfold fillRecord; dsimp only; split <;> [skip; split] <;> simp
@[simp] theorem fillRecord_latch (p : Nat) (r : CommandRecord) (s : State) : (fillRecord p r s).latch = s.latch := by
  unfold fillRecord; dsimp only; split <;> [skip; split] <;> simp
@[simp] theorem fillRecord_result (p : Nat) (r : CommandRecord) (s : State) : (fillRecord p r s).result = s.result := by
  unfold fillRecord; dsimp only; split <;> [skip; split] <;> simp
@[simp] theorem fillRecord_inputs (p : Nat) (r : CommandRecord) (s : State) : (fillRecord p r s).inputs = s.inputs := by
  unfold fillRecord; dsimp only; split <;> [skip; split] <;> simp
@[simp] theorem fillRecord_freeCount (p : Nat) (r : CommandRecord) (s : State) : (fillRecord p r s).freeCount = s.freeCount := by
  unfold fillRecord; dsimp only; split <;> [skip; split] <;> simp

end Machine
end Sys2Proof
end

