-- ==== Sys2Proof/Laws/Ops.lean ====
section
/-! SUPPORT. What the shared operations of Machine/Ops.lean answer in a state: one equation each, so that a proof rewrites an
operation line by line and never unfolds the monad. -/

namespace Sys2Proof
namespace Machine

/-! ### The monad -/

@[simp] theorem op_pure {α : Type} (a : α) (s : State) : (pure a : Op α) s = .ok a s := rfl

theorem op_bind {α β : Type} (x : Op α) (f : α → Op β) (s : State) :
    (x >>= f) s = match x s with
      | .ok a t => f a t
      | .error e t => .error e t := by
  change EStateM.bind x f s = _
  unfold EStateM.bind
  cases x s <;> rfl

@[simp] theorem op_get (s : State) : (get : Op State) s = .ok s s := rfl

@[simp] theorem op_set (t s : State) : (set t : Op PUnit) s = .ok ⟨⟩ t := rfl

@[simp] theorem op_modify (f : State → State) (s : State) : (modify f : Op PUnit) s = .ok ⟨⟩ (f s) := rfl

@[simp] theorem op_throw {α : Type} (e : Stop) (s : State) : (throw e : Op α) s = .error e s := rfl

@[simp] theorem op_ite {α : Type} (c : Prop) [Decidable c] (x y : Op α) (s : State) :
    (if c then x else y) s = if c then x s else y s := by split <;> rfl

theorem op_bind_ok {α β : Type} {x : Op α} {f : α → Op β} {s t : State} {a : α} (h : x s = .ok a t) :
    (x >>= f) s = f a t := by rw [op_bind, h]

theorem op_bind_error {α β : Type} {x : Op α} {f : α → Op β} {s t : State} {e : Stop} (h : x s = .error e t) :
    (x >>= f) s = .error e t := by rw [op_bind, h]

@[simp] theorem op_pure_bind {α β : Type} (a : α) (f : α → Op β) (s : State) : ((pure a : Op α) >>= f) s = f a s := rfl

@[simp] theorem op_get_bind {β : Type} (f : State → Op β) (s : State) : ((get : Op State) >>= f) s = f s s := rfl

@[simp] theorem op_set_bind {β : Type} (t : State) (f : PUnit → Op β) (s : State) :
    ((set t : Op PUnit) >>= f) s = f ⟨⟩ t := rfl

@[simp] theorem op_modify_bind {β : Type} (g : State → State) (f : PUnit → Op β) (s : State) :
    ((modify g : Op PUnit) >>= f) s = f ⟨⟩ (g s) := rfl

@[simp] theorem op_bind_assoc {α β γ : Type} (x : Op α) (f : α → Op β) (g : β → Op γ) (s : State) :
    (x >>= f >>= g) s = (x >>= fun a => f a >>= g) s := by
  rw [op_bind, op_bind, op_bind]
  cases x s with
  | ok a t => exact (op_bind (f a) g t).symm
  | error e t => rfl

@[simp] theorem op_ite_bind {α β : Type} (c : Prop) [Decidable c] (x y : Op α) (f : α → Op β) (s : State) :
    ((if c then x else y) >>= f) s = if c then (x >>= f) s else (y >>= f) s := by split <;> rfl

/-- If a sequence ends, its first part ended and the rest ran from there. -/
theorem op_bind_eq_ok {α β : Type} {x : Op α} {f : α → Op β} {s u : State} {b : β} (h : (x >>= f) s = .ok b u) :
    ∃ a t, x s = .ok a t ∧ f a t = .ok b u := by
  rw [op_bind] at h
  split at h
  · exact ⟨_, _, by assumption, h⟩
  · cases h

/-- A meaning answers a next state exactly where its body ends or raises a recorded violation. -/
theorem perform_next {body : Op Unit} {s t : State} (h : perform body s = .next t) :
    body s = .ok () t ∨ body s = .error .violated t := by
  unfold perform at h
  split at h
  · cases h; left; assumption
  · cases h; right; assumption
  · cases h

theorem perform_ok {body : Op Unit} {s t : State} (h : body s = .ok () t) : perform body s = .next t := by
  simp [perform, h]

/-- No meaning refuses. -/
theorem perform_ne_refused (body : Op Unit) (s : State) (r : Refusal) : perform body s ≠ .refused r := by
  unfold perform
  split <;> simp

/-! ### Violations -/

theorem raise_apply {α : Type} (v : Violation) (s : State) :
    (raise v : Op α) s = if s.params.assertions || alwaysDetected v then .error .violated (recordViolation v s)
      else .error (.machine (.uncheckedViolation v)) s := rfl

/-- An operation that raises answers the violation's outcome. -/
theorem perform_raise {body : Op Unit} {s t : State} (v : Violation) (h : body s = (raise v : Op Unit) t) :
    perform body s = violationOutcome v t := by
  unfold perform violationOutcome
  rw [h, raise_apply]
  cases t.params.assertions || alwaysDetected v <;> rfl

theorem raise_ne_ok {α : Type} (v : Violation) (s t : State) (a : α) : (raise v : Op α) s ≠ .ok a t := by
  rw [raise_apply]; split <;> simp

@[simp] theorem check_apply (c : Prop) [Decidable c] (v : Violation) (s : State) :
    check c v s = if c then .ok () s else (raise v : Op Unit) s := by
  unfold check; split <;> rfl

/-- A sequence whose first part raises raises. -/
@[simp] theorem op_raise_bind {α β : Type} (v : Violation) (f : α → Op β) (s : State) :
    ((raise v : Op α) >>= f) s = (raise v : Op β) s := by
  rw [op_bind, raise_apply, raise_apply]
  cases s.params.assertions || alwaysDetected v <;> rfl

/-- A sequence that begins with a check. -/
@[simp] theorem op_check_bind {β : Type} (c : Prop) [Decidable c] (v : Violation) (f : Unit → Op β) (s : State) :
    (check c v >>= f) s = if c then f () s else (raise v : Op β) s := by
  unfold check
  by_cases h : c
  · rw [if_pos h, if_pos h]; rfl
  · rw [if_neg h, if_neg h]; exact op_raise_bind v f s

/-- A check that ends without raising changes nothing. -/
theorem check_ok {c : Prop} [Decidable c] {v : Violation} {s t : State} (h : check c v s = .ok () t) : c ∧ t = s := by
  rw [check_apply] at h
  split at h
  · cases h; exact ⟨by assumption, rfl⟩
  · exact absurd h (raise_ne_ok v s t ())

/-! ### The operation port -/

@[simp] theorem clearResult_apply (s : State) : clearResult s = .ok () s.quiet := rfl

theorem onPort_apply (body : Op Unit) (s : State) :
    onPort body s = if s.fault.halted then .ok () s.quiet else body s.quiet := by
  simp only [onPort, op_bind, clearResult_apply, op_get, State.quiet, op_ite, op_pure]

theorem coreOnly_apply (body : Op Unit) (s : State) :
    coreOnly body s = if s.fault.halted then .ok () s.quiet
      else if s.latch.issuer = .operationPort then (raise .illegalOp : Op Unit) s.quiet else body s.quiet := by
  simp only [coreOnly, op_bind, clearResult_apply, op_get, State.quiet, op_ite, op_pure]

@[simp] theorem present_apply (b : Bounded) (s : State) : present b s = .ok () (s.shows b) := rfl

theorem timeOperand_apply (p : PortWord) (s : State) :
    timeOperand p s = if portHoldsTime s.params.maxW p = true then .ok (BitVec.ofNat 32 (portNat s.params.maxW p)) s
      else (raise .illegalOp : Op Time) s := by
  unfold timeOperand
  rw [op_get_bind, op_check_bind]
  rfl

@[simp] theorem timeOperand_bind {β : Type} (p : PortWord) (f : Time → Op β) (s : State) :
    (timeOperand p >>= f) s = if portHoldsTime s.params.maxW p = true then
        f (BitVec.ofNat 32 (portNat s.params.maxW p)) s
      else (raise .illegalOp : Op β) s := by
  unfold timeOperand
  rw [op_bind_assoc, op_get_bind, op_bind_assoc, op_check_bind]
  rfl

/-- A register is shown, or, where port R cannot hold its value, a free value is. -/
theorem presentRegister_apply (w n : Nat) (s : State) :
    presentRegister w n s = if n < 2 ^ s.params.maxW then .ok () (s.shows ⟨false, w, n⟩)
      else .ok () { s with
        result := some { r := (Config.freeBits (s.params.maxW + 1) s.freeCount).signExtend 128, rt := typeCode false w }
        freeCount := s.freeCount + 1 } := by
  unfold presentRegister
  rw [op_get_bind, op_ite, present_apply]
  rfl

/-! ### Free values and memory accesses -/

@[simp] theorem freshBits_apply (w : Nat) (s : State) :
    freshBits w s = .ok (Config.freeBits w s.freeCount) { s with freeCount := s.freeCount + 1 } := rfl

@[simp] theorem freshField_apply (f : Field) (s : State) :
    freshField f s = .ok (freeFieldValue s.params f s.freeCount) { s with freeCount := s.freeCount + 1 } := rfl

theorem memRead_filled {s : State} {p : Nat} {f : Field} {v : Int} (h : memGet s.mem p f = some v) :
    memRead p f s = .ok v s := by
  simp only [memRead, op_bind, op_get, h, op_pure]

theorem memRead_unfilled {s : State} {p : Nat} {f : Field} (h : memGet s.mem p f = none) :
    memRead p f s = .ok (freeFieldValue s.params f s.freeCount) { s with freeCount := s.freeCount + 1 } := by
  simp only [memRead, op_bind, op_get, h, freshField_apply]

/-- A read of a field always ends, and changes nothing but the count of free values. -/
theorem memRead_ok (p : Nat) (f : Field) (s : State) :
    ∃ v n, memRead p f s = .ok v { s with freeCount := n } := by
  cases h : memGet s.mem p f with
  | none => exact ⟨_, _, memRead_unfilled h⟩
  | some v => exact ⟨v, s.freeCount, memRead_filled h⟩

theorem memWrite_apply (p : Nat) (f : Field) (v : Int) (s : State) :
    memWrite p f v s = if fieldFits s.params f v = true then .ok () { s with mem := memSet s.mem p f v }
      else (raise .fxRange : Op Unit) s := by
  unfold memWrite
  rw [op_get_bind, op_check_bind]
  rfl

@[simp] theorem memWrite_bind {β : Type} (p : Nat) (f : Field) (v : Int) (g : Unit → Op β) (s : State) :
    (memWrite p f v >>= g) s = if fieldFits s.params f v = true then g () { s with mem := memSet s.mem p f v }
      else (raise .fxRange : Op β) s := by
  unfold memWrite
  rw [op_bind_assoc, op_get_bind, op_bind_assoc, op_check_bind]
  rfl

@[simp] theorem memFill_bind {β : Type} (p : Nat) (r : CommandRecord) (g : Unit → Op β) (s : State) :
    (memFill p r >>= g) s = if recordFits s.params r = true then
        g () { s with mem := memPut s.mem { ptr := p, record := r } }
      else (raise .fxRange : Op β) s := by
  unfold memFill
  rw [op_bind_assoc, op_get_bind, op_bind_assoc, op_check_bind]
  rfl

theorem memRead_bind_filled {β : Type} {s : State} {p : Nat} {f : Field} {v : Int} (g : Int → Op β)
    (h : memGet s.mem p f = some v) : (memRead p f >>= g) s = g v s :=
  op_bind_ok (memRead_filled h)

/-! ### The counter, the critical section, the trace, the pins -/

@[simp] theorem readCounter_apply (s : State) :
    readCounter s = .ok (s.cnt + BitVec.ofNat 32 s.latch.lag) (advanceCounter s.latch.lag s) := rfl

@[simp] theorem readCounter_bind {β : Type} (f : Time → Op β) (s : State) :
    (readCounter >>= f) s = f (s.cnt + BitVec.ofNat 32 s.latch.lag) (advanceCounter s.latch.lag s) := rfl

theorem atomically_apply {α : Type} (body : Op α) (s : State) :
    atomically body s = match body { s with im := true } with
      | .ok a t => .ok a { t with im := s.im }
      | .error e t => .error e t := by
  simp only [atomically, op_bind, op_get, op_modify, op_pure]

@[simp] theorem emit_apply (e : OutEvent) (s : State) : emit e s = .ok () { s with trace := s.trace ++ [e] } := rfl

@[simp] theorem emit_bind {β : Type} (e : OutEvent) (f : Unit → Op β) (s : State) :
    (emit e >>= f) s = f () { s with trace := s.trace ++ [e] } := rfl

@[simp] theorem pulse_apply (s : State) :
    pulse s = .ok () { s with pins := { s.pins with step := false }, trace := s.trace ++ [.pulseOn, .pulseOff] } := by
  simp only [pulse, op_bind, emit_apply, op_modify, List.append_assoc, List.cons_append, List.nil_append]

@[simp] theorem setDirection_apply (b : Bool) (s : State) :
    setDirection b s = .ok () { s with pins := { s.pins with dir := b }, trace := s.trace ++ [.dirSet b] } := rfl

@[simp] theorem pulse_bind {β : Type} (f : Unit → Op β) (s : State) :
    (pulse >>= f) s = f () { s with pins := { s.pins with step := false }, trace := s.trace ++ [.pulseOn, .pulseOff] } :=
  op_bind_ok (pulse_apply s)

@[simp] theorem setDirection_bind {β : Type} (b : Bool) (f : Unit → Op β) (s : State) :
    (setDirection b >>= f) s = f () { s with pins := { s.pins with dir := b }, trace := s.trace ++ [.dirSet b] } := rfl

end Machine
end Sys2Proof
end

