-- ==== Sys2Proof/Laws/Fxu.lean ====
section
/-! SUPPORT. The FXU: what a typed operation on the ports answers, the ranges of 40_fxu.md R80, and the integer square root. -/

namespace Sys2Proof
namespace Machine

/-! ### Operations on the ports -/

theorem presentOrRaise_apply (r : Except Violation Bounded) (s : State) :
    presentOrRaise r s = match r with
      | .ok b => .ok () (s.shows b)
      | .error v => (raise v : Op Unit) s := by
  cases r <;> rfl

@[simp] theorem typedOperand_bind {β : Type} (signed : Bool) (w : WidthField) (p : PortWord) (f : Bounded → Op β)
    (s : State) :
    (typedOperand signed w p >>= f) s = if fits (portValue s.params.maxW signed p) signed w.toNat = true then
        f ⟨signed, w.toNat, portValue s.params.maxW signed p⟩ s
      else (raise .fxRange : Op β) s := by
  unfold typedOperand
  rw [op_bind_assoc, op_get_bind, op_bind_assoc, op_check_bind]
  rfl

@[simp] theorem requireWidth_bind {β : Type} (w : WidthField) (f : Unit → Op β) (s : State) :
    (requireWidth w >>= f) s = if legalWidth s.params.maxW w = true then f () s else (raise .illegalOp : Op β) s := by
  unfold requireWidth
  rw [op_bind_assoc, op_get_bind, op_check_bind]

/-- An FX operation with one operand, in the order of the checks of 40_fxu.md R81. -/
theorem unaryFx_apply {s : State} (sa : Bool) (wa : WidthField) (f : Nat → Bounded → Except Violation Bounded) (h : Live s) :
    unaryFx sa wa f s =
      if legalWidth s.params.maxW wa = true then
        if fits (portValue s.params.maxW sa s.latch.a) sa wa.toNat = true then
          presentOrRaise (f s.params.maxW ⟨sa, wa.toNat, portValue s.params.maxW sa s.latch.a⟩) s.quiet
        else (raise .fxRange : Op Unit) s.quiet
      else (raise .illegalOp : Op Unit) s.quiet := by
  unfold unaryFx
  rw [onPort_apply, if_neg (by simp [h]), requireWidth_bind]
  simp only [op_get_bind, typedOperand_bind, quiet_latch, quiet_params]
  rfl

/-- An FX operation with two operands, in the order of the checks of 40_fxu.md R81. -/
theorem binaryFx_apply {s : State} (sa : Bool) (wa : WidthField) (sb : Bool) (wb : WidthField)
    (f : Nat → Bounded → Bounded → Except Violation Bounded) (h : Live s) :
    binaryFx sa wa sb wb f s =
      if legalWidth s.params.maxW wa = true then
        if legalWidth s.params.maxW wb = true then
          if fits (portValue s.params.maxW sa s.latch.a) sa wa.toNat = true then
            if fits (portValue s.params.maxW sb s.latch.b) sb wb.toNat = true then
              presentOrRaise (f s.params.maxW ⟨sa, wa.toNat, portValue s.params.maxW sa s.latch.a⟩
                ⟨sb, wb.toNat, portValue s.params.maxW sb s.latch.b⟩) s.quiet
            else (raise .fxRange : Op Unit) s.quiet
          else (raise .fxRange : Op Unit) s.quiet
        else (raise .illegalOp : Op Unit) s.quiet
      else (raise .illegalOp : Op Unit) s.quiet := by
  unfold binaryFx
  rw [onPort_apply, if_neg (by simp [h]), requireWidth_bind]
  simp only [requireWidth_bind, op_get_bind, typedOperand_bind, quiet_latch, quiet_params]
  rfl

/-- FX.MAKE reads port A as signed (30_encoding.md R66). -/
theorem fxMake_apply {s : State} (sa : Bool) (wa : WidthField) (h : Live s) :
    fxMake sa wa s =
      if legalWidth s.params.maxW wa = true then presentOrRaise (fxMakeValue (portValue s.params.maxW true s.latch.a) sa wa.toNat) s.quiet
      else (raise .illegalOp : Op Unit) s.quiet := by
  unfold fxMake
  rw [onPort_apply, if_neg (by simp [h]), requireWidth_bind]
  simp only [op_get_bind, quiet_latch, quiet_params]
  rfl

/-- What an FX function presents or raises, as an outcome. -/
theorem perform_presentOrRaise {body : Op Unit} {s t : State} {r : Except Violation Bounded}
    (h : body s = presentOrRaise r t) :
    perform body s = match r with
      | .ok b => .next (t.shows b)
      | .error v => violationOutcome v t := by
  cases r with
  | ok b => exact perform_ok h
  | error v => exact perform_raise v h

/-- The result port is cleared before a violation is recorded, so the state before or after that is the same to it. -/
@[simp] theorem violationOutcome_quiet (v : Violation) (s : State) : violationOutcome v s.quiet = violationOutcome v s := rfl

@[simp] theorem quiet_shows (s : State) (b : Bounded) : s.quiet.shows b = s.shows b := rfl

/-- ILLEGAL_OP is recorded in every build (60_exceptions.md R183). -/
@[simp] theorem violationOutcome_illegalOp (s : State) :
    violationOutcome .illegalOp s = .next (recordViolation .illegalOp s) := by
  simp [violationOutcome, alwaysDetected]

/-! ### Ranges -/

theorem fits_signed (v : Int) (w : Nat) : fits v true w = true ↔ -(2 ^ w - 1) ≤ v ∧ v ≤ 2 ^ w - 1 := by
  simp [fits, maxMagnitude]

theorem fits_unsigned (v : Int) (w : Nat) : fits v false w = true ↔ 0 ≤ v ∧ v ≤ 2 ^ w - 1 := by
  simp [fits, maxMagnitude]

theorem legalWidth_iff (m : Nat) (w : WidthField) : legalWidth m w = true ↔ 1 ≤ w.toNat ∧ w.toNat ≤ m := by
  simp [legalWidth]

/-- A port read as unsigned is not negative. -/
theorem portValue_nonneg (m : Nat) (p : PortWord) : 0 ≤ portValue m false p := by
  simp only [portValue, Bool.false_eq_true, if_false]
  exact Int.natCast_nonneg _

/-- A value of any type fits the signed type of its width. -/
theorem fits_abs {v : Int} {signed : Bool} {w : Nat} (h : fits v signed w = true) :
    -(2 ^ w - 1) ≤ v ∧ v ≤ 2 ^ w - 1 := by
  have : (0 : Int) < 2 ^ w := by positivity
  cases signed
  · rw [fits_unsigned] at h; omega
  · rwa [fits_signed] at h

/-- Port R holds every value of at most MAX_W magnitude bits exactly: MAX_W is at most 127 (10_state.md R11, 00_scope.md R5). -/
theorem presented_exact {b : Bounded} (hw : b.width ≤ 127) (h : fits b.val b.signed b.width = true) :
    (presented b).r.toInt = b.val := by
  have hb := fits_abs h
  have hp : (2 : Int) ^ b.width ≤ 2 ^ 127 := by exact_mod_cast Nat.pow_le_pow_right (by decide) hw
  show (BitVec.ofInt 128 b.val).toInt = b.val
  rw [BitVec.toInt_ofInt, Int.bmod_def]
  norm_num at *
  split <;> omega

/-- Port RT holds the signedness and the width (10_state.md R11). -/
theorem presented_type {b : Bounded} (hw : b.width ≤ 127) :
    (presented b).rt.toNat = (if b.signed then 128 else 0) + b.width := by
  show (BitVec.ofBool b.signed ++ BitVec.ofNat 7 b.width).toNat = _
  rw [BitVec.toNat_append, BitVec.toNat_ofNat, Nat.mod_eq_of_lt (by omega)]
  have h7 : b.width < 2 ^ 7 := by omega
  rw [← Nat.shiftLeft_add_eq_or_of_lt h7, Nat.shiftLeft_eq]
  cases b.signed <;> rfl

end Machine
end Sys2Proof
end

