-- ==== Sys2Proof/Laws/Operands.lean ====
section
/-! SUPPORT. The operand functions: the square root is the largest root, the signed shift of an exact multiple is exact, the
fields of DIRX are what was packed. -/

namespace Sys2Proof
namespace Machine

/-- `k` more bits on a root that leaves less than `2^k` to find: the result is the largest root. -/
theorem sqrtBits_spec (k r a : Nat) (hr : r * r ≤ a) (ha : a < (r + 2 ^ k) * (r + 2 ^ k)) :
    sqrtBits k r a * sqrtBits k r a ≤ a ∧ a < (sqrtBits k r a + 1) * (sqrtBits k r a + 1) := by
  induction k generalizing r with
  | zero => exact ⟨hr, by simpa [sqrtBits] using ha⟩
  | succ k ih =>
    unfold sqrtBits
    dsimp only
    split
    · rename_i h
      refine ih _ h ?_
      have : r + 2 ^ k + 2 ^ k = r + 2 ^ (k + 1) := by ring
      rwa [this]
    · rename_i h
      exact ih _ hr (Nat.lt_of_not_le h)

/-- `floor_sqrt` is the largest root (00_scope.md R7). -/
theorem floorSqrt_spec (v : Nat) :
    floorSqrt v * floorSqrt v ≤ v ∧ v < (floorSqrt v + 1) * (floorSqrt v + 1) := by
  refine sqrtBits_spec (v.log2 / 2 + 1) 0 v (Nat.zero_le _) ?_
  rw [Nat.zero_add, ← pow_add]
  exact Nat.lt_log2_self.trans_le (Nat.pow_le_pow_right (by decide) (by omega))

/-- The root is unique. -/
theorem floorSqrt_eq {v r : Nat} (h1 : r * r ≤ v) (h2 : v < (r + 1) * (r + 1)) : floorSqrt v = r := by
  obtain ⟨h3, h4⟩ := floorSqrt_spec v
  have h5 : floorSqrt v < r + 1 := Nat.mul_self_lt_mul_self_iff.mp (h3.trans_lt h2)
  have h6 : r < floorSqrt v + 1 := Nat.mul_self_lt_mul_self_iff.mp (h1.trans_lt h4)
  omega

/-- The root of a perfect square is exact. -/
theorem floorSqrt_square (r : Nat) : floorSqrt (r * r) = r :=
  floorSqrt_eq le_rfl (Nat.mul_self_lt_mul_self (Nat.lt_succ_self r))

/-- `shr_tz` rounds toward zero (00_scope.md R7). -/
theorem shrTz_eq (a : Int) (n : Nat) : shrTz a n = if 0 ≤ a then a / 2 ^ n else -((-a) / 2 ^ n) := by
  unfold shrTz truncDiv
  split
  · exact Int.tdiv_eq_ediv_of_nonneg (by assumption)
  · rw [← Int.tdiv_eq_ediv_of_nonneg (by omega), Int.neg_tdiv, neg_neg]

theorem shrTz_mul_pow (a : Int) (m n : Nat) : shrTz (a * 2 ^ (m + n)) n = a * 2 ^ m := by
  unfold shrTz truncDiv
  rw [pow_add, ← mul_assoc]
  exact Int.mul_tdiv_cancel _ (by positivity)

/-- `trunc_div` on magnitudes (00_scope.md R7). -/
theorem truncDiv_eq (a b : Int) :
    truncDiv a b = if (0 ≤ a ∧ 0 ≤ b) ∨ (a < 0 ∧ b < 0) then ((a.natAbs / b.natAbs : Nat) : Int)
      else -((a.natAbs / b.natAbs : Nat) : Int) := by
  unfold truncDiv
  rcases Int.natAbs_eq a with ha | ha <;> rcases Int.natAbs_eq b with hb | hb <;>
    generalize a.natAbs = m at * <;> generalize b.natAbs = n at * <;> subst ha <;> subst hb
  · simp
  · rcases Nat.eq_zero_or_pos n with rfl | hn
    · simp
    · rw [if_neg (by omega), Int.tdiv_neg]; simp
  · rcases Nat.eq_zero_or_pos m with rfl | hm
    · simp
    · rw [if_neg (by omega), Int.neg_tdiv]; simp
  · rw [Int.neg_tdiv, Int.tdiv_neg, neg_neg]
    rcases Nat.eq_zero_or_pos m with rfl | hm
    · simp
    · rcases Nat.eq_zero_or_pos n with rfl | hn
      · simp
      · rw [if_pos (by omega)]; simp

/-! ### DIRX -/

/-- The word packed from a step count, a direction and an acceleration sign, as a number. -/
theorem packDirx_toNat (p : Params) (x : Nat) (dir acc : Bool) :
    (packDirx p x dir acc).toNat = x + 2 ^ p.stepBits * (dir.toNat + 2 * acc.toNat) := by
  have h : packDirx p x dir acc = ((x + 2 ^ p.stepBits * (dir.toNat + 2 * acc.toNat) : Nat) : Int) := by
    cases dir <;> cases acc <;> (simp [packDirx, pow_succ]; try ring)
  rw [h, Int.toNat_natCast]

theorem packed_div {x n : Nat} (hx : x < 2 ^ n) (k : Nat) : (x + 2 ^ n * k) / 2 ^ n = k := by
  rw [Nat.add_mul_div_left _ _ (by positivity), Nat.div_eq_of_lt hx, Nat.zero_add]

theorem dirxSteps_packDirx {p : Params} {x : Nat} (hx : x < 2 ^ p.stepBits) (dir acc : Bool) :
    dirxSteps p (packDirx p x dir acc) = x := by
  unfold dirxSteps
  rw [packDirx_toNat, Nat.add_mul_mod_self_left, Nat.mod_eq_of_lt hx]

theorem dirxDirection_packDirx {p : Params} {x : Nat} (hx : x < 2 ^ p.stepBits) (dir acc : Bool) :
    dirxDirection p (packDirx p x dir acc) = dir := by
  unfold dirxDirection
  rw [packDirx_toNat, Nat.testBit_eq_decide_div_mod_eq, packed_div hx]
  cases dir <;> cases acc <;> rfl

theorem dirxAccelerating_packDirx {p : Params} {x : Nat} (hx : x < 2 ^ p.stepBits) (dir acc : Bool) :
    dirxAccelerating p (packDirx p x dir acc) = acc := by
  unfold dirxAccelerating
  rw [packDirx_toNat, Nat.testBit_eq_decide_div_mod_eq, pow_succ, ← Nat.div_div_eq_div_mul, packed_div hx]
  cases dir <;> cases acc <;> rfl

end Machine
end Sys2Proof
end

