-- ==== Sys2Proof/Laws/Memory.lean ====
section
/-! SUPPORT. The Command memory: every operation keeps the canonical form, a read after a write gives what was written, a write
leaves every other field alone, and no write of one field fills a record. -/

namespace Sys2Proof
namespace Machine

/-! ### Records -/

theorem recordFits_iff (p : Params) (r : CommandRecord) :
    recordFits p r = true ↔ ∀ f, fieldFits p f (recordGet r f) = true := by
  simp only [recordFits, Bool.and_eq_true]
  constructor
  · rintro ⟨⟨⟨h1, h2⟩, h3⟩, h4⟩ f
    cases f <;> assumption
  · exact fun h => ⟨⟨⟨h .dirx, h .tmul⟩, h .amul⟩, h .disc⟩

@[simp] theorem recordGet_recordSet_self (r : CommandRecord) (v : Int) (f : Field) : recordGet (recordSet r v f) f = v := by
  cases f <;> rfl

theorem recordGet_recordSet_other (r : CommandRecord) (v : Int) {f g : Field} (h : g ≠ f) :
    recordGet (recordSet r v f) g = recordGet r g := by
  cases f <;> cases g <;> first | rfl | exact absurd rfl h

/-- A record with one field written in its range is in range. -/
theorem recordFits_recordSet {p : Params} {r : CommandRecord} {f : Field} {v : Int} (h : recordFits p r = true)
    (hv : fieldFits p f v = true) : recordFits p (recordSet r v f) = true := by
  rw [recordFits_iff] at h ⊢
  intro g
  by_cases hg : g = f
  · rw [hg, recordGet_recordSet_self]; exact hv
  · rw [recordGet_recordSet_other r v hg]; exact h g

/-! ### The canonical form is kept -/

/-- The records of the memory after one is put are that one and old ones. -/
theorem mem_memPut {m : Memory} {c d : RecordCell} (h : d ∈ memPut m c) : d = c ∨ d ∈ m := by
  induction m with
  | nil => simpa [memPut] using h
  | cons e es ih =>
    unfold memPut at h
    split at h
    · simpa using h
    · split at h
      · rcases List.mem_cons.mp h with h | h
        · exact .inl h
        · exact .inr (List.mem_cons_of_mem _ h)
      · rcases List.mem_cons.mp h with h | h
        · exact .inr (h ▸ List.mem_cons_self)
        · exact (ih h).imp id (List.mem_cons_of_mem _)

theorem memPut_sorted {m : Memory} (c : RecordCell) (h : m.Pairwise fun c d => c.ptr < d.ptr) :
    (memPut m c).Pairwise fun c d => c.ptr < d.ptr := by
  induction m with
  | nil => simp [memPut]
  | cons e es ih =>
    obtain ⟨he, hes⟩ := List.pairwise_cons.mp h
    unfold memPut
    split
    · rename_i hlt
      refine List.pairwise_cons.mpr ⟨fun d hd => ?_, h⟩
      rcases List.mem_cons.mp hd with rfl | hd
      · exact hlt
      · exact hlt.trans (he d hd)
    · split
      · rename_i heq
        exact List.pairwise_cons.mpr ⟨fun d hd => heq ▸ he d hd, hes⟩
      · rename_i hnlt hne
        refine List.pairwise_cons.mpr ⟨fun d hd => ?_, ih hes⟩
        rcases mem_memPut hd with rfl | hd
        · omega
        · exact he d hd

/-- Filling a record that has a place, with values of its types, keeps the canonical form. -/
theorem memPut_wf {p : Params} {m : Memory} {c : RecordCell} (h : Memory.wf p m) (h0 : 0 < c.ptr)
    (hp : c.ptr < 2 ^ p.ptrBits) (hc : recordFits p c.record = true) : Memory.wf p (memPut m c) := by
  refine ⟨memPut_sorted c h.1, fun d hd => ?_⟩
  rcases mem_memPut hd with rfl | hd
  · exact ⟨h0, hp, hc⟩
  · exact h.2 d hd

theorem memErase_wf {p : Params} {m : Memory} (q : Nat) (h : Memory.wf p m) : Memory.wf p (memErase m q) :=
  ⟨h.1.filter _, fun c hc => h.2 c (List.mem_filter.mp hc).1⟩

/-- Writing a value of the field's type keeps the canonical form. -/
theorem memSet_wf {p : Params} {m : Memory} {q : Nat} {f : Field} {v : Int} (h : Memory.wf p m)
    (hv : fieldFits p f v = true) : Memory.wf p (memSet m q f v) := by
  unfold memSet
  refine ⟨List.pairwise_map.mpr (h.1.imp fun {c d} hcd => ?_), fun c hc => ?_⟩
  · split <;> split <;> exact hcd
  · obtain ⟨d, hd, rfl⟩ := List.mem_map.mp hc
    obtain ⟨h0, hp, hr⟩ := h.2 d hd
    split
    · exact ⟨h0, hp, recordFits_recordSet hr hv⟩
    · exact ⟨h0, hp, hr⟩

theorem spoilIfOwned_wf {p : Params} {s : State} (q : Nat) (h : Memory.wf p s.mem) : Memory.wf p (spoilIfOwned q s).mem := by
  rw [spoilIfOwned_mem]
  split
  · exact memErase_wf q h
  · exact h

theorem pointer_lt (p : Params) (v : Nat) : pointer p v < 2 ^ p.ptrBits := Nat.mod_lt _ (by positivity)

theorem fillRecord_wf {s : State} (p : Nat) (r : CommandRecord) (h : Memory.wf s.params s.mem) :
    Memory.wf s.params (fillRecord p r s).mem := by
  unfold fillRecord
  dsimp only
  split
  · exact h
  · split
    · exact spoilIfOwned_wf _ (memPut_wf h (Nat.pos_of_ne_zero (by assumption)) (pointer_lt _ _) (by assumption))
    · exact memErase_wf _ h

theorem freeRecord_wf {s : State} (p : Nat) (h : Memory.wf s.params s.mem) : Memory.wf s.params (freeRecord p s).mem :=
  memErase_wf _ h

theorem resetOf_memory_wf (p : Params) : Memory.wf p (State.resetOf p).mem := ⟨List.Pairwise.nil, nofun⟩

/-! ### Reads after writes -/

/-- The record put at a pointer is the one there. -/
theorem memRecord_memPut_self {m : Memory} (c : RecordCell) : memRecord (memPut m c) c.ptr = some c.record := by
  induction m with
  | nil => simp [memPut, memRecord]
  | cons e es ih =>
    unfold memPut
    split
    · simp [memRecord]
    · split
      · simp [memRecord]
      · rename_i hne
        unfold memRecord at ih ⊢
        rw [List.find?_cons_of_neg (by simpa using Ne.symm hne)]
        exact ih

/-- Every other record stands as before. -/
theorem memRecord_memPut_other {m : Memory} {c : RecordCell} {q : Nat} (h : q ≠ c.ptr) :
    memRecord (memPut m c) q = memRecord m q := by
  induction m with
  | nil => simp [memPut, memRecord, Ne.symm h]
  | cons e es ih =>
    unfold memPut
    unfold memRecord at ih ⊢
    split
    · rw [List.find?_cons_of_neg (by simpa using Ne.symm h)]
    · split
      · rename_i heq
        rw [List.find?_cons_of_neg (by simpa using Ne.symm h), List.find?_cons_of_neg (by simpa [← heq] using Ne.symm h)]
      · by_cases he : e.ptr = q
        · rw [List.find?_cons_of_pos (by simpa using he), List.find?_cons_of_pos (by simpa using he)]
        · rw [List.find?_cons_of_neg (by simpa using he), List.find?_cons_of_neg (by simpa using he)]
          exact ih

theorem memRecord_memErase_self (m : Memory) (q : Nat) : memRecord (memErase m q) q = none := by
  induction m with
  | nil => rfl
  | cons e es ih =>
    unfold memErase at ih ⊢
    by_cases h : e.ptr = q
    · rw [List.filter_cons_of_neg (by simpa using h)]
      exact ih
    · rw [List.filter_cons_of_pos (by simpa using h)]
      unfold memRecord at ih ⊢
      rw [List.find?_cons_of_neg (by simp [h])]
      exact ih

theorem memRecord_memErase_other {m : Memory} {p q : Nat} (h : q ≠ p) : memRecord (memErase m p) q = memRecord m q := by
  induction m with
  | nil => rfl
  | cons e es ih =>
    unfold memErase memRecord at ih ⊢
    by_cases hp : e.ptr = p
    · rw [List.filter_cons_of_neg (by simpa using hp), List.find?_cons_of_neg (by simp [hp, Ne.symm h])]
      exact ih
    · rw [List.filter_cons_of_pos (by simpa using hp)]
      by_cases he : e.ptr = q
      · rw [List.find?_cons_of_pos (by simpa using he), List.find?_cons_of_pos (by simpa using he)]
      · rw [List.find?_cons_of_neg (by simpa using he), List.find?_cons_of_neg (by simpa using he)]
        exact ih

/-- A write of one field changes that field of a filled record, and nothing of one that is not filled (20_memory.md R48). -/
theorem memRecord_memSet (m : Memory) (p q : Nat) (f : Field) (v : Int) :
    memRecord (memSet m p f v) q = (memRecord m q).map fun r => if q = p then recordSet r v f else r := by
  induction m with
  | nil => rfl
  | cons e es ih =>
    unfold memSet memRecord at ih ⊢
    rw [List.map_cons]
    by_cases he : e.ptr = q
    · rw [List.find?_cons_of_pos (by split <;> simpa using he), List.find?_cons_of_pos (by simpa using he)]
      subst he
      by_cases hp : e.ptr = p <;> simp [hp]
    · rw [List.find?_cons_of_neg (by split <;> simpa using he), List.find?_cons_of_neg (by simpa using he)]
      exact ih

theorem memRecord_memSet_unfilled {m : Memory} {q : Nat} (p : Nat) (f : Field) (v : Int) (h : memRecord m q = none) :
    memRecord (memSet m p f v) q = none := by
  rw [memRecord_memSet, h]; rfl

theorem memGet_memSet_self {m : Memory} {q : Nat} {f : Field} {v w : Int} (h : memGet m q f = some w) :
    memGet (memSet m q f v) q f = some v := by
  unfold memGet at h ⊢
  obtain ⟨r, hr, -⟩ := Option.map_eq_some_iff.mp h
  rw [memRecord_memSet, hr]
  simp

theorem memGet_memSet_other {m : Memory} {p q : Nat} {f g : Field} (v : Int) (h : ¬ (q = p ∧ g = f)) :
    memGet (memSet m p f v) q g = memGet m q g := by
  unfold memGet
  rw [memRecord_memSet]
  cases memRecord m q with
  | none => rfl
  | some r =>
    by_cases hq : q = p
    · simp [hq, recordGet_recordSet_other r v fun hg => h ⟨hq, hg⟩]
    · simp [hq]

/-- What a canonical memory holds fits the types of its fields. -/
theorem memRecord_fits {p : Params} {m : Memory} {q : Nat} {r : CommandRecord} (h : Memory.wf p m)
    (hg : memRecord m q = some r) : recordFits p r = true := by
  unfold memRecord at hg
  obtain ⟨c, hc, rfl⟩ := Option.map_eq_some_iff.mp hg
  exact (h.2 c (List.mem_of_find?_eq_some hc)).2.2

theorem memGet_fits {p : Params} {m : Memory} {q : Nat} {f : Field} {v : Int} (h : Memory.wf p m)
    (hg : memGet m q f = some v) : fieldFits p f v = true := by
  obtain ⟨r, hr, rfl⟩ := Option.map_eq_some_iff.mp hg
  exact (recordFits_iff p r).mp (memRecord_fits h hr) f

/-- A free value of a field's type fits it. -/
theorem freeFieldValue_fits (p : Params) (f : Field) (n : Nat) : fieldFits p f (freeFieldValue p f n) = true := by
  unfold freeFieldValue
  split
  · assumption
  · have : (0 : Int) < 2 ^ fieldWidth p f := by positivity
    simp only [fieldFits, fits, maxMagnitude]
    split <;> simp <;> omega

end Machine
end Sys2Proof
end

