-- ==== Sys2Proof/Laws/Timer.lean ====
section
/-! SUPPORT. What each operation of the timer unit answers: one equation each, and the order on times. -/

namespace Sys2Proof
namespace Machine

/-! ### Times -/

theorem timeGe_iff (b a : Time) : timeGe b a = true ↔ (b - a).toNat < 2 ^ 31 := by
  simp [timeGe]

@[simp] theorem timeGe_self (a : Time) : timeGe a a = true := by
  simp [timeGe]

/-- The compare register is never behind the requested time (10_state.md R27). -/
theorem timeGe_rebase (c : Nat) (time now : Time) : timeGe (rebase c time now) time = true := by
  unfold rebase
  dsimp only
  split
  · assumption
  · exact timeGe_self time

/-! ### The unit's operations -/

/-- The state after the timer is armed at `time` (41_timer.md R116, R117). -/
def armedAt (time : Time) (s : State) : State :=
  { s with
    cnt := s.cnt + BitVec.ofNat 32 s.latch.lag
    tm := { s.tm with time := time
                      cmp := rebase s.params.clearance time (s.cnt + BitVec.ofNat 32 s.latch.lag)
                      irqEn := true
                      armed := s.params.assertions }
    trace := s.trace ++ [.arm (rebase s.params.clearance time (s.cnt + BitVec.ofNat 32 s.latch.lag))] }

theorem armAt_apply (time : Time) (s : State) : armAt time s = .ok () (armedAt time s) := by
  unfold armAt
  rw [atomically_apply]
  rfl

theorem timerInit_apply (s : State) :
    timerInit s = .ok () { s with tm := { s.tm with tlife := true, irqEn := false, armed := false } } := rfl

theorem timerDeinit_apply (s : State) :
    timerDeinit s = if s.tm.irqEn = false then .ok () { s with tm := { s.tm with tlife := false } }
      else (raise .tmArmed : Op Unit) s := by
  unfold timerDeinit
  rw [op_get_bind, op_check_bind]
  rfl

theorem timerSetFirst_apply (time : Time) (s : State) :
    timerSetFirst time s = if s.tm.irqEn = false then .ok () (armedAt time s)
      else (raise .tmAlreadyArmed : Op Unit) s := by
  unfold timerSetFirst
  rw [op_get_bind, op_check_bind, armAt_apply]

theorem timerSetNext_apply (time : Time) (s : State) :
    timerSetNext time s = if s.inIrq = true ∧ s.tm.irqEn = true then .ok () (armedAt time s)
      else (raise .tmContext : Op Unit) s := by
  unfold timerSetNext
  rw [op_get_bind, op_check_bind, armAt_apply]

/-- The state after the timer is disarmed (41_timer.md R118). -/
def disarmed (s : State) : State :=
  { s with tm := { s.tm with irqEn := false, armed := false }, trace := s.trace ++ [.disarm] }

theorem timerUnset_apply (s : State) : timerUnset s = .ok () (disarmed s) := by
  unfold timerUnset
  rw [atomically_apply]
  rfl

end Machine
end Sys2Proof
end

