-- ==== Sys2Proof/Laws/Runs.lean ====
section
/-! SUPPORT. What a sequence of operations can do, said once for each: `Runs x s Q E` holds if every way `x` ends in `s` ends in
`Q`, and it raises a violation `v` only in a state with `E v`. The lemma of a sequence is its parts' lemmas, in order. -/

namespace Sys2Proof
namespace Machine

/-- `x` ends in `Q`, or it raises a violation `v` in a state with `E v`, or the machine stops. -/
def Runs {α : Type} (x : Op α) (s : State) (Q : α → State → Prop) (E : Violation → State → Prop) : Prop :=
  match x s with
  | .ok a t => Q a t
  | .error .violated t => ∃ v u, t = recordViolation v u ∧ E v u
  | .error (.machine _) _ => True

/-- The violations of the interplay of the scheduler with its timer: no operation of a coherent machine raises one. -/
def Violation.inner : Violation → Bool
  | .tmAlreadyArmed | .tmContext | .tmArmed | .spNotRunning => true
  | .fxRange | .fxDivZero | .fxNegative | .fxWidth => false
  | .spAlreadyRunning | .spNullCommand | .spDeinitRunning | .spAccelRange | .spDiscNegative => false
  | .spBusy | .spLife | .spContext | .illegalOp => false

/-- A violation that is not an inner one, in a state with `P`. -/
abbrev Outer (P : State → Prop) : Violation → State → Prop := fun v t => v.inner = false ∧ P t

theorem runs_of_ok {α : Type} {x : Op α} {s t : State} {a : α} {Q : α → State → Prop} {E : Violation → State → Prop}
    (h : x s = .ok a t) (hq : Q a t) : Runs x s Q E := by
  unfold Runs; rw [h]; exact hq

theorem runs_congr {α : Type} {x y : Op α} {s t : State} {Q : α → State → Prop} {E : Violation → State → Prop}
    (h : x s = y t) (hy : Runs y t Q E) : Runs x s Q E := by
  unfold Runs at hy ⊢; rw [h]; exact hy

theorem runs_pure {α : Type} {a : α} {s : State} {Q : α → State → Prop} {E : Violation → State → Prop} (h : Q a s) :
    Runs (pure a) s Q E := h

theorem runs_raise {α : Type} {v : Violation} {s : State} {Q : α → State → Prop} {E : Violation → State → Prop} (h : E v s) :
    Runs (raise v : Op α) s Q E := by
  unfold Runs
  rw [raise_apply]
  cases s.params.assertions || alwaysDetected v
  · trivial
  · exact ⟨v, s, rfl, h⟩

theorem runs_bind {α β : Type} {x : Op α} {f : α → Op β} {s : State} {Q : β → State → Prop} {E : Violation → State → Prop}
    (h : Runs x s (fun a t => Runs (f a) t Q E) E) : Runs (x >>= f) s Q E := by
  unfold Runs at h ⊢
  rw [op_bind]
  revert h
  cases x s with
  | ok a t => exact id
  | error e t => cases e <;> exact id

theorem runs_get_bind {β : Type} {f : State → Op β} {s : State} {Q : β → State → Prop} {E : Violation → State → Prop}
    (h : Runs (f s) s Q E) : Runs ((get : Op State) >>= f) s Q E := h

theorem runs_modify {g : State → State} {s : State} {Q : PUnit → State → Prop} {E : Violation → State → Prop}
    (h : Q ⟨⟩ (g s)) : Runs (modify g) s Q E := h

theorem runs_modify_bind {β : Type} {g : State → State} {f : PUnit → Op β} {s : State} {Q : β → State → Prop}
    {E : Violation → State → Prop} (h : Runs (f ⟨⟩) (g s) Q E) : Runs ((modify g : Op PUnit) >>= f) s Q E := h

theorem runs_check_bind {β : Type} {c : Prop} [Decidable c] {v : Violation} {f : Unit → Op β} {s : State}
    {Q : β → State → Prop} {E : Violation → State → Prop} (h : c → Runs (f ()) s Q E) (he : E v s) :
    Runs (check c v >>= f) s Q E := by
  by_cases hc : c
  · exact runs_congr (by rw [op_check_bind, if_pos hc]) (h hc)
  · exact runs_congr (by rw [op_check_bind, if_neg hc]) (runs_raise he)

theorem runs_mono {α : Type} {x : Op α} {s : State} {Q Q' : α → State → Prop} {E E' : Violation → State → Prop}
    (h : Runs x s Q E) (hq : ∀ a t, Q a t → Q' a t) (he : ∀ v t, E v t → E' v t) : Runs x s Q' E' := by
  unfold Runs at h ⊢
  revert h
  cases x s with
  | ok a t => exact hq a t
  | error e t =>
    cases e with
    | violated => rintro ⟨v, u, hu, hE⟩; exact ⟨v, u, hu, he v u hE⟩
    | machine f => exact id

/-- An operation's outcome: a state with `Q`, or a violation `v` recorded in a state with `E v`. -/
theorem perform_runs {x : Op Unit} {s t : State} {Q : Unit → State → Prop} {E : Violation → State → Prop}
    (h : Runs x s Q E) (ht : perform x s = .next t) : Q () t ∨ ∃ v u, t = recordViolation v u ∧ E v u := by
  unfold Runs at h
  rcases perform_next ht with hx | hx
  · rw [hx] at h; exact .inl h
  · rw [hx] at h; exact .inr h

/-! ### The operation port -/

theorem runs_onPort {body : Op Unit} {s : State} {Q : Unit → State → Prop} {E : Violation → State → Prop}
    (hq : s.fault.halted = true → Q () s.quiet) (h : s.fault.halted = false → Runs body s.quiet Q E) :
    Runs (onPort body) s Q E := by
  cases hh : s.fault.halted
  · exact runs_congr (by rw [onPort_apply, if_neg (by simp [hh])]) (h hh)
  · exact runs_of_ok (by rw [onPort_apply, if_pos hh]) (hq hh)

theorem runs_coreOnly {body : Op Unit} {s : State} {Q : Unit → State → Prop} {E : Violation → State → Prop}
    (hq : s.fault.halted = true → Q () s.quiet) (he : s.fault.halted = false → E .illegalOp s.quiet)
    (h : s.fault.halted = false → s.latch.issuer = .core → Runs body s.quiet Q E) : Runs (coreOnly body) s Q E := by
  cases hh : s.fault.halted
  · cases hc : s.latch.issuer
    · exact runs_congr (by rw [coreOnly_apply, if_neg (by simp [hh]), if_pos hc]) (runs_raise (he hh))
    · exact runs_congr (by rw [coreOnly_apply, if_neg (by simp [hh]), if_neg (by simp [hc])]) (h hh hc)
  · exact runs_of_ok (by rw [coreOnly_apply, if_pos hh]) (hq hh)

theorem runs_timeOperand_bind {β : Type} {p : PortWord} {f : Time → Op β} {s : State} {Q : β → State → Prop}
    {E : Violation → State → Prop} (h : portHoldsTime s.params.maxW p = true → ∀ time, Runs (f time) s Q E)
    (he : E .illegalOp s) : Runs (timeOperand p >>= f) s Q E := by
  have step := timeOperand_bind p f s
  by_cases hp : portHoldsTime s.params.maxW p = true
  · rw [if_pos hp] at step
    exact runs_congr step (h hp _)
  · rw [if_neg hp] at step
    exact runs_congr step (runs_raise he)

/-! ### The Command memory -/

/-- A read answers a value of the field's type; only the count of free values may move. -/
theorem runs_memRead {p : Nat} {f : Field} {s : State} {Q : Int → State → Prop} {E : Violation → State → Prop}
    (hm : Memory.wf s.params s.mem) (h : ∀ v n, fieldFits s.params f v = true → Q v { s with freeCount := n }) :
    Runs (memRead p f) s Q E := by
  cases hg : memGet s.mem p f with
  | none => exact runs_of_ok (memRead_unfilled hg) (h _ _ (freeFieldValue_fits _ f _))
  | some v => exact runs_of_ok (memRead_filled hg) (h v s.freeCount (memGet_fits hm hg))

theorem runs_memRead_bind {β : Type} {p : Nat} {f : Field} {g : Int → Op β} {s : State} {Q : β → State → Prop}
    {E : Violation → State → Prop} (hm : Memory.wf s.params s.mem)
    (h : ∀ v n, fieldFits s.params f v = true → Runs (g v) { s with freeCount := n } Q E) : Runs (memRead p f >>= g) s Q E :=
  runs_bind (runs_memRead hm h)

/-- A write keeps the memory's canonical form. -/
theorem runs_memWrite_bind {β : Type} {p : Nat} {f : Field} {v : Int} {g : Unit → Op β} {s : State}
    {Q : β → State → Prop} {E : Violation → State → Prop} (hm : Memory.wf s.params s.mem)
    (h : ∀ m, Memory.wf s.params m → Runs (g ()) { s with mem := m } Q E) (he : E .fxRange s) : Runs (memWrite p f v >>= g) s Q E := by
  by_cases hv : fieldFits s.params f v = true
  · exact runs_congr (by rw [memWrite_bind, if_pos hv]) (h _ (memSet_wf hm hv))
  · exact runs_congr (by rw [memWrite_bind, if_neg hv]) (runs_raise he)

/-- Filling a record that has a place keeps the memory's canonical form. -/
theorem runs_memFill_bind {β : Type} {p : Nat} {r : CommandRecord} {g : Unit → Op β} {s : State}
    {Q : β → State → Prop} {E : Violation → State → Prop} (hm : Memory.wf s.params s.mem) (h0 : 0 < p)
    (hp : p < 2 ^ s.params.ptrBits) (h : ∀ m, Memory.wf s.params m → Runs (g ()) { s with mem := m } Q E)
    (he : E .fxRange s) : Runs (memFill p r >>= g) s Q E := by
  by_cases hr : recordFits s.params r = true
  · exact runs_congr (by rw [memFill_bind, if_pos hr]) (h _ (memPut_wf hm h0 hp hr))
  · exact runs_congr (by rw [memFill_bind, if_neg hr]) (runs_raise he)

/-! ### The timer -/

theorem runs_timerSetFirst {time : Time} {s : State} {Q : Unit → State → Prop} {E : Violation → State → Prop}
    (h : s.tm.irqEn = false → Q () (armedAt time s)) (he : s.tm.irqEn = true → E .tmAlreadyArmed s) :
    Runs (timerSetFirst time) s Q E := by
  by_cases hi : s.tm.irqEn = false
  · exact runs_of_ok (by rw [timerSetFirst_apply, if_pos hi]) (h hi)
  · exact runs_congr (by rw [timerSetFirst_apply, if_neg hi]) (runs_raise (he (by simpa using hi)))

theorem runs_timerSetNext {time : Time} {s : State} {Q : Unit → State → Prop} {E : Violation → State → Prop}
    (h : s.inIrq = true → s.tm.irqEn = true → Q () (armedAt time s))
    (he : ¬ (s.inIrq = true ∧ s.tm.irqEn = true) → E .tmContext s) : Runs (timerSetNext time) s Q E := by
  by_cases hi : s.inIrq = true ∧ s.tm.irqEn = true
  · exact runs_of_ok (by rw [timerSetNext_apply, if_pos hi]) (h hi.1 hi.2)
  · exact runs_congr (by rw [timerSetNext_apply, if_neg hi]) (runs_raise (he hi))

end Machine
end Sys2Proof
end

