-- ==== Sys2Proof/Laws/Scheduler.lean ====
section
/-! SUPPORT. What EVAL and LOAD can do, from any state with a canonical memory. -/

namespace Sys2Proof
namespace Machine

/-- Whatever the registers' widths are, a register that held a value of its width still does. -/
abbrev KeepsRange (s t : State) : Prop := s.params.Valid → RegistersInRange s → RegistersInRange t

theorem KeepsRange.trans {s t u : State} (hp : t.params = s.params) (h : KeepsRange s t) (h' : KeepsRange t u) :
    KeepsRange s u := fun hv hr => h' (hp ▸ hv) (h hv hr)

/-- Where the four registers and the parameters stand as before, so do their ranges. -/
theorem keepsRange_of {s t : State} (hp : t.params = s.params) (hs : t.sp = s.sp) : KeepsRange s t := by
  rintro - ⟨h1, h2, h3, h4⟩
  constructor <;> rw [hp, hs] <;> assumption

/-- What EVAL and LOAD leave alone before the timer is programmed. -/
structure Untouched (s t : State) : Prop where
  params : t.params = s.params
  tm : t.tm = s.tm
  cnt : t.cnt = s.cnt
  fault : t.fault = s.fault
  step : t.pins.step = s.pins.step
  im : t.im = s.im
  inIrq : t.inIrq = s.inIrq
  latch : t.latch = s.latch
  result : t.result = s.result
  inputs : t.inputs = s.inputs
  running : t.sp.running = s.sp.running
  prestepEn : t.sp.prestepEn = s.sp.prestepEn
  life : t.sp.life = s.sp.life
  cmdPtr : t.sp.cmdPtr = s.sp.cmdPtr
  consumer : t.sp.consumer = s.sp.consumer
  wf : Memory.wf t.params t.mem
  range : KeepsRange s t

theorem Untouched.trans {s t u : State} (h : Untouched s t) (h' : Untouched t u) : Untouched s u where
  params := h'.params.trans h.params
  tm := h'.tm.trans h.tm
  cnt := h'.cnt.trans h.cnt
  fault := h'.fault.trans h.fault
  step := h'.step.trans h.step
  im := h'.im.trans h.im
  inIrq := h'.inIrq.trans h.inIrq
  latch := h'.latch.trans h.latch
  result := h'.result.trans h.result
  inputs := h'.inputs.trans h.inputs
  running := h'.running.trans h.running
  prestepEn := h'.prestepEn.trans h.prestepEn
  life := h'.life.trans h.life
  cmdPtr := h'.cmdPtr.trans h.cmdPtr
  consumer := h'.consumer.trans h.consumer
  wf := h'.wf
  range := h.range.trans h.params h'.range

/-- EVAL touches DISC and the count of free values alone. -/
structure EvalFrame (s t : State) : Prop extends Untouched s t where
  sp : t.sp = s.sp
  pins : t.pins = s.pins
  trace : t.trace = s.trace

theorem evalFrame_of_mem (s : State) {m : Memory} (n : Nat) (h : Memory.wf s.params m) :
    EvalFrame s { s with mem := m, freeCount := n } :=
  ⟨⟨rfl, rfl, rfl, rfl, rfl, rfl, rfl, rfl, rfl, rfl, rfl, rfl, rfl, rfl, rfl, h, keepsRange_of rfl rfl⟩, rfl, rfl, rfl⟩

theorem runs_evalSegment {p : Nat} {s : State} (hm : Memory.wf s.params s.mem) :
    Runs (evalSegment p) s (fun _ t => EvalFrame s t) (Outer (EvalFrame s)) := by
  unfold evalSegment
  refine runs_memRead_bind hm fun disc n _ => runs_memRead_bind hm fun amul n' _ => ?_
  have start : EvalFrame s { s with freeCount := n' } := evalFrame_of_mem s n' hm
  refine runs_get_bind (runs_check_bind (fun _ => runs_check_bind (fun _ => runs_check_bind (fun _ =>
    runs_memWrite_bind hm (fun m hm' => ?_) ⟨rfl, start⟩) ⟨rfl, start⟩) ⟨rfl, start⟩) ⟨rfl, start⟩)
  have wrote : EvalFrame s { s with mem := m, freeCount := n' } := evalFrame_of_mem s n' hm'
  split
  · exact runs_pure wrote
  · refine runs_check_bind (fun _ => runs_check_bind (fun _ => ?_) ⟨rfl, wrote⟩) ⟨rfl, wrote⟩
    exact runs_memRead_bind hm' fun tmul n'' _ => runs_pure (evalFrame_of_mem s n'' hm')

/-- The seeds and the first EVAL of a segment: SP_POS, SP_TIME, SP_V0, DISC and the count of free values alone. -/
structure SeedFrame (s t : State) : Prop extends Untouched s t where
  notEnded : t.sp.notEnded = s.sp.notEnded
  notDecel : t.sp.notDecel = s.sp.notDecel
  pins : t.pins = s.pins
  trace : t.trace = s.trace

theorem EvalFrame.seed {s t : State} (h : EvalFrame s t) : SeedFrame s t where
  toUntouched := h.toUntouched
  notEnded := by rw [h.sp]
  notDecel := by rw [h.sp]
  pins := h.pins
  trace := h.trace

theorem SeedFrame.trans {s t u : State} (h : SeedFrame s t) (h' : SeedFrame t u) : SeedFrame s u where
  toUntouched := h.toUntouched.trans h'.toUntouched
  notEnded := h'.notEnded.trans h.notEnded
  notDecel := h'.notDecel.trans h.notDecel
  pins := h'.pins.trans h.pins
  trace := h'.trace.trans h.trace

theorem seedFrame_of_sp (s : State) (pos : Nat) (time : Time) (v0 : Nat) (h : Memory.wf s.params s.mem)
    (hr : s.params.Valid → RegistersInRange s →
      pos < 2 ^ s.params.stepBits ∧ v0 < 2 ^ (s.params.stepBits + s.params.discPrec)) :
    SeedFrame s { s with sp := { s.sp with pos := pos, time := time, v0 := v0 } } :=
  ⟨⟨rfl, rfl, rfl, rfl, rfl, rfl, rfl, rfl, rfl, rfl, rfl, rfl, rfl, rfl, rfl, h,
    fun hv hs => ⟨hs.cmdPtr, (hr hv hs).1, (hr hv hs).2, hs.consumer⟩⟩, rfl, rfl, rfl, rfl⟩

/-- The first position of a segment is one of the type uS. -/
theorem seedPos_lt {p : Params} {x : Nat} (acc : Bool) (hv : p.Valid) (hx : x < 2 ^ p.stepBits) :
    (if acc = true then 1 else x - 1) < 2 ^ p.stepBits := by
  split
  · exact Nat.one_lt_two_pow (Nat.one_le_iff_ne_zero.mp hv.stepBits)
  · omega

theorem runs_seedSegment {x : Nat} {acc : Bool} {amul : Int} {t0 tend : Time} {s : State} (hm : Memory.wf s.params s.mem)
    (hx : x < 2 ^ s.params.stepBits) :
    Runs (seedSegment x acc amul t0 tend) s (fun _ t => SeedFrame s t) (Outer (SeedFrame s)) := by
  unfold seedSegment
  refine runs_get_bind (runs_modify_bind (runs_check_bind (fun h0 => runs_check_bind (fun h1 => runs_modify ?_) ⟨rfl, ?_⟩)
    ⟨rfl, ?_⟩))
  · refine seedFrame_of_sp s _ _ _ hm fun hv _ => ⟨seedPos_lt acc hv hx, ?_⟩
    have h2 : (0 : Int) < 2 ^ (s.params.stepBits + s.params.discPrec) := by positivity
    unfold maxMagnitude at h1
    zify
    omega
  all_goals exact seedFrame_of_sp s _ _ s.sp.v0 hm fun hv hs => ⟨seedPos_lt acc hv hx, hs.v0⟩

theorem runs_firstEvent {p : Nat} {x : Nat} {acc : Bool} {t0 tend : Time} {s : State} (hm : Memory.wf s.params s.mem)
    (hx : x < 2 ^ s.params.stepBits) :
    Runs (firstEvent p x acc t0 tend) s (fun _ t => SeedFrame s t) (Outer (SeedFrame s)) := by
  unfold firstEvent
  split
  · exact runs_modify_bind (runs_pure (seedFrame_of_sp s _ _ _ hm fun _ hs => ⟨hs.pos, hs.v0⟩))
  · refine runs_memRead_bind hm fun amul n _ => ?_
    have start : SeedFrame s { s with freeCount := n } := (evalFrame_of_mem s n hm).seed
    refine runs_bind (runs_mono (runs_seedSegment hm hx) (fun _ t ht => ?_) fun v t ht => ⟨ht.1, start.trans ht.2⟩)
    refine runs_bind (runs_mono (runs_evalSegment ht.wf) (fun d u hu => ?_) fun v u hu =>
      ⟨hu.1, (start.trans ht).trans hu.2.seed⟩)
    exact runs_get_bind (runs_pure ((start.trans ht).trans hu.seed))

/-- LOAD before it programs the timer: it also sets the direction and the phase. -/
structure LoadFrame (s t : State) : Prop extends Untouched s t where
  trace : t.trace = s.trace ++ [.dirSet t.pins.dir]

theorem LoadFrame.seed {s t u : State} (h : LoadFrame s t) (h' : SeedFrame t u) : LoadFrame s u where
  toUntouched := h.toUntouched.trans h'.toUntouched
  trace := by rw [h'.trace, h.trace, h'.pins]

/-- LOAD changes what `LoadFrame` names, and then the timer is armed, or is not in the state to be. -/
theorem runs_loadCommand {p : Nat} {t0 : Time} {first : Bool} {s : State} {Q : Unit → State → Prop}
    {E : Violation → State → Prop} (hm : Memory.wf s.params s.mem) (he : ∀ v u, v.inner = false → LoadFrame s u → E v u)
    (he1 : ∀ u, LoadFrame s u → first = true → s.tm.irqEn = true → E .tmAlreadyArmed u)
    (he2 : ∀ u, LoadFrame s u → first = false → ¬ (s.inIrq = true ∧ s.tm.irqEn = true) → E .tmContext u)
    (h : ∀ u target, LoadFrame s u → (first = true → s.tm.irqEn = false) →
      (first = false → s.inIrq = true ∧ s.tm.irqEn = true) → Q () (armedAt target u)) :
    Runs (loadCommand p t0 first) s Q E := by
  unfold loadCommand
  refine runs_memRead_bind hm fun dirx n _ => runs_get_bind (runs_bind (runs_of_ok (setDirection_apply _ _)
    (runs_modify_bind ?_)))
  refine runs_memRead_bind hm fun tmul n' _ => runs_bind ?_
  have after : ∀ {w u : State}, SeedFrame w u → LoadFrame s w → LoadFrame s u := fun hu h => h.seed hu
  refine runs_mono (runs_firstEvent hm (Nat.mod_lt _ (by positivity))) (fun target u hu => ?_) fun v u hu =>
    he v u hu.1 (after hu.2 ⟨⟨rfl, rfl, rfl, rfl, rfl, rfl, rfl, rfl, rfl, rfl, rfl, rfl, rfl, rfl, rfl, hm,
      fun _ hs => ⟨hs.cmdPtr, hs.pos, hs.v0, hs.consumer⟩⟩, rfl⟩)
  have hf := after hu ⟨⟨rfl, rfl, rfl, rfl, rfl, rfl, rfl, rfl, rfl, rfl, rfl, rfl, rfl, rfl, rfl, hm,
    fun _ hs => ⟨hs.cmdPtr, hs.pos, hs.v0, hs.consumer⟩⟩, rfl⟩
  cases first
  · exact runs_timerSetNext (fun h1 h2 => h u target hf nofun fun _ => ⟨hf.inIrq ▸ h1, hf.tm ▸ h2⟩)
      fun hn => he2 u hf rfl (by rw [← hf.inIrq, ← hf.tm]; exact hn)
  · exact runs_timerSetFirst (fun h1 => h u target hf (fun _ => hf.tm ▸ h1) nofun) fun h1 => he1 u hf rfl (hf.tm ▸ h1)

end Machine
end Sys2Proof
end

