-- ==== Sys2Proof/Laws/Handler.lean ====
section
/-! SUPPORT. What a consumer can do inside a callback, and what the interrupt handler can do. -/

namespace Sys2Proof
namespace Machine

/-! ### FXU operations -/

/-- Only the result port. -/
abbrev ResultOnly (s t : State) : Prop := t = { s with result := t.result }

/-- An FX function raises no inner violation. -/
abbrev FxSafe (r : Except Violation Bounded) : Prop := ∀ v, r = .error v → v.inner = false

theorem fxSafe_make (v : Int) (sg : Bool) (n : Nat) : FxSafe (fxMakeValue v sg n) := by
  intro x h
  unfold fxMakeValue at h; split at h <;> cases h; rfl

theorem fxSafe_tos (a : Bounded) : FxSafe (fxTosValue a) := nofun

theorem fxSafe_tou (a : Bounded) : FxSafe (fxTouValue a) := by
  intro x h
  unfold fxTouValue at h; split at h <;> cases h; rfl

theorem fxSafe_widen (m : Nat) (a : Bounded) (n : Nat) : FxSafe (fxWidenValue m a n) := by
  intro x h
  unfold fxWidenValue at h; split at h <;> cases h; rfl

theorem fxSafe_shl (m : Nat) (a : Bounded) (n : Nat) : FxSafe (fxShlValue m a n) := by
  intro x h
  unfold fxShlValue at h; split at h <;> cases h; rfl

theorem fxSafe_shr (a : Bounded) (n : Nat) : FxSafe (fxShrValue a n) := by
  intro x h
  unfold fxShrValue at h; split at h <;> cases h; rfl

theorem fxSafe_narrow (a : Bounded) (n : Nat) : FxSafe (fxNarrowValue a n) := by
  intro x h
  unfold fxNarrowValue at h
  split at h
  · split at h <;> cases h; rfl
  · cases h; rfl

theorem fxSafe_add (m : Nat) (a b : Bounded) : FxSafe (fxAddValue m a b) := by
  intro x h
  unfold fxAddValue at h; dsimp only at h; split at h <;> cases h; rfl

theorem fxSafe_mul (m : Nat) (a b : Bounded) : FxSafe (fxMulValue m a b) := by
  intro x h
  unfold fxMulValue at h; dsimp only at h; split at h <;> cases h; rfl

theorem fxSafe_sub (m : Nat) (a b : Bounded) : FxSafe (fxSubValue m a b) := by
  intro x h
  unfold fxSubValue at h; dsimp only at h; split at h <;> split at h <;> cases h <;> rfl

theorem fxSafe_div (m : Nat) (a b : Bounded) (n : Nat) : FxSafe (fxDivValue m a b n) := by
  intro x h
  unfold fxDivValue at h
  split at h
  · split at h
    · dsimp only at h; split at h <;> cases h; rfl
    · cases h; rfl
  · cases h; rfl

theorem fxSafe_sqrt (m : Nat) (a : Bounded) (n : Nat) : FxSafe (fxSqrtValue m a n) := by
  intro x h
  unfold fxSqrtValue at h
  split at h
  · dsimp only at h; split at h <;> cases h; rfl
  · cases h; rfl

theorem runs_presentOrRaise {r : Except Violation Bounded} {s u : State} (hr : FxSafe r) (h : ResultOnly s u) :
    Runs (presentOrRaise r) u (fun _ t => ResultOnly s t) (Outer (ResultOnly s)) := by
  cases r with
  | ok b => exact runs_of_ok (present_apply b u) (by rw [h]; rfl)
  | error v => exact runs_raise ⟨hr v rfl, h⟩

theorem runs_typedOperand_bind {β : Type} {signed : Bool} {w : WidthField} {p : PortWord} {f : Bounded → Op β} {s : State}
    {Q : β → State → Prop} {E : Violation → State → Prop}
    (h : ∀ v, Runs (f ⟨signed, w.toNat, v⟩) s Q E) (he : E .fxRange s) :
    Runs (typedOperand signed w p >>= f) s Q E := by
  by_cases hv : fits (portValue s.params.maxW signed p) signed w.toNat = true
  · exact runs_congr (by rw [typedOperand_bind, if_pos hv]) (h _)
  · exact runs_congr (by rw [typedOperand_bind, if_neg hv]) (runs_raise he)

theorem runs_requireWidth_bind {β : Type} {w : WidthField} {f : Unit → Op β} {s : State} {Q : β → State → Prop}
    {E : Violation → State → Prop} (h : Runs (f ()) s Q E) (he : E .illegalOp s) : Runs (requireWidth w >>= f) s Q E := by
  by_cases hw : legalWidth s.params.maxW w = true
  · exact runs_congr (by rw [requireWidth_bind, if_pos hw]) h
  · exact runs_congr (by rw [requireWidth_bind, if_neg hw]) (runs_raise he)

theorem runs_unaryFx {sa : Bool} {wa : WidthField} {f : Nat → Bounded → Except Violation Bounded} (hf : ∀ m a, FxSafe (f m a))
    (s : State) : Runs (unaryFx sa wa f) s (fun _ t => ResultOnly s t) (Outer (ResultOnly s)) := by
  unfold unaryFx
  exact runs_onPort (fun _ => rfl) fun _ => runs_requireWidth_bind
    (runs_get_bind (runs_typedOperand_bind (fun _ => runs_get_bind (runs_presentOrRaise (hf _ _) rfl)) ⟨rfl, rfl⟩))
    ⟨rfl, rfl⟩

theorem runs_binaryFx {sa : Bool} {wa : WidthField} {sb : Bool} {wb : WidthField}
    {f : Nat → Bounded → Bounded → Except Violation Bounded} (hf : ∀ m a b, FxSafe (f m a b)) (s : State) :
    Runs (binaryFx sa wa sb wb f) s (fun _ t => ResultOnly s t) (Outer (ResultOnly s)) := by
  unfold binaryFx
  exact runs_onPort (fun _ => rfl) fun _ => runs_requireWidth_bind (runs_requireWidth_bind
    (runs_get_bind (runs_typedOperand_bind (fun _ => runs_get_bind (runs_typedOperand_bind
      (fun _ => runs_get_bind (runs_presentOrRaise (hf _ _ _) rfl)) ⟨rfl, rfl⟩)) ⟨rfl, rfl⟩)) ⟨rfl, rfl⟩) ⟨rfl, rfl⟩

theorem runs_fxMake {sa : Bool} {wa : WidthField} (s : State) :
    Runs (fxMake sa wa) s (fun _ t => ResultOnly s t) (Outer (ResultOnly s)) := by
  unfold fxMake
  exact runs_onPort (fun _ => rfl) fun _ => runs_requireWidth_bind
    (runs_get_bind (runs_presentOrRaise (fxSafe_make _ _ _) rfl)) ⟨rfl, rfl⟩

/-! ### Consumers -/

/-- What every action of a consumer inside a callback leaves alone (43_dispatch.md R164, 60_exceptions.md R193). -/
structure CallbackFrame (s t : State) : Prop where
  params : t.params = s.params
  sp : t.sp = s.sp
  tm : t.tm = s.tm
  fault : t.fault = s.fault
  pins : t.pins = s.pins
  trace : t.trace = s.trace
  im : t.im = s.im
  inIrq : t.inIrq = s.inIrq
  inputs : t.inputs = s.inputs
  wf : Memory.wf t.params t.mem

theorem CallbackFrame.refl {s : State} (h : Memory.wf s.params s.mem) : CallbackFrame s s :=
  ⟨rfl, rfl, rfl, rfl, rfl, rfl, rfl, rfl, rfl, h⟩

theorem CallbackFrame.trans {s t u : State} (h : CallbackFrame s t) (h' : CallbackFrame t u) : CallbackFrame s u where
  params := h'.params.trans h.params
  sp := h'.sp.trans h.sp
  tm := h'.tm.trans h.tm
  fault := h'.fault.trans h.fault
  pins := h'.pins.trans h.pins
  trace := h'.trace.trans h.trace
  im := h'.im.trans h.im
  inIrq := h'.inIrq.trans h.inIrq
  inputs := h'.inputs.trans h.inputs
  wf := h'.wf

theorem CallbackFrame.of_result {s t : State} (hm : Memory.wf s.params s.mem) (h : ResultOnly s t) : CallbackFrame s t := by
  rw [h]; exact ⟨rfl, rfl, rfl, rfl, rfl, rfl, rfl, rfl, rfl, hm⟩

/-- The frame around the counter, the latch, the result, the memory and the free values. -/
theorem callbackFrame_of (s : State) {cnt : Time} {m : Memory} {l : Latch} {r : Option Result} {n : Nat}
    (hm : Memory.wf s.params m) :
    CallbackFrame s { s with cnt := cnt, mem := m, latch := l, result := r, freeCount := n } :=
  ⟨rfl, rfl, rfl, rfl, rfl, rfl, rfl, rfl, rfl, hm⟩

/-- What an operation does inside a callback. -/
abbrev RunsInCallback (x : Op Unit) (s : State) : Prop := Runs x s (fun _ t => CallbackFrame s t) (Outer (CallbackFrame s))

theorem runsInCallback_fx {x : Op Unit} {s : State} (hm : Memory.wf s.params s.mem)
    (h : Runs x s (fun _ t => ResultOnly s t) (Outer (ResultOnly s))) : RunsInCallback x s :=
  runs_mono h (fun _ _ ht => CallbackFrame.of_result hm ht) fun _ _ ht => ⟨ht.1, CallbackFrame.of_result hm ht.2⟩

theorem runsInCallback_illegalWord {s : State} (hm : Memory.wf s.params s.mem) : RunsInCallback illegalWord s :=
  runs_onPort (fun _ => CallbackFrame.of_result hm rfl) fun _ => runs_raise ⟨rfl, CallbackFrame.of_result hm rfl⟩

/-- An operation of background context raises SP_CONTEXT before it changes anything (60_exceptions.md R193). -/
theorem runsInCallback_background {body : Op Unit} {s : State} (hm : Memory.wf s.params s.mem) (hi : s.inIrq = true) :
    RunsInCallback (onPort (requireBackground >>= fun _ => body)) s := by
  refine runs_onPort (fun _ => CallbackFrame.of_result hm rfl) fun _ => ?_
  refine runs_congr (y := raise .spContext) (t := s.quiet) ?_ (runs_raise ⟨rfl, CallbackFrame.of_result hm rfl⟩)
  unfold requireBackground
  rw [op_bind_assoc, op_get_bind, op_check_bind, if_neg (by simp [hi])]

theorem runsInCallback_spStart {cid : ConsumerId} {s : State} (hm : Memory.wf s.params s.mem) (hi : s.inIrq = true) :
    RunsInCallback (spStart cid) s := by
  unfold spStart
  refine runs_onPort (fun _ => CallbackFrame.of_result hm rfl) fun _ => runs_get_bind ?_
  refine runs_timeOperand_bind (fun _ _ => ?_) ⟨rfl, CallbackFrame.of_result hm rfl⟩
  refine runs_congr (y := raise .spContext) (t := s.quiet) ?_ (runs_raise ⟨rfl, CallbackFrame.of_result hm rfl⟩)
  unfold requireBackground
  rw [op_bind_assoc, op_get_bind, op_check_bind, if_neg (by simp [hi])]

theorem runsInCallback_spGencmd {dir : Bool} {s : State} (hm : Memory.wf s.params s.mem) : RunsInCallback (spGencmd dir) s := by
  unfold spGencmd
  have quiet : CallbackFrame s s.quiet := CallbackFrame.of_result hm rfl
  refine runs_onPort (fun _ => quiet) fun _ => runs_get_bind ?_
  refine runs_check_bind (fun _ => runs_check_bind (fun hp => runs_check_bind (fun _ => ?_) ⟨rfl, quiet⟩) ⟨rfl, quiet⟩)
    ⟨rfl, quiet⟩
  refine runs_memFill_bind hm (Nat.pos_of_ne_zero hp) (pointer_lt _ _) (fun m h => runs_modify ?_) ⟨rfl, quiet⟩
  refine ⟨?_, ?_, ?_, ?_, ?_, ?_, ?_, ?_, ?_, ?_⟩
  case refine_10 => rw [spoilIfOwned_params]; exact spoilIfOwned_wf _ h
  all_goals unfold spoilIfOwned; split <;> rfl

/-- Showing a register touches only the result port and the count of free values. -/
theorem runs_presentRegister {s u : State} (w n : Nat) (h : CallbackFrame s u) :
    Runs (presentRegister w n) u (fun _ t => CallbackFrame s t) (Outer (CallbackFrame s)) := by
  by_cases hw : n < 2 ^ u.params.maxW
  · exact runs_of_ok ((presentRegister_apply w n u).trans (if_pos hw)) (h.trans (CallbackFrame.of_result h.wf rfl))
  · exact runs_of_ok ((presentRegister_apply w n u).trans (if_neg hw)) (h.trans (callbackFrame_of u h.wf))

theorem runsInCallback_tmGe {s : State} (hm : Memory.wf s.params s.mem) : RunsInCallback tmGe s := by
  unfold tmGe
  have quiet : CallbackFrame s s.quiet := CallbackFrame.of_result hm rfl
  exact runs_onPort (fun _ => quiet) fun _ => runs_get_bind (runs_timeOperand_bind (fun _ _ => runs_get_bind
    (runs_timeOperand_bind (fun _ _ => runs_of_ok (present_apply _ _) (CallbackFrame.of_result hm rfl)) ⟨rfl, quiet⟩)) ⟨rfl, quiet⟩)

theorem runsInCallback_tmGettime {s : State} (hm : Memory.wf s.params s.mem) : RunsInCallback tmGettime s := by
  unfold tmGettime
  exact runs_onPort (fun _ => CallbackFrame.of_result hm rfl) fun _ => runs_bind (runs_of_ok
    (a := s.cnt + BitVec.ofNat 32 s.latch.lag) (t := advanceCounter s.latch.lag s.quiet) rfl
    (runs_presentRegister _ _ (callbackFrame_of s hm)))

theorem runsInCallback_sysRdreg {reg : BitVec 8} {s : State} (hm : Memory.wf s.params s.mem) : RunsInCallback (sysRdreg reg) s := by
  unfold sysRdreg
  have quiet : CallbackFrame s s.quiet := CallbackFrame.of_result hm rfl
  refine runs_bind (runs_of_ok (clearResult_apply s) (runs_check_bind (fun _ => runs_bind ?_) ⟨rfl, quiet⟩))
  by_cases h : reg = 11
  · refine runs_of_ok (a := some ((s.cnt + BitVec.ofNat 32 s.latch.lag).toNat, 32))
      (t := { s.quiet with cnt := s.cnt + BitVec.ofNat 32 s.latch.lag }) ?_ ?_
    · rw [atomically_apply]; subst h; rfl
    · exact runs_presentRegister _ _ (callbackFrame_of s hm)
  · refine runs_of_ok (a := registerValue { s.quiet with im := true } reg.toNat) (t := s.quiet) ?_ ?_
    · rw [atomically_apply, op_ite, if_neg h]; rfl
    · cases registerValue { s.quiet with im := true } reg.toNat with
      | none => exact runs_raise ⟨rfl, quiet⟩
      | some p => exact runs_presentRegister _ _ quiet

/-- Every operation a consumer can issue on its own axis. -/
theorem runsInCallback_portOperation (i : Instr) {s : State} (hm : Memory.wf s.params s.mem) (hi : s.inIrq = true) :
    RunsInCallback (portOperation i) s := by
  cases i
  case fxMake => exact runsInCallback_fx hm (runs_fxMake s)
  case fxTos => exact runsInCallback_fx hm (runs_unaryFx (fun _ a => fxSafe_tos a) s)
  case fxTou => exact runsInCallback_fx hm (runs_unaryFx (fun _ a => fxSafe_tou a) s)
  case fxWiden n => exact runsInCallback_fx hm (runs_unaryFx (fun m a => fxSafe_widen m a n.toNat) s)
  case fxNarrow n => exact runsInCallback_fx hm (runs_unaryFx (fun _ a => fxSafe_narrow a n.toNat) s)
  case fxShl n => exact runsInCallback_fx hm (runs_unaryFx (fun m a => fxSafe_shl m a n.toNat) s)
  case fxShr n => exact runsInCallback_fx hm (runs_unaryFx (fun _ a => fxSafe_shr a n.toNat) s)
  case fxSqrt n => exact runsInCallback_fx hm (runs_unaryFx (fun m a => fxSafe_sqrt m a n.toNat) s)
  case fxAdd => exact runsInCallback_fx hm (runs_binaryFx fxSafe_add s)
  case fxSub => exact runsInCallback_fx hm (runs_binaryFx fxSafe_sub s)
  case fxMul => exact runsInCallback_fx hm (runs_binaryFx fxSafe_mul s)
  case fxDiv n => exact runsInCallback_fx hm (runs_binaryFx (fun m a b => fxSafe_div m a b n.toNat) s)
  case tmGettime => exact runsInCallback_tmGettime hm
  case tmGe => exact runsInCallback_tmGe hm
  case spInit | spDeinit | spStop | spPrestep => exact runsInCallback_background hm hi
  case spStart => exact runsInCallback_spStart hm hi
  case spGencmd => exact runsInCallback_spGencmd hm
  case sysRdreg => exact runsInCallback_sysRdreg hm
  all_goals exact runsInCallback_illegalWord hm

theorem fillRecord_frame {s : State} (p : Nat) (r : CommandRecord) (hm : Memory.wf s.params s.mem) :
    CallbackFrame s (fillRecord p r s) := by
  refine ⟨?_, ?_, ?_, ?_, ?_, ?_, ?_, ?_, ?_, ?_⟩
  case refine_10 => rw [fillRecord_params]; exact fillRecord_wf p r hm
  all_goals simp

theorem runsInCallback_action (a : CallbackAction) {s : State} (hm : Memory.wf s.params s.mem) (hi : s.inIrq = true) :
    RunsInCallback (callbackAction a) s := by
  cases a with
  | operate r =>
    refine runs_modify_bind ?_
    have start : CallbackFrame s { s with latch := latchOf r } := callbackFrame_of s hm
    refine runs_mono (Q := fun _ t => CallbackFrame { s with latch := latchOf r } t) ?_ (fun _ _ h => start.trans h)
      (fun v u (h : Outer (CallbackFrame _) v u) => ⟨h.1, start.trans h.2⟩)
    cases decode r.word with
    | ok i => exact runsInCallback_portOperation i hm hi
    | error e => exact runsInCallback_illegalWord hm
  | fill p r => exact runs_modify (fillRecord_frame p r hm)
  | free p => exact runs_modify (callbackFrame_of s (memErase_wf _ hm))

theorem runsInCallback_actions (l : List CallbackAction) {s : State} (hm : Memory.wf s.params s.mem) (hi : s.inIrq = true) :
    RunsInCallback (callbackActions l) s := by
  induction l generalizing s with
  | nil => exact runs_pure (CallbackFrame.refl hm)
  | cons a rest ih =>
    refine runs_bind (runs_mono (runsInCallback_action a hm hi) (fun _ t ht => ?_) fun _ _ h => h)
    exact runs_mono (ih ht.wf (ht.inIrq ▸ hi)) (fun _ _ h => ht.trans h) fun _ _ h => ⟨h.1, ht.trans h.2⟩

theorem runsInCallback_runConsumer (r : Reply) {s : State} (hm : Memory.wf s.params s.mem) (hi : s.inIrq = true) :
    RunsInCallback (runConsumer r) s := by
  refine runs_get_bind (runs_bind (runs_mono (runsInCallback_actions r.actions hm hi) (fun _ t ht => ?_) fun _ _ h => h))
  split
  · exact runs_modify (ht.trans (callbackFrame_of t ht.wf))
  · trivial

/-- A consumer's answer leaves the registers alone, and its pointer is one of PTR_BITS bits. -/
theorem runs_commandAnswer {s : State} (hm : Memory.wf s.params s.mem) (hi : s.inIrq = true) :
    Runs commandAnswer s (fun ans t => CallbackFrame s t ∧ ∀ q, ans = .proceed q → q < 2 ^ s.params.ptrBits)
      (Outer (CallbackFrame s)) := by
  refine runs_get_bind ?_
  cases s.latch.reply with
  | none =>
    refine ⟨callbackFrame_of s hm, fun q hq => ?_⟩
    split at hq
    · cases hq; exact BitVec.isLt _
    · cases hq
  | some r =>
    refine runs_bind (runs_mono (runsInCallback_runConsumer r hm hi) (fun _ t h => runs_get_bind (runs_pure ⟨h, ?_⟩))
      fun _ _ h => h)
    intro q hq
    rw [← h.params]
    cases hn : r.next <;> rw [hn] at hq <;> cases hq
    exact pointer_lt _ _

theorem runs_prestepAnswer {s : State} (hm : Memory.wf s.params s.mem) (hi : s.inIrq = true) :
    Runs prestepAnswer s (fun _ t => CallbackFrame s t) (Outer (CallbackFrame s)) := by
  refine runs_get_bind ?_
  cases s.latch.reply with
  | none => exact callbackFrame_of s hm
  | some r => exact runs_bind (runs_mono (runsInCallback_runConsumer r hm hi) (fun _ _ h => runs_pure h) fun _ _ h => h)

/-- A callback adds its event to the trace. -/
theorem runs_commandCallback {i : Nat} {p : Nat} {s : State} (hm : Memory.wf s.params s.mem) (hi : s.inIrq = true) :
    Runs (commandCallback i p) s
      (fun ans t => (∃ u, CallbackFrame s u ∧ t = { u with trace := s.trace ++ [.cmdCb i p ans] }) ∧
        ∀ q, ans = .proceed q → q < 2 ^ s.params.ptrBits) (Outer (CallbackFrame s)) :=
  runs_bind (runs_mono (runs_commandAnswer hm hi) (fun ans t ht =>
    runs_of_ok (t := { t with trace := t.trace ++ [.cmdCb i p ans] }) rfl ⟨⟨t, ht.1, by rw [ht.1.trace]⟩, ht.2⟩)
    fun _ _ h => h)

theorem runs_prestepCallback {i : Nat} {s : State} (hm : Memory.wf s.params s.mem) (hi : s.inIrq = true) :
    Runs (prestepCallback i) s
      (fun ans t => ∃ u, CallbackFrame s u ∧ t = { u with trace := s.trace ++ [.preCb i ans] }) (Outer (CallbackFrame s)) :=
  runs_bind (runs_mono (runs_prestepAnswer hm hi) (fun ans t ht =>
    runs_of_ok (t := { t with trace := t.trace ++ [.preCb i ans] }) rfl ⟨t, ht, by rw [ht.trace]⟩) fun _ _ h => h)

/-! ### The handler -/

/-- What SP.STEP leaves alone or coherent, whatever it does, inside the handler of an armed timer. -/
structure HandlerFrame (s t : State) : Prop where
  params : t.params = s.params
  fault : t.fault = s.fault
  im : t.im = s.im
  inIrq : t.inIrq = s.inIrq
  inputs : t.inputs = s.inputs
  prestepEn : t.sp.prestepEn = s.sp.prestepEn
  life : t.sp.life = s.sp.life
  consumer : t.sp.consumer = s.sp.consumer
  irqEn : t.tm.irqEn = s.tm.irqEn
  tlife : t.tm.tlife = s.tm.tlife
  ahead : timeGe s.tm.cmp s.tm.time = true → timeGe t.tm.cmp t.tm.time = true
  armed : s.tm.armed = s.params.assertions → t.tm.armed = s.params.assertions
  step : s.pins.step = false → t.pins.step = false
  wf : Memory.wf t.params t.mem
  range : KeepsRange s t

theorem HandlerFrame.refl {s : State} (h : Memory.wf s.params s.mem) : HandlerFrame s s :=
  ⟨rfl, rfl, rfl, rfl, rfl, rfl, rfl, rfl, rfl, rfl, id, id, id, h, fun _ => id⟩

theorem HandlerFrame.trans {s t u : State} (h : HandlerFrame s t) (h' : HandlerFrame t u) : HandlerFrame s u where
  params := h'.params.trans h.params
  fault := h'.fault.trans h.fault
  im := h'.im.trans h.im
  inIrq := h'.inIrq.trans h.inIrq
  inputs := h'.inputs.trans h.inputs
  prestepEn := h'.prestepEn.trans h.prestepEn
  life := h'.life.trans h.life
  consumer := h'.consumer.trans h.consumer
  irqEn := h'.irqEn.trans h.irqEn
  tlife := h'.tlife.trans h.tlife
  ahead := h'.ahead ∘ h.ahead
  armed := fun a => h.params ▸ h'.armed (h.params.symm ▸ h.armed a)
  step := h'.step ∘ h.step
  wf := h'.wf
  range := h.range.trans h.params h'.range

theorem CallbackFrame.handler {s t : State} (h : CallbackFrame s t) : HandlerFrame s t where
  params := h.params
  fault := h.fault
  im := h.im
  inIrq := h.inIrq
  inputs := h.inputs
  prestepEn := by rw [h.sp]
  life := by rw [h.sp]
  consumer := by rw [h.sp]
  irqEn := by rw [h.tm]
  tlife := by rw [h.tm]
  ahead := fun a => by rwa [h.tm]
  armed := fun a => by rwa [h.tm]
  step := fun a => by rwa [h.pins]
  wf := h.wf
  range := keepsRange_of h.params h.sp

theorem Untouched.handler {s t : State} (h : Untouched s t) : HandlerFrame s t where
  params := h.params
  fault := h.fault
  im := h.im
  inIrq := h.inIrq
  inputs := h.inputs
  prestepEn := h.prestepEn
  life := h.life
  consumer := h.consumer
  irqEn := by rw [h.tm]
  tlife := by rw [h.tm]
  ahead := fun a => by rwa [h.tm]
  armed := fun a => by rwa [h.tm]
  step := fun a => by rwa [h.step]
  wf := h.wf
  range := h.range

theorem armedAt_handler {s : State} (time : Time) (hm : Memory.wf s.params s.mem) (h : s.tm.irqEn = true) :
    HandlerFrame s (armedAt time s) :=
  ⟨rfl, rfl, rfl, rfl, rfl, rfl, rfl, rfl, h.symm, rfl, fun _ => timeGe_rebase _ _ _, fun _ => rfl, id, hm,
    keepsRange_of rfl rfl⟩

/-- The frame around the scheduler registers SP.STEP itself writes. -/
theorem handlerFrame_of_sp (s : State) {running notEnded : Bool} {p : Nat} {pos : Nat} {time : Time}
    (hm : Memory.wf s.params s.mem)
    (hr : s.params.Valid → RegistersInRange s → p < 2 ^ s.params.ptrBits ∧ pos < 2 ^ s.params.stepBits) :
    HandlerFrame s { s with
      sp := { s.sp with running := running, notEnded := notEnded, cmdPtr := p, pos := pos, time := time } } :=
  ⟨rfl, rfl, rfl, rfl, rfl, rfl, rfl, rfl, rfl, rfl, id, id, id, hm,
    fun hv hs => ⟨(hr hv hs).1, (hr hv hs).2, hs.v0, hs.consumer⟩⟩

/-- The frame around the pins, the trace and the count of free values. -/
theorem handlerFrame_of_trace (s : State) {pins : Pins} {trace : List OutEvent} {n : Nat} (hm : Memory.wf s.params s.mem)
    (hp : s.pins.step = false → pins.step = false) :
    HandlerFrame s { s with pins := pins, trace := trace, freeCount := n } :=
  ⟨rfl, rfl, rfl, rfl, rfl, rfl, rfl, rfl, rfl, rfl, id, id, hp, hm, keepsRange_of rfl rfl⟩

/-- SP.STEP ends with RUNNING as it answers keep, and a run that goes on has a Command. -/
structure HandlerEnd (s : State) (keep : Bool) (t : State) : Prop extends HandlerFrame s t where
  running : t.sp.running = keep
  command : keep = true → t.sp.cmdPtr ≠ 0

/-- The last arming of a handler that goes on. -/
theorem runs_setNext {s t : State} {time : Time} {E : Violation → State → Prop} (h : HandlerFrame s t) (hi : s.inIrq = true)
    (ha : s.tm.irqEn = true) (hr : t.sp.running = true) (hp : t.sp.cmdPtr ≠ 0) :
    Runs (timerSetNext time) t (fun _ u => HandlerEnd s true u) E :=
  runs_timerSetNext
    (fun _ _ => ⟨h.trans (armedAt_handler time h.wf (h.irqEn.trans ha)), hr, fun _ => hp⟩)
    fun hn => absurd ⟨h.inIrq.trans hi, h.irqEn.trans ha⟩ hn

theorem runs_advanceUp {p : Nat} {x : Nat} {s t : State} (h : HandlerFrame s t) (hi : s.inIrq = true)
    (ha : s.tm.irqEn = true) (hr : t.sp.running = true) (hp : t.sp.cmdPtr ≠ 0) :
    Runs (advanceUp p x) t (fun _ u => HandlerEnd s true u) (Outer (HandlerFrame s)) := by
  unfold advanceUp
  refine runs_get_bind ?_
  split
  · refine runs_modify_bind (runs_memRead_bind h.wf fun tmul n _ => runs_modify_bind (runs_get_bind ?_))
    exact runs_setNext (h.trans ⟨rfl, rfl, rfl, rfl, rfl, rfl, rfl, rfl, rfl, rfl, id, id, id, h.wf,
      fun _ hs => ⟨hs.cmdPtr, hs.pos, hs.v0, hs.consumer⟩⟩) hi ha hr hp
  · refine runs_bind ?_
    unfold writePos
    refine runs_get_bind (runs_check_bind (fun hlt => runs_modify ?_) ⟨rfl, h⟩)
    have hpos := h.trans (handlerFrame_of_sp t (running := t.sp.running) (notEnded := t.sp.notEnded) (p := t.sp.cmdPtr)
      (pos := t.sp.pos + 1) (time := t.sp.time) h.wf fun _ hs => ⟨hs.cmdPtr, hlt⟩)
    refine runs_bind (runs_mono (runs_evalSegment h.wf) (fun d u hu => ?_) fun v u hu =>
      ⟨hu.1, hpos.trans hu.2.toUntouched.handler⟩)
    exact runs_get_bind (runs_setNext (hpos.trans hu.toUntouched.handler) hi ha (hu.running.trans hr)
      (by rw [hu.cmdPtr]; exact hp))

theorem runs_advanceDown {p : Nat} {s t : State} (h : HandlerFrame s t) (hi : s.inIrq = true)
    (ha : s.tm.irqEn = true) (hr : t.sp.running = true) (hp : t.sp.cmdPtr ≠ 0) :
    Runs (advanceDown p) t (fun _ u => HandlerEnd s true u) (Outer (HandlerFrame s)) := by
  unfold advanceDown
  refine runs_get_bind ?_
  split
  · refine runs_modify_bind (runs_get_bind ?_)
    exact runs_setNext (h.trans ⟨rfl, rfl, rfl, rfl, rfl, rfl, rfl, rfl, rfl, rfl, id, id, id, h.wf,
      fun _ hs => ⟨hs.cmdPtr, hs.pos, hs.v0, hs.consumer⟩⟩) hi ha hr hp
  · refine runs_bind ?_
    unfold writePos
    refine runs_get_bind (runs_check_bind (fun hlt => runs_modify ?_) ⟨rfl, h⟩)
    have hpos := h.trans (handlerFrame_of_sp t (running := t.sp.running) (notEnded := t.sp.notEnded) (p := t.sp.cmdPtr)
      (pos := t.sp.pos - 1) (time := t.sp.time) h.wf fun _ hs => ⟨hs.cmdPtr, hlt⟩)
    refine runs_bind (runs_mono (runs_evalSegment h.wf) (fun d u hu => ?_) fun v u hu =>
      ⟨hu.1, hpos.trans hu.2.toUntouched.handler⟩)
    exact runs_get_bind (runs_setNext (hpos.trans hu.toUntouched.handler) hi ha (hu.running.trans hr)
      (by rw [hu.cmdPtr]; exact hp))

theorem runs_emitStep {p : Nat} {s t : State} (h : HandlerFrame s t) (hi : s.inIrq = true)
    (ha : s.tm.irqEn = true) (hr : t.sp.running = true) (hp : t.sp.cmdPtr ≠ 0) :
    Runs (emitStep p) t (fun keep u => HandlerEnd s keep u) (Outer (HandlerFrame s)) := by
  unfold emitStep
  refine runs_bind (runs_of_ok (pulse_apply t) (runs_memRead_bind h.wf fun dirx n _ => runs_get_bind ?_))
  have hpulse : HandlerFrame s { t with
      pins := { t.pins with step := false }, trace := t.trace ++ [.pulseOn, .pulseOff], freeCount := n } :=
    h.trans (handlerFrame_of_trace t h.wf fun _ => rfl)
  cases hd : t.sp.notDecel
  · refine runs_congr (y := advanceDown p >>= fun _ => pure true) (by rw [if_neg (by simp)]) ?_
    exact runs_bind (runs_mono (runs_advanceDown hpulse hi ha hr hp) (fun _ _ hu => runs_pure hu) fun _ _ hu => hu)
  · refine runs_congr (y := advanceUp p (dirxSteps t.params dirx) >>= fun _ => pure true) (by rw [if_pos (by simp)]) ?_
    exact runs_bind (runs_mono (runs_advanceUp hpulse hi ha hr hp) (fun _ _ hu => runs_pure hu) fun _ _ hu => hu)

theorem runs_endRun {s t : State} (h : HandlerFrame s t) :
    Runs endRun t (fun keep u => HandlerEnd s keep u) (Outer (HandlerFrame s)) :=
  runs_modify_bind (runs_pure ⟨h.trans (handlerFrame_of_sp t h.wf fun _ hs => ⟨hs.cmdPtr, hs.pos⟩), rfl, nofun⟩)

theorem runs_pulseInterrupt {p : Nat} {s : State} (hm : Memory.wf s.params s.mem) (hi : s.inIrq = true)
    (ha : s.tm.irqEn = true) (hr : s.sp.running = true) (hp : s.sp.cmdPtr ≠ 0) :
    Runs (pulseInterrupt p) s (fun keep u => HandlerEnd s keep u) (Outer (HandlerFrame s)) := by
  unfold pulseInterrupt
  refine runs_get_bind ?_
  split
  · refine runs_bind (runs_mono (runs_prestepCallback hm hi) (fun abort t ht => ?_) fun _ _ h => ⟨h.1, h.2.handler⟩)
    obtain ⟨u, hu, rfl⟩ := ht
    have hf : HandlerFrame s { u with trace := s.trace ++ [.preCb (owningConsumer s) abort] } :=
      hu.handler.trans (handlerFrame_of_trace u hu.wf id)
    cases abort
    · exact runs_emitStep hf hi ha (by show u.sp.running = true; rw [hu.sp, hr]) (by show u.sp.cmdPtr ≠ 0; rwa [hu.sp])
    · exact runs_endRun hf
  · exact runs_emitStep (HandlerFrame.refl hm) hi ha hr hp

theorem runs_fetchInterrupt {p : Nat} {s : State} (hm : Memory.wf s.params s.mem) (hi : s.inIrq = true)
    (ha : s.tm.irqEn = true) (hr : s.sp.running = true) :
    Runs (fetchInterrupt p) s (fun keep u => HandlerEnd s keep u) (Outer (HandlerFrame s)) := by
  unfold fetchInterrupt
  refine runs_get_bind (runs_bind (runs_mono (runs_commandCallback hm hi) (fun answer t ht => ?_) fun _ _ h => ⟨h.1, h.2.handler⟩))
  obtain ⟨⟨u, hu, rfl⟩, hlt⟩ := ht
  have hf : HandlerFrame s { u with trace := s.trace ++ [.cmdCb (owningConsumer s) p answer] } :=
    hu.handler.trans (handlerFrame_of_trace u hu.wf id)
  cases answer with
  | stop => exact runs_endRun hf
  | proceed q =>
    refine runs_check_bind (fun hq => runs_modify_bind (runs_get_bind (runs_bind ?_))) ⟨rfl, hf⟩
    have hirq : u.tm.irqEn = true := by rw [hu.tm]; exact ha
    have start := hf.trans (handlerFrame_of_sp { u with trace := s.trace ++ [.cmdCb (owningConsumer s) p (.proceed q)] }
      (running := u.sp.running) (notEnded := u.sp.notEnded) (p := q) (pos := u.sp.pos) (time := u.sp.time) hu.wf
      fun _ hs => ⟨hu.params ▸ hlt q rfl, hs.pos⟩)
    refine runs_loadCommand hu.wf (fun v w hv hw => ⟨hv, start.trans hw.toUntouched.handler⟩) (fun _ _ h => by cases h)
      (fun _ _ _ hn => absurd ⟨hu.inIrq.trans hi, hirq⟩ hn) fun v target hv _ h2 => runs_pure ?_
    have hv' := start.trans hv.toUntouched.handler
    refine ⟨hv'.trans (armedAt_handler target hv.wf ?_), ?_, fun _ => ?_⟩
    · rw [hv.tm]; exact (h2 rfl).2
    · exact hv.running.trans ((congrArg SpRegs.running hu.sp).trans hr)
    · exact fun h0 => hq (hv.cmdPtr.symm.trans h0)

/-- SP.STEP inside the handler of an armed timer, on a machine that runs a Command. -/
theorem runs_stepHandler {s : State} (hm : Memory.wf s.params s.mem) (hi : s.inIrq = true) (ha : s.tm.irqEn = true)
    (hr : s.sp.running = true) (hp : s.sp.cmdPtr ≠ 0) :
    Runs stepHandler s (fun keep u => HandlerEnd s keep u) (Outer (HandlerFrame s)) := by
  unfold stepHandler
  refine runs_get_bind (runs_congr (y := if s.sp.notEnded then pulseInterrupt s.sp.cmdPtr else fetchInterrupt s.sp.cmdPtr)
    (t := s) (by rw [op_check_bind, if_pos hr]) ?_)
  split
  · exact runs_pulseInterrupt hm hi ha hr hp
  · exact runs_fetchInterrupt hm hi ha hr

end Machine
end Sys2Proof
end

