-- ==== Sys2Proof/Laws/PerInstr.lean ====
section
/-! SUPPORT. Facts about every operation as syntax: its request word has the fixed bits of its row of spec/opcode_table.json. -/

namespace Sys2Proof
namespace Laws

/-- The bits of a format X word that a mask selects. -/
theorem encodeX_and (op o : BitVec 8) (sa sb : Bool) (wa wb n b d f : WidthField) (a c e : BitVec 1) :
    encodeX op sa wa sb wb n &&& (o ++ a ++ b ++ c ++ d ++ e ++ f) =
      (op &&& o) ++ (BitVec.ofBool sa &&& a) ++ (wa &&& b) ++ (BitVec.ofBool sb &&& c) ++ (wb &&& d) ++ (0#1 &&& e) ++
        (n &&& f) := by
  refine BitVec.and_append.trans (congrArg (· ++ (n &&& f)) ?_)
  refine BitVec.and_append.trans (congrArg (· ++ (0#1 &&& e)) ?_)
  refine BitVec.and_append.trans (congrArg (· ++ (wb &&& d)) ?_)
  refine BitVec.and_append.trans (congrArg (· ++ (BitVec.ofBool sb &&& c)) ?_)
  refine BitVec.and_append.trans (congrArg (· ++ (wa &&& b)) BitVec.and_append)

/-- The bits of a format S or C word that a mask selects. -/
theorem encodeS_and (op o : BitVec 8) (cid c : ConsumerId) (flag : Bool) (z : BitVec 15) (f : BitVec 1) :
    encodeS op cid flag &&& (o ++ c ++ z ++ f) =
      (op &&& o) ++ (cid &&& c) ++ (0#15 &&& z) ++ (BitVec.ofBool flag &&& f) := by
  refine BitVec.and_append.trans (congrArg (· ++ (BitVec.ofBool flag &&& f)) ?_)
  refine BitVec.and_append.trans (congrArg (· ++ (0#15 &&& z)) BitVec.and_append)

namespace MatchesTable

/-- The mask of an operation's row, the bits the row fixes. -/
def mask : Instr → RequestWord
  | .fxMake .. => 0xFF00FFFF
  | .fxTos .. => 0xFF80FFFF
  | .fxTou .. => 0xFF80FFFF
  | .fxWiden .. => 0xFF00FF80
  | .fxNarrow .. => 0xFF00FF80
  | .fxShl .. => 0xFF00FF80
  | .fxShr .. => 0xFF00FF80
  | .fxAdd .. => 0xFF0000FF
  | .fxSub .. => 0xFF0000FF
  | .fxMul .. => 0xFF0000FF
  | .fxDiv .. => 0xFF000080
  | .fxSqrt .. => 0xFF80FF80
  | .tmInit => 0xFFFFFFFF
  | .tmDeinit => 0xFFFFFFFF
  | .tmSetfirst => 0xFFFFFFFF
  | .tmSetnext => 0xFFFFFFFF
  | .tmUnset => 0xFFFFFFFF
  | .tmIrq => 0xFFFFFFFF
  | .tmGettime => 0xFFFFFFFF
  | .tmGe => 0xFFFFFFFF
  | .spInit => 0xFFFFFFFF
  | .spDeinit => 0xFFFFFFFF
  | .spStart .. => 0xFF00FFFF
  | .spStop => 0xFFFFFFFF
  | .spStep => 0xFFFFFFFF
  | .spGencmd .. => 0xFFFFFFFE
  | .spPrestep .. => 0xFFFFFFFE
  | .cdCmdcb .. => 0xFF00FFFF
  | .cdPrecb .. => 0xFF00FFFF
  | .sysRdreg .. => 0xFFFFFF00

/-- The value of the fixed bits of an operation's row. -/
def fixed : Instr → RequestWord
  | .fxMake .. => 0x00000000
  | .fxTos .. => 0x01000000
  | .fxTou .. => 0x02800000
  | .fxWiden .. => 0x03000000
  | .fxNarrow .. => 0x04000000
  | .fxShl .. => 0x05000000
  | .fxShr .. => 0x06000000
  | .fxAdd .. => 0x07000000
  | .fxSub .. => 0x08000000
  | .fxMul .. => 0x09000000
  | .fxDiv .. => 0x0A000000
  | .fxSqrt .. => 0x0B000000
  | .tmInit => 0x10000000
  | .tmDeinit => 0x11000000
  | .tmSetfirst => 0x12000000
  | .tmSetnext => 0x13000000
  | .tmUnset => 0x14000000
  | .tmIrq => 0x15000000
  | .tmGettime => 0x16000000
  | .tmGe => 0x17000000
  | .spInit => 0x20000000
  | .spDeinit => 0x21000000
  | .spStart .. => 0x22000000
  | .spStop => 0x23000000
  | .spStep => 0x24000000
  | .spGencmd .. => 0x25000000
  | .spPrestep .. => 0x26000000
  | .cdCmdcb .. => 0x30000000
  | .cdPrecb .. => 0x31000000
  | .sysRdreg .. => 0xF0000000

/-- The operation's request word has the fixed bits of its row. -/
def Statement (i : Instr) : Prop := encode i &&& mask i = fixed i

theorem fxMake (sa : Bool) (wa : WidthField) : Statement (.fxMake sa wa) := by
  show encode _ &&& 0xFF00FFFF#32 = 0x00000000#32
  rw [show 0xFF00FFFF#32 = 0xFF#8 ++ 0x0#1 ++ 0x0#7 ++ 0x1#1 ++ 0x7F#7 ++ 0x1#1 ++ 0x7F#7 by decide, encode, encodeX_and]
  simp only [BitVec.and_zero]
  decide

theorem fxTos (wa : WidthField) : Statement (.fxTos wa) := by
  show encode _ &&& 0xFF80FFFF#32 = 0x01000000#32
  rw [show 0xFF80FFFF#32 = 0xFF#8 ++ 0x1#1 ++ 0x0#7 ++ 0x1#1 ++ 0x7F#7 ++ 0x1#1 ++ 0x7F#7 by decide, encode, encodeX_and]
  simp only [BitVec.and_zero]
  decide

theorem fxTou (wa : WidthField) : Statement (.fxTou wa) := by
  show encode _ &&& 0xFF80FFFF#32 = 0x02800000#32
  rw [show 0xFF80FFFF#32 = 0xFF#8 ++ 0x1#1 ++ 0x0#7 ++ 0x1#1 ++ 0x7F#7 ++ 0x1#1 ++ 0x7F#7 by decide, encode, encodeX_and]
  simp only [BitVec.and_zero]
  decide

theorem fxWiden (sa : Bool) (wa : WidthField) (n : WidthField) : Statement (.fxWiden sa wa n) := by
  show encode _ &&& 0xFF00FF80#32 = 0x03000000#32
  rw [show 0xFF00FF80#32 = 0xFF#8 ++ 0x0#1 ++ 0x0#7 ++ 0x1#1 ++ 0x7F#7 ++ 0x1#1 ++ 0x0#7 by decide, encode, encodeX_and]
  simp only [BitVec.and_zero]
  decide

theorem fxNarrow (sa : Bool) (wa : WidthField) (n : WidthField) : Statement (.fxNarrow sa wa n) := by
  show encode _ &&& 0xFF00FF80#32 = 0x04000000#32
  rw [show 0xFF00FF80#32 = 0xFF#8 ++ 0x0#1 ++ 0x0#7 ++ 0x1#1 ++ 0x7F#7 ++ 0x1#1 ++ 0x0#7 by decide, encode, encodeX_and]
  simp only [BitVec.and_zero]
  decide

theorem fxShl (sa : Bool) (wa : WidthField) (n : WidthField) : Statement (.fxShl sa wa n) := by
  show encode _ &&& 0xFF00FF80#32 = 0x05000000#32
  rw [show 0xFF00FF80#32 = 0xFF#8 ++ 0x0#1 ++ 0x0#7 ++ 0x1#1 ++ 0x7F#7 ++ 0x1#1 ++ 0x0#7 by decide, encode, encodeX_and]
  simp only [BitVec.and_zero]
  decide

theorem fxShr (sa : Bool) (wa : WidthField) (n : WidthField) : Statement (.fxShr sa wa n) := by
  show encode _ &&& 0xFF00FF80#32 = 0x06000000#32
  rw [show 0xFF00FF80#32 = 0xFF#8 ++ 0x0#1 ++ 0x0#7 ++ 0x1#1 ++ 0x7F#7 ++ 0x1#1 ++ 0x0#7 by decide, encode, encodeX_and]
  simp only [BitVec.and_zero]
  decide

theorem fxAdd (sa : Bool) (wa : WidthField) (sb : Bool) (wb : WidthField) : Statement (.fxAdd sa wa sb wb) := by
  show encode _ &&& 0xFF0000FF#32 = 0x07000000#32
  rw [show 0xFF0000FF#32 = 0xFF#8 ++ 0x0#1 ++ 0x0#7 ++ 0x0#1 ++ 0x0#7 ++ 0x1#1 ++ 0x7F#7 by decide, encode, encodeX_and]
  simp only [BitVec.and_zero]
  decide

theorem fxSub (sa : Bool) (wa : WidthField) (sb : Bool) (wb : WidthField) : Statement (.fxSub sa wa sb wb) := by
  show encode _ &&& 0xFF0000FF#32 = 0x08000000#32
  rw [show 0xFF0000FF#32 = 0xFF#8 ++ 0x0#1 ++ 0x0#7 ++ 0x0#1 ++ 0x0#7 ++ 0x1#1 ++ 0x7F#7 by decide, encode, encodeX_and]
  simp only [BitVec.and_zero]
  decide

theorem fxMul (sa : Bool) (wa : WidthField) (sb : Bool) (wb : WidthField) : Statement (.fxMul sa wa sb wb) := by
  show encode _ &&& 0xFF0000FF#32 = 0x09000000#32
  rw [show 0xFF0000FF#32 = 0xFF#8 ++ 0x0#1 ++ 0x0#7 ++ 0x0#1 ++ 0x0#7 ++ 0x1#1 ++ 0x7F#7 by decide, encode, encodeX_and]
  simp only [BitVec.and_zero]
  decide

theorem fxDiv (sa : Bool) (wa : WidthField) (sb : Bool) (wb : WidthField) (n : WidthField) : Statement (.fxDiv sa wa sb wb n) := by
  show encode _ &&& 0xFF000080#32 = 0x0A000000#32
  rw [show 0xFF000080#32 = 0xFF#8 ++ 0x0#1 ++ 0x0#7 ++ 0x0#1 ++ 0x0#7 ++ 0x1#1 ++ 0x0#7 by decide, encode, encodeX_and]
  simp only [BitVec.and_zero]
  decide

theorem fxSqrt (wa : WidthField) (n : WidthField) : Statement (.fxSqrt wa n) := by
  show encode _ &&& 0xFF80FF80#32 = 0x0B000000#32
  rw [show 0xFF80FF80#32 = 0xFF#8 ++ 0x1#1 ++ 0x0#7 ++ 0x1#1 ++ 0x7F#7 ++ 0x1#1 ++ 0x0#7 by decide, encode, encodeX_and]
  simp only [BitVec.and_zero]
  decide

theorem tmInit : Statement .tmInit := by unfold Statement; decide

theorem tmDeinit : Statement .tmDeinit := by unfold Statement; decide

theorem tmSetfirst : Statement .tmSetfirst := by unfold Statement; decide

theorem tmSetnext : Statement .tmSetnext := by unfold Statement; decide

theorem tmUnset : Statement .tmUnset := by unfold Statement; decide

theorem tmIrq : Statement .tmIrq := by unfold Statement; decide

theorem tmGettime : Statement .tmGettime := by unfold Statement; decide

theorem tmGe : Statement .tmGe := by unfold Statement; decide

theorem spInit : Statement .spInit := by unfold Statement; decide

theorem spDeinit : Statement .spDeinit := by unfold Statement; decide

theorem spStart (cid : ConsumerId) : Statement (.spStart cid) := by
  show encode _ &&& 0xFF00FFFF#32 = 0x22000000#32
  rw [show 0xFF00FFFF#32 = 0xFF#8 ++ 0x0#8 ++ 0x7FFF#15 ++ 0x1#1 by decide, encode, encodeS_and]
  simp only [BitVec.and_zero]
  decide

theorem spStop : Statement .spStop := by unfold Statement; decide

theorem spStep : Statement .spStep := by unfold Statement; decide

theorem spGencmd (flag : Bool) : Statement (.spGencmd flag) := by
  show encode _ &&& 0xFFFFFFFE#32 = 0x25000000#32
  rw [show 0xFFFFFFFE#32 = 0xFF#8 ++ 0xFF#8 ++ 0x7FFF#15 ++ 0x0#1 by decide, encode, encodeS_and]
  simp only [BitVec.and_zero]
  decide

theorem spPrestep (flag : Bool) : Statement (.spPrestep flag) := by
  show encode _ &&& 0xFFFFFFFE#32 = 0x26000000#32
  rw [show 0xFFFFFFFE#32 = 0xFF#8 ++ 0xFF#8 ++ 0x7FFF#15 ++ 0x0#1 by decide, encode, encodeS_and]
  simp only [BitVec.and_zero]
  decide

theorem cdCmdcb (idx : ConsumerId) : Statement (.cdCmdcb idx) := by
  show encode _ &&& 0xFF00FFFF#32 = 0x30000000#32
  rw [show 0xFF00FFFF#32 = 0xFF#8 ++ 0x0#8 ++ 0x7FFF#15 ++ 0x1#1 by decide, encode, encodeS_and]
  simp only [BitVec.and_zero]
  decide

theorem cdPrecb (idx : ConsumerId) : Statement (.cdPrecb idx) := by
  show encode _ &&& 0xFF00FFFF#32 = 0x31000000#32
  rw [show 0xFF00FFFF#32 = 0xFF#8 ++ 0x0#8 ++ 0x7FFF#15 ++ 0x1#1 by decide, encode, encodeS_and]
  simp only [BitVec.and_zero]
  decide

theorem sysRdreg (reg : BitVec 8) : Statement (.sysRdreg reg) := by
  show 0xF0#8 ++ 0#16 ++ reg &&& 0xFFFFFF00#32 = 0xF0000000#32
  rw [show 0xFFFFFF00#32 = 0xFF#8 ++ 0xFFFF#16 ++ 0#8 by decide, BitVec.and_append, BitVec.and_append, BitVec.and_zero]
  decide

end MatchesTable
end Laws
end Sys2Proof
end

