-- ==== Sys2Proof/Tests/Slice0.lean ====
section
/-! SUPPORT. Tests of the model against the vectors of 95_test_vectors.md (their numbers stand in the comments), the smoke test
of WellFormed, and a witness for the hypotheses of every obligation that has some. -/

namespace Sys2Proof
namespace Tests

open Machine

/-! ### Helpers -/

/-- A state with values on ports A, B, C and PTR. -/
def ports (s : State) (a b c : Int) (p : Nat) : State :=
  { s with
    latch :=
      { s.latch with
        a := BitVec.ofInt 128 a
        b := BitVec.ofInt 128 b
        c := BitVec.ofInt 128 c
        ptr := p } }

/-- The reset state with values on ports A and B. -/
def ab (a b : Int) : State := ports State.reset a b 0 0

/-- A state with CORE itself as the issuer, inside or outside the handler. -/
def byCore (s : State) (inIrq : Bool) : State := { s with latch := { s.latch with issuer := .core }, inIrq := inIrq }

/-- A state with a consumer that does nothing but answer. -/
def answering (s : State) (next : CmdAnswer) (abort : Bool) : State :=
  { s with latch := { s.latch with reply := some ⟨[], true, next, abort⟩ } }

/-- Stopped (V21), the counter at 4990. -/
def stopped : State :=
  { State.reset with sp := { State.reset.sp with life := true }, tm := { State.reset.tm with tlife := true }, cnt := 4990 }

/-- The record SP.GENCMD writes at `p`, after `k` evaluations. -/
def record (p : Nat) (x t : Nat) (a : Int) (dir : Bool) (k : Nat) : Memory :=
  [⟨p, { commandRecord defaultParams x t a dir with disc := discOf defaultParams x a + k * amulOf defaultParams a }⟩]

/-- Running, in the segment of 4 steps in 1000 ticks from 5000 with acceleration `a`, waiting for its `k`-th event. -/
def running (a : Int) (k : Nat) : State :=
  { stopped with
    sp := { running := true, notEnded := true, notDecel := decide (0 ≤ a), prestepEn := false, life := true, cmdPtr := 0x100,
            pos := if 0 ≤ a then k else 4 - k, time := if 0 ≤ a then 5000 else 6000,
            v0 := (4 - a.natAbs) * 4096, consumer := 0 }
    tm := { time := 5250, cmp := 5250, armed := true, irqEn := true, tlife := true }
    cnt := 5250
    mem := record 0x100 4 1000 a true k }

/-- Running, at the fetch interrupt (V20 c). -/
def atFetch : State :=
  { running 0 4 with sp := { (running 0 4).sp with notEnded := false, time := 6000 }, cnt := 6008 }

def halted : State := { State.reset with fault := { halted := true, code := 0x02 } }

/-- The next state, or the reset state where there is none. -/
def next (o : Host.Outcome State Fault Refusal) : State :=
  match o with
  | .next t => t
  | _ => State.reset

/-- There is a next state. -/
def isNext (o : Host.Outcome State Fault Refusal) : Bool :=
  match o with
  | .next _ => true
  | _ => false

theorem eq_next {o : Host.Outcome State Fault Refusal} (h : isNext o = true) : o = .next (next o) := by
  cases o with
  | next t => rfl
  | fault f => cases h
  | refused r => cases h

/-- The value and the type code shown on R and RT. -/
def shown (o : Host.Outcome State Fault Refusal) : Option (Int × Nat) :=
  match o with
  | .next t => t.result.map fun r => (r.r.toInt, r.rt.toNat)
  | _ => none

/-- The word in FAULT. -/
def faulted (o : Host.Outcome State Fault Refusal) : Option Nat :=
  match o with
  | .next t => some (faultWord t.fault).toNat
  | _ => none

/-- A request with word `w` on the given ports. -/
def request (w : RequestWord) (s : State) : Request := ⟨w, s.latch.a, s.latch.b, s.latch.c, s.latch.ptr, 0⟩

/-! ### Parameters (00_scope.md R5, R6) -/

theorem defaults_valid : defaultParams.Valid := by constructor <;> decide

/-- The widths R6 derives from the defaults. -/
theorem test_default_widths : [Field.dirx, .tmul, .amul, .disc].map (fieldWidth defaultParams) = [18, 31, 42, 58] := by decide

/-- An instance narrower than the default one. -/
def narrow : Params where
  stepBits := 4
  discPrec := 3
  fracBits := 8
  tmulBits := 15
  maxW := 24
  ptrBits := 8
  cidBits := 2
  clearance := 3
  numConsumers := 3
  assertions := true

theorem narrow_valid : narrow.Valid := by constructor <;> decide

/-- The narrowest instance R5 admits. -/
def tiny : Params where
  stepBits := 1
  discPrec := 0
  fracBits := 2
  tmulBits := 1
  maxW := 4
  ptrBits := 5
  cidBits := 0
  clearance := 1
  numConsumers := 1
  assertions := true

theorem tiny_valid : tiny.Valid := by constructor <;> decide

/-- The default instance with MAX_W at R5's lower bound, one bit short of EVAL's first sum. -/
def tight : Params := { defaultParams with maxW := 58 }

theorem tight_valid : tight.Valid := by constructor <;> decide

/-! ### WellFormed refuses each ill-formed term -/

theorem test_width_zero_refused : (Instr.fxMake true 0).wellFormed 64 = false := by decide
theorem test_width_65_refused : (Instr.fxSqrt 65 4).wellFormed 64 = false := by decide
theorem test_first_width_refused : (Instr.fxAdd false 0 false 16).wellFormed 64 = false := by decide
theorem test_second_width_refused : (Instr.fxDiv false 16 false 65 8).wellFormed 64 = false := by decide
theorem test_undefined_register_refused : (Instr.sysRdreg 6).wellFormed 64 = false := by decide
theorem test_wellformed_accepted : (Instr.fxMul false 64 true 1).wellFormed 64 = true ∧
    (Instr.sysRdreg 15).wellFormed 64 = true ∧ (Instr.spStart 255).wellFormed 64 = true := by decide

/-- What is legal depends on the instance's MAX_W. -/
theorem test_width_of_narrow : (Instr.fxMake true 24).wellFormed 24 = true ∧ (Instr.fxMake true 25).wellFormed 24 = false := by
  decide

/-! ### Decoding: one word per operation, written out from 30_encoding.md R61 to R67 -/

/-- Opcode, SA, WA, SB, WB, 0, N in binary (R61). -/
theorem test_decode_fxu :
    decode 0b00000000_1_0010000_0_0000000_0_0000000 = .ok (.fxMake true 16) ∧
    decode 0b00000001_0_0001000_0_0000000_0_0000000 = .ok (.fxTos 8) ∧
    decode 0b00000010_1_0001000_0_0000000_0_0000000 = .ok (.fxTou 8) ∧
    decode 0b00000011_0_0011111_0_0000000_0_0100000 = .ok (.fxWiden false 31 32) ∧
    decode 0b00000100_1_0010100_0_0000000_0_0010000 = .ok (.fxNarrow true 20 16) ∧
    decode 0b00000101_0_0010000_0_0000000_0_0100100 = .ok (.fxShl false 16 36) ∧
    decode 0b00000110_1_0000011_0_0000000_0_0000001 = .ok (.fxShr true 3 1) ∧
    decode 0b00000111_0_0010000_1_0001000_0_0000000 = .ok (.fxAdd false 16 true 8) ∧
    decode 0b00001000_1_0001000_0_0001000_0_0000000 = .ok (.fxSub true 8 false 8) ∧
    decode 0b00001001_0_0011111_0_0011001_0_0000000 = .ok (.fxMul false 31 false 25) ∧
    decode 0b00001010_1_0001000_0_0001000_0_0000111 = .ok (.fxDiv true 8 false 8 7) ∧
    decode 0b00001011_0_0111010_0_0000000_0_0011101 = .ok (.fxSqrt 58 29) := by decide

/-- UNIT 1 and FUNC, ARG 0 (R62). -/
theorem test_decode_timer :
    decode 0x10000000 = .ok .tmInit ∧ decode 0x11000000 = .ok .tmDeinit ∧ decode 0x12000000 = .ok .tmSetfirst ∧
    decode 0x13000000 = .ok .tmSetnext ∧ decode 0x14000000 = .ok .tmUnset ∧ decode 0x15000000 = .ok .tmIrq ∧
    decode 0x16000000 = .ok .tmGettime ∧ decode 0x17000000 = .ok .tmGe := by decide

/-- UNIT 2 and FUNC, CID bits 23:16, FLAG bit 0 (R63). -/
theorem test_decode_scheduler :
    decode 0x20000000 = .ok .spInit ∧ decode 0x21000000 = .ok .spDeinit ∧
    decode 0b00100010_00000101_000000000000000_0 = .ok (.spStart 5) ∧ decode 0x23000000 = .ok .spStop ∧
    decode 0x24000000 = .ok .spStep ∧ decode 0b00100101_00000000_000000000000000_1 = .ok (.spGencmd true) ∧
    decode 0b00100110_00000000_000000000000000_1 = .ok (.spPrestep true) := by decide

/-- UNIT 3, IDX bits 23:16 (R64); UNIT 15, REG bits 7:0 (R65). -/
theorem test_decode_dispatch :
    decode 0b00110000_00000001_0000000000000000 = .ok (.cdCmdcb 1) ∧
    decode 0b00110001_00000010_0000000000000000 = .ok (.cdPrecb 2) ∧
    decode 0b11110000_0000000000000000_00001011 = .ok (.sysRdreg 11) := by decide

/-- V24, V2, V12: words that name no operation, each rejected by name. -/
theorem test_decode_rejects :
    decode 0x40000000 = .error .reservedUnit ∧ decode 0xE0000000 = .error .reservedUnit ∧
    decode 0x0C100000 = .error .reservedFunc ∧ decode 0x18000000 = .error .reservedFunc ∧
    decode 0x27000000 = .error .reservedFunc ∧ decode 0xF1000000 = .error .reservedFunc ∧
    decode 0x07101080 = .error .mustBeZero ∧ decode 0x07101001 = .error .mustBeZero ∧
    decode 0x00100100 = .error .mustBeZero ∧ decode 0x20000001 = .error .mustBeZero ∧
    decode 0x23010000 = .error .mustBeZero ∧ decode 0xF0000100 = .error .mustBeZero ∧
    decode 0x16000001 = .error .mustBeZero ∧ decode 0x25000002 = .error .mustBeZero ∧
    decode 0x01880000 = .error .wrongSign ∧ decode 0x0B880004 = .error .wrongSign := by decide

/-! ### FXU (V1 to V12) -/

theorem test_make_extreme : shown (exec (.fxMake true 16) (ab (-65535) 0)) = some (-65535, 128 + 16) := by decide
theorem test_make_out_of_range : faulted (exec (.fxMake true 16) (ab (-65536) 0)) = some (1 + 2 * 0x01) := by decide
theorem test_tos : shown (exec (.fxTos 8) (ab 200 0)) = some (200, 128 + 8) := by decide
theorem test_tou_negative : faulted (exec (.fxTou 8) (ab (-1) 0)) = some (1 + 2 * 0x03) := by decide
theorem test_tou_zero : shown (exec (.fxTou 8) (ab 0 0)) = some (0, 8) := by decide
theorem test_widen : shown (exec (.fxWiden true 8 8) (ab (-255) 0)) = some (-255, 128 + 8) := by decide
theorem test_widen_narrower : faulted (exec (.fxWiden false 31 30) (ab 1000 0)) = some (1 + 2 * 0x04) := by decide
theorem test_narrow : shown (exec (.fxNarrow true 20 16) (ab (-65535) 0)) = some (-65535, 128 + 16) := by decide
theorem test_narrow_loses : faulted (exec (.fxNarrow true 20 16) (ab (-65536) 0)) = some (1 + 2 * 0x01) := by decide
theorem test_shl_negative : shown (exec (.fxShl true 16 4) (ab (-3) 0)) = some (-48, 128 + 20) := by decide
theorem test_shl_too_wide : faulted (exec (.fxShl false 16 49) (ab 1 0)) = some (1 + 2 * 0x04) := by decide
theorem test_shr_toward_zero : shown (exec (.fxShr true 3 1) (ab (-7) 0)) = some (-3, 128 + 2) := by decide
theorem test_shr_no_bit_left : faulted (exec (.fxShr false 8 8) (ab 255 0)) = some (1 + 2 * 0x04) := by decide
theorem test_add_mixed : shown (exec (.fxAdd false 16 true 8) (ab 40000 (-3))) = some (39997, 128 + 17) := by decide
theorem test_add_too_wide : faulted (exec (.fxAdd false 64 false 1) (ab 1 1)) = some (1 + 2 * 0x04) := by decide
theorem test_sub_unsigned : shown (exec (.fxSub false 8 false 8) (ab 3 5)) = some (-2, 128 + 8) := by decide
theorem test_sub_signed : shown (exec (.fxSub true 8 true 8) (ab 255 (-255))) = some (510, 128 + 9) := by decide
theorem test_mul_signs : shown (exec (.fxMul true 8 true 8) (ab (-255) (-255))) = some (65025, 128 + 16) := by decide
theorem test_mul_too_wide : faulted (exec (.fxMul false 32 false 33) (ab 5 5)) = some (1 + 2 * 0x04) := by decide
theorem test_div_toward_zero : shown (exec (.fxDiv true 8 false 8 8) (ab (-7) 2)) = some (-3, 128 + 8) := by decide
theorem test_div_zero : faulted (exec (.fxDiv false 8 false 8 8) (ab 7 0)) = some (1 + 2 * 0x02) := by decide
theorem test_sqrt : shown (exec (.fxSqrt 58 29) (ab 201326592 0)) = some (14188, 29) := by decide +kernel
theorem test_sqrt_out_of_range : faulted (exec (.fxSqrt 8 3) (ab 255 0)) = some (1 + 2 * 0x01) := by decide +kernel

/-! ### TMR (V13 to V16) -/

theorem test_ge_wraps : shown (exec .tmGe (ab 5 0xFFFFFFF0)) = some (1, 1) := by decide
theorem test_ge_half_range : shown (exec .tmGe (ab 0x80000000 0)) = some (0, 1) := by decide
theorem test_gettime_max : shown (exec .tmGettime { State.reset with cnt := 0xFFFFFFFF }) = some (4294967295, 32) := by decide
theorem test_rebase : (rebase 8 5250 4990, rebase 8 5250 5243, rebase 8 0x80000008 0, rebase 8 0x80000009 0) =
    (5250, 5251, 0x80000008, 8) := by decide
theorem test_init : (next (exec .tmInit (byCore State.reset false))).tm.tlife = true := by decide
theorem test_deinit_armed : faulted (exec .tmDeinit (byCore (running 0 1) false)) = some (1 + 2 * 0x12) := by decide
theorem test_setfirst_late : (next (exec .tmSetfirst (byCore (ports { stopped with cnt := 5300 } 5250 0 0 0) false))).tm.cmp =
    5308 := by decide
theorem test_setfirst_armed : faulted (exec .tmSetfirst (byCore (ports (running 0 1) 5250 0 0 0) false)) =
    some (1 + 2 * 0x10) := by decide
theorem test_setnext : (next (exec .tmSetnext (byCore (ports (running 0 1) 6000 0 0 0) true))).tm.time = 6000 := by decide
theorem test_setnext_outside : faulted (exec .tmSetnext (byCore (ports (running 0 1) 6000 0 0 0) false)) =
    some (1 + 2 * 0x11) := by decide
theorem test_unset : (next (exec .tmUnset (byCore (running 0 1) true))).trace = [.disarm] := by decide
/-- V15: IRQ@5249 is spurious. -/
theorem test_irq_spurious : (next (exec .tmIrq (byCore { running 0 1 with cnt := 5249 } false))).trace = [] := by decide
/-- V20 a: IRQ@5250. -/
theorem test_irq_pulse : (next (exec .tmIrq (byCore (running 0 1) false))).trace = [.pulseOn, .pulseOff, .arm 5500] := by
  decide +kernel

/-! ### SPS (V17 to V21) -/

theorem test_sp_init : spStatusWord (next (exec .spInit State.reset)).sp = 0b10000 := by decide
theorem test_sp_init_twice : faulted (exec .spInit stopped) = some 0x04F := by decide
theorem test_sp_deinit : (next (exec .spDeinit stopped)).sp.life = false := by decide
theorem test_sp_deinit_running : faulted (exec .spDeinit (running 0 1)) = some 0x045 := by decide
theorem test_prestep : spStatusWord (next (exec (.spPrestep true) stopped)).sp = 0b11000 := by decide
theorem test_prestep_busy : faulted (exec (.spPrestep false) (running 0 1)) = some 0x04B := by decide
/-- V17, row 4. -/
theorem test_gencmd : (next (exec (.spGencmd true) (ports stopped 4 1000000 (-2) 0x100))).mem =
    [⟨0x100, ⟨0x10004, 1000000, -134217728, 603979776⟩⟩] := by decide +kernel
theorem test_gencmd_accel_range : faulted (exec (.spGencmd true) (ports stopped 4 1000 5 0x100)) = some (1 + 2 * 0x23) := by
  decide
/-- V18, row 5: the deceleration phase. -/
theorem test_start_decelerating :
    (fun t : State => (t.sp.pos, t.sp.time, t.tm.time)) (next (exec (.spStart 0)
      { ports stopped 101000 0 0 0x100 with mem := record 0x100 4 1000 (-4) true 0, cnt := 100990 })) =
    (3, 102000, 101134) := by decide +kernel
/-- E7: a zero-step Command. -/
theorem test_start_zero_steps :
    (fun t : State => (spStatusWord t.sp, t.sp.time, t.trace)) (next (exec (.spStart 0)
      { ports stopped 5000 0 0 0x100 with mem := record 0x100 0 1000 0 true 0 })) =
    (0b10101, 6000, [.dirSet true, .arm 6000]) := by decide +kernel
theorem test_stop : (fun t : State => (t.sp.running, t.tm.irqEn, t.trace)) (next (exec .spStop (running 0 1))) =
    (false, false, [.disarm]) := by decide
theorem test_stop_in_callback : faulted (exec .spStop { running 0 1 with inIrq := true }) = some 0x051 := by decide
/-- V20 g: the boundary pulse of the deceleration phase. -/
theorem test_step_boundary :
    (fun t : State => (t.sp.notEnded, t.sp.time, t.tm.time, t.tm.cmp))
      (next (exec .spStep (byCore { running (-4) 4 with cnt := 6000 } true))) = (false, 6000, 6000, 6008) := by decide
/-- V20 e: continue with the null pointer. -/
theorem test_step_null_command : faulted (exec .spStep (byCore (answering atFetch (.proceed 0) false) true)) = some 0x043 := by
  decide
/-- V19: the third evaluation of x = 4, a = 2. -/
theorem test_eval_offset : evalOffset defaultParams 8192 3 1000000 469762048 = 822930 := by decide +kernel

/-- R48: an evaluation of a record that is not filled writes no field a later read would see. -/
theorem test_partial_write_fills_nothing : memSet [] 0x100 .disc 5 = [] := by decide
/-- R137 at another precision: constant velocity, 4 steps in 1000 ticks, the first pulse at a quarter. -/
theorem test_start_narrow :
    (fun t : State => (t.sp.pos, t.sp.v0, t.tm.time, t.sp.consumer)) (next (exec (.spStart 2)
      { ports (State.resetOf narrow) 5000 0 0 0x107 with
        sp := { State.reset.sp with life := true }, mem := [⟨7, commandRecord narrow 4 1000 0 true⟩] })) =
    (1, 32, 5250, 2) := by decide +kernel
/-- R81, R89, R96: MAX_W = 58 is one bit short of the sum of an s58 and an s42; an empty segment evaluates nothing. -/
theorem test_start_tight : faulted (exec (.spStart 0)
    { ports stopped 5000 0 0 0x100 with params := tight, mem := record 0x100 4 1000 0 true 0 }) = some (1 + 2 * 0x04) := by
  decide +kernel
theorem test_start_tight_zero_steps : (next (exec (.spStart 0)
    { ports stopped 5000 0 0 0x100 with params := tight, mem := record 0x100 0 1000 0 true 0 })).sp.time = 6000 := by
  decide +kernel
/-- R134: the acceleration is of type sS. -/
theorem test_gencmd_narrow : faulted (exec (.spGencmd true) (ports (State.resetOf narrow) 16 1000 0 7)) = some (1 + 2 * 0x01) := by
  decide

/-! ### CDX and SYS (V22, V23) -/

theorem test_route : (route 1 5, route 2 1, route 2 255, route 3 1) = (0, 1, 1, 1) := by decide
theorem test_cmdcb : (next (exec (.cdCmdcb 1) (byCore (answering (ports atFetch 0 0 0 0x100) .stop false) true))).trace =
    [.cmdCb 1 0x100 .stop] := by decide
theorem test_precb : (next (exec (.cdPrecb 2) (byCore (answering (running 0 1) .stop true) true))).trace = [.preCb 2 true] := by
  decide
theorem test_rdreg_status : shown (exec (.sysRdreg 0) (running 0 1)) = some (23, 5) := by decide
/-- R66: a port of 25 wires holds the counter's 5; of 2^24 it cannot show bit 24 as a magnitude bit. -/
theorem test_gettime_narrow : shown (exec .tmGettime { State.resetOf narrow with cnt := 5 }) = some (5, 32) := by decide
theorem test_rdreg_narrow : shown (exec (.sysRdreg 11) { State.resetOf narrow with cnt := 0xFFFFFF }) = some (0xFFFFFF, 32) ∧
    (next (exec (.sysRdreg 11) { State.resetOf narrow with cnt := 0x1000000 })).freeCount = 1 := by decide
theorem test_rdreg_halted : shown (exec (.sysRdreg 15) halted) = some (5, 9) := by decide

/-! ### The step and reset -/

theorem test_step_request : shown (step { State.reset with inputs := [.request (request 0x07108800 (ab 40000 (-3)))] }) =
    some (39997, 128 + 17) := by decide
theorem test_step_illegal_word : faulted (step (State.reset.withFetchWord 32 0x0C100000)) = some 0x061 := by decide
theorem test_idle_ticks : (next (step stopped)).cnt = 4991 := by decide
theorem test_reset_clears_fault : (next (step { halted with inputs := [.reset] })).fault = ⟨false, 0⟩ := by decide

/-! ### Witnesses: for each obligation with hypotheses, concrete states and operands that meet them, clause by clause -/

theorem witness_MakeConstructsOrRaises : Live (ab 65535 0) ∧ legalWidth 64 16 = true ∧
    legalWidth 64 1 = true ∧ legalWidth 64 64 = true ∧ 65535 = ((ab 65535 0).latch.a.setWidth 65).toInt ∧
    65536 = ((ab 65536 0).latch.a.setWidth 65).toInt ∧ -1 = ((ab (-1) 0).latch.a.setWidth 65).toInt ∧
    -65536 = ((ab (-65536) 0).latch.a.setWidth 65).toInt ∧ (65535 : Int) ≤ 2 ^ 16 - 1 ∧ ¬ (65536 : Int) ≤ 2 ^ 16 - 1 ∧
    ¬ -(2 ^ 16 - 1) ≤ (-65536 : Int) := by decide

theorem witness_SignConversionsKeepTheValue : Live (ab 255 0) ∧ PortHolds 64 (ab 255 0).latch.a false 8 255 ∧
    PortHolds 64 (ab 0 0).latch.a true 8 0 ∧ PortHolds 64 (ab (-1) 0).latch.a true 8 (-1) := by decide

theorem witness_WidenKeepsValue : Live (ab 1000 0) ∧ PortHolds 64 (ab 1000 0).latch.a false 31 1000 ∧
    PortHolds 64 (ab (-255) 0).latch.a true 8 (-255) ∧ (31#7).toNat ≤ (31#7).toNat ∧ (64#7).toNat ≤ 64 ∧
    ¬ (31#7).toNat ≤ (30#7).toNat ∧ ¬ (65#7).toNat ≤ 64 := by decide

theorem witness_NarrowChecksTheValue : Live (ab 65535 0) ∧ PortHolds 64 (ab (-65535) 0).latch.a true 20 (-65535) ∧
    PortHolds 64 (ab 65535 0).latch.a false 20 65535 ∧ PortHolds 64 (ab 65536 0).latch.a false 20 65536 ∧
    (-65535 : Int) = -(2 ^ (16#7).toNat - 1) ∧ ¬ (65536 : Int) ≤ 2 ^ (16#7).toNat - 1 ∧
    ¬ 1 ≤ (0#7).toNat ∧ ¬ (21#7).toNat ≤ (20#7).toNat := by decide

theorem witness_ShiftLeftMultiplies : Live (ab 1 0) ∧ PortHolds 64 (ab 1 0).latch.a false 16 1 ∧
    (16#7).toNat + (48#7).toNat ≤ 64 ∧ 64 < (16#7).toNat + (49#7).toNat := by decide

theorem witness_ShiftRightRoundsTowardZero : Live (ab (-7) 0) ∧ PortHolds 64 (ab (-7) 0).latch.a true 3 (-7) ∧
    (2#7).toNat ≤ (3#7).toNat - 1 ∧ ¬ (3#7).toNat ≤ (3#7).toNat - 1 := by decide

theorem witness_AddIsExact : Live (ab 5 1) ∧ PortHolds 64 (ab 5 1).latch.a true 63 5 ∧ PortHolds 64 (ab 5 1).latch.b false 1 1 ∧
    max (63#7).toNat (1#7).toNat + 1 ≤ 64 ∧ PortHolds 64 (ab 5 1).latch.a false 64 5 ∧
    64 < max (64#7).toNat (1#7).toNat + 1 := by decide

theorem witness_SubtractIsExactAndSigned : Live (ab 5 5) ∧ PortHolds 64 (ab 5 5).latch.a false 64 5 ∧
    PortHolds 64 (ab 5 5).latch.b false 64 5 ∧ max (64#7).toNat (64#7).toNat ≤ 64 ∧ PortHolds 64 (ab 5 5).latch.a true 64 5 ∧
    64 < max (64#7).toNat (64#7).toNat + 1 := by decide

theorem witness_MultiplyIsExact : Live (ab 5 5) ∧ PortHolds 64 (ab 5 5).latch.a false 32 5 ∧ PortHolds 64 (ab 5 5).latch.b false 32 5 ∧
    (32#7).toNat + (32#7).toNat ≤ 64 ∧ PortHolds 64 (ab 5 5).latch.b false 33 5 ∧ 64 < (32#7).toNat + (33#7).toNat := by decide

theorem witness_DivideRoundsTowardZero : Live (ab (-255) 1) ∧ PortHolds 64 (ab (-255) 1).latch.a true 8 (-255) ∧
    PortHolds 64 (ab (-255) 1).latch.b false 8 1 ∧ PortHolds 64 (ab (-255) 0).latch.b false 8 0 ∧
    ((-255 : Int) = if ((0 : Int) ≤ -255 ∧ (0 : Int) ≤ 1) ∨ ((-255 : Int) < 0 ∧ (1 : Int) < 0) then ((255 / 1 : Nat) : Int)
      else -((255 / 1 : Nat) : Int)) ∧
    (-255 : Int).natAbs ≤ 2 ^ (8#7).toNat - 1 ∧ 2 ^ (7#7).toNat - 1 < (-255 : Int).natAbs ∧
    1 ≤ (1#7).toNat ∧ (64#7).toNat ≤ 64 ∧ ¬ 1 ≤ (0#7).toNat ∧ ¬ (65#7).toNat ≤ 64 := by decide

theorem witness_SqrtIsLargestRoot : Live (ab 255 0) ∧ PortHolds 64 (ab 255 0).latch.a false 8 ((255 : Nat) : Int) ∧
    15 * 15 ≤ 255 ∧ 255 < (15 + 1) * (15 + 1) ∧ 15 ≤ 2 ^ (4#7).toNat - 1 ∧ 2 ^ (3#7).toNat - 1 < 15 ∧
    ¬ 1 ≤ (0#7).toNat ∧ ¬ (65#7).toNat ≤ 64 := by decide

theorem witness_FxOperandOutsideItsTypeRaisesRange : Live (ab 65536 65536) ∧ legalWidth 64 16 = true ∧
    fits (portValue 64 false (ab 65536 0).latch.a) false (16#7).toNat = false ∧
    fits (portValue 64 true (ab (-65536) 0).latch.a) true (16#7).toNat = false ∧
    fits (portValue 64 false (ab 0 65536).latch.b) false (16#7).toNat = false ∧
    fits (portValue 64 false (ab (-1) 0).latch.a) false (64#7).toNat = false := by decide

theorem witness_IllFormedWordsRaiseIllegalOp : Live State.reset ∧ (Instr.fxMake true 0).wellFormed 64 = false ∧
    (Instr.fxSqrt 65 29).wellFormed 64 = false ∧ (Instr.fxAdd false 16 false 0).wellFormed 64 = false ∧
    (Instr.sysRdreg 6).wellFormed 64 = false ∧ (Instr.sysRdreg 255).wellFormed 64 = false := by decide

theorem witness_FxTouchesNothingButResult : isFx (.fxTos 8) = true ∧
    exec (.fxTos 8) (ab 200 0) = .next ((ab 200 0).shows ⟨true, 8, 200⟩) ∧
    exec (.fxTou 8) (ab (-1) 0) = .next (recordViolation .fxNegative (ab (-1) 0)) := ⟨rfl, rfl, rfl⟩

theorem witness_EncodeOfDecode : decode 0x07108800 = .ok (.fxAdd false 16 true 8) := by decide

/-- A state with one request at the head of its schedule. -/
def asked (w : RequestWord) : State := { State.reset with inputs := [.request (request w State.reset), .tick 1] }

theorem witness_UnnamedWordsRaiseIllegalOp : 4 ≤ (0x40000000#32).toNat / 2 ^ 28 ∧ (0xEFFFFFFF#32).toNat / 2 ^ 28 ≤ 14 ∧
    Live (asked 0x0C100000) ∧ (asked 0x0C100000).inputs = .request (request 0x0C100000 State.reset) :: [.tick 1] ∧
    decode (request 0x0C100000 State.reset).word = .error .reservedFunc := by decide

theorem witness_StepPerformsWhatTheScheduleHolds :
    (asked 0x20000000).inputs = .request (request 0x20000000 State.reset) :: [.tick 1] ∧
    decode (request 0x20000000 State.reset).word = .ok .spInit ∧ stopped.inputs = [] ∧ stopped.tm.irqEn = false ∧
    { running 0 1 with cnt := 5249 }.inputs = [] ∧ 2 ^ 31 ≤ (5249#32 - (running 0 1).tm.cmp).toNat ∧
    { stopped with inputs := [.interrupt 3 none] }.inputs = .interrupt 3 none :: [] := by decide

theorem witness_CoreOnlyKindsAreIllegalOnThePort : Live State.reset ∧ State.reset.latch.issuer = .operationPort ∧
    Instr.tmInit.kind ≠ .port ∧ Instr.spStep.kind ≠ .port ∧ (Instr.cdPrecb 0).kind ≠ .port := by decide

theorem witness_HaltedRefusesAllButRegisterReads : halted.fault.halted = true ∧ ∀ reg, Instr.spInit ≠ .sysRdreg reg :=
  ⟨rfl, nofun⟩

theorem witness_HaltedMachineIsLeftOnlyByReset : halted.fault.halted = true ∧ halted.inputs.head? ≠ some .reset ∧
    { halted with inputs := [.interrupt 0 none] }.inputs.head? ≠ some .reset := by decide

/-- One instance whose port R is wide enough for FAULT, one whose port R is not. -/
theorem witness_FaultRegisterShowsFirstViolation : Live State.reset ∧ State.reset.params.Valid ∧
    1 + 2 * 0x30 < 2 ^ State.reset.params.maxW ∧ Live (State.resetOf tiny) ∧ tiny.Valid ∧ 1 + 2 * 0x01 < 2 ^ tiny.maxW ∧
    2 ^ tiny.maxW ≤ 1 + 2 * 0x30 :=
  ⟨rfl, defaults_valid, by decide, rfl, tiny_valid, by decide, by decide⟩

theorem witness_BackgroundOperationsRaiseContext : Live { running 0 1 with inIrq := true } ∧
    portHoldsTime 64 (ab 0xFFFFFFFF 0).latch.a = true ∧ portHoldsTime 64 (ab 0x100000000 0).latch.a = false := by decide

theorem witness_LifeCycleViolations : Live stopped ∧ stopped.inIrq = false ∧ portHoldsTime 64 stopped.latch.a = true ∧
    portHoldsTime 64 (ports stopped (-1) 0 0 0).latch.a = false ∧
    stopped.sp.life = true ∧ stopped.sp.running = false ∧ pointer stopped.params stopped.latch.ptr = 0 ∧ State.reset.sp.life = false ∧
    (running 0 1).sp.life = true ∧ (running 0 1).sp.running = true := by decide

theorem witness_ReleaseBuildDetectsOnlyCompileTimeErrors :
    let s := { ab 1000 0 with params := { State.reset.params with assertions := false } };
    s.params.assertions = false ∧ Live s ∧ exec (.fxWiden false 31 30) s = .next (recordViolation .fxWidth s) ∧
      exec .spInit s = .next (next (exec .spInit s)) := ⟨rfl, rfl, rfl, rfl⟩

theorem witness_TimeOrderAgreesInHalfRange : (-(2 ^ 31) : Int) < (2 ^ 31 - 1) - 0 ∧ ((2 ^ 31 - 1) - 0 : Int) < 2 ^ 31 ∧
    (-(2 ^ 31) : Int) < 0 - (2 ^ 31 - 1) ∧ (2 ^ 31 - 0 : Int) = 2 ^ 31 ∧ (0 - 2 ^ 31 : Int) = -(2 ^ 31) := by decide

theorem witness_GeComparesTimes : Live (ab 0xFFFFFFFF 0) ∧ PortTime 64 (ab 0xFFFFFFFF 0).latch.a 0xFFFFFFFF ∧
    PortTime 64 (ab 0xFFFFFFFF 0).latch.b 0 ∧ portHoldsTime 64 (ab 0x100000000 0).latch.a = false ∧
    portHoldsTime 64 (ab 0 (-1)).latch.b = false := by decide

theorem witness_GettimeReadsTheCounter : Live stopped ∧ stopped.params.Valid ∧ 4990 < 2 ^ stopped.params.maxW ∧
    Live (State.resetOf narrow) ∧ narrow.Valid ∧ 5 < 2 ^ narrow.maxW ∧ 2 ^ narrow.maxW ≤ 0x1000000 :=
  ⟨rfl, defaults_valid, by decide, rfl, narrow_valid, by decide, by decide⟩

theorem witness_TimerInitAndDeinit : Live (byCore stopped false) ∧ (byCore stopped false).latch.issuer = .core ∧
    (byCore stopped false).tm.irqEn = false ∧ (byCore (running 0 1) false).tm.irqEn = true := by decide

theorem witness_RebaseKeepsTheClearance : 1 ≤ 8 ∧ 8 < 2 ^ 31 ∧ (8#32 - 0#32).toNat ≤ 8 ∧ 8 < (9#32 - 0#32).toNat ∧
    (0x80000008#32 - 0#32).toNat ≤ 2 ^ 31 + 8 ∧ 2 ^ 31 + 8 < (0x80000009#32 - 0#32).toNat := by decide

theorem witness_SetfirstArmsTheTimer : Live (byCore (ports stopped 5250 0 0 0) false) ∧
    (byCore (ports stopped 5250 0 0 0) false).latch.issuer = .core ∧
    PortTime 64 (byCore (ports stopped 0xFFFFFFFF 0 0 0) false).latch.a 0xFFFFFFFF ∧
    (byCore (ports stopped 5250 0 0 0) false).tm.irqEn = false ∧
    (byCore (ports (running 0 1) 5250 0 0 0) false).tm.irqEn = true := by decide

theorem witness_SetnextReprogramsTheTimer : let s := byCore (ports (running 0 1) 5500 0 0 0) true;
    Live s ∧ s.latch.issuer = .core ∧ PortTime 64 s.latch.a 5500 ∧ s.inIrq = true ∧ s.tm.irqEn = true ∧
      s.tm.armed = s.params.assertions ∧ ¬ ((byCore stopped true).inIrq = true ∧ (byCore stopped true).tm.irqEn = true) := by
  decide

theorem witness_UnsetDisarmsTheTimer : Live (byCore stopped false) ∧ (byCore stopped false).latch.issuer = .core := by decide

theorem witness_InterruptOutOfTurnChangesNothing : (byCore (running 0 1) true).latch.issuer = .core ∧
    (byCore stopped false).tm.irqEn = false ∧ { byCore (running 0 1) false with im := true }.im = true ∧
    (byCore (running 0 1) true).inIrq = true ∧ (byCore halted false).fault.halted = true ∧
    2 ^ 31 ≤ (5249#32 - (running 0 1).tm.time).toNat ∧ 2 ^ 31 ≤ (0x80001482#32 - (running 0 1).tm.time).toNat := by decide

/-- One state for each way SP.STEP can leave: the run goes on, it ends, a violation stops it. -/
theorem witness_InterruptRunsTheHandlerAndReturns :
    (let s := byCore (running 0 1) false;
      s.latch.issuer = .core ∧ interruptMayStart s = true ∧ (s.cnt - s.tm.time).toNat < 2 ^ 31 ∧
        (next (exec .spStep { s with inIrq := true })).fault.halted = false ∧
        (next (exec .spStep { s with inIrq := true })).sp.running = true) ∧
    (let s := byCore (answering atFetch .stop false) false;
      s.latch.issuer = .core ∧ interruptMayStart s = true ∧ (s.cnt - s.tm.time).toNat < 2 ^ 31 ∧
        (next (exec .spStep { s with inIrq := true })).fault.halted = false ∧
        (next (exec .spStep { s with inIrq := true })).sp.running = false) ∧
    (let s := byCore (answering atFetch (.proceed 0) false) false;
      s.latch.issuer = .core ∧ interruptMayStart s = true ∧ (s.cnt - s.tm.time).toNat < 2 ^ 31 ∧
        (next (exec .spStep { s with inIrq := true })).fault.halted = true) := by decide +kernel

/-- `next` reads the next state there is in each of the three. -/
theorem witness_InterruptRunsTheHandlerAndReturns_next :
    (let s := byCore { running 0 1 with inIrq := true } true; exec .spStep s = .next (next (exec .spStep s))) ∧
    (let s := byCore (answering atFetch .stop false) true; exec .spStep s = .next (next (exec .spStep s))) ∧
    (let s := byCore (answering atFetch (.proceed 0) false) true; exec .spStep s = .next (next (exec .spStep s))) :=
  ⟨eq_next (by decide +kernel), eq_next (by decide +kernel), eq_next (by decide +kernel)⟩

theorem witness_SpInitEntersStopped : Live State.reset ∧ State.reset.inIrq = false ∧ State.reset.sp.life = false := by decide

theorem witness_SpDeinitEntersUninitialised : Live stopped ∧ stopped.inIrq = false ∧ stopped.sp.life = true ∧
    stopped.sp.running = false ∧ stopped.tm.irqEn = false ∧
    { stopped with tm := (running 0 1).tm }.tm.irqEn = true := by decide

theorem witness_PrestepWritesTheEnable : Live stopped ∧ stopped.inIrq = false ∧ stopped.sp.life = true ∧
    stopped.sp.running = false ∧ (byCore stopped true).inIrq = true ∧ State.reset.sp.life = false ∧
    (running 0 1).sp.running = true := by decide

theorem witness_GencmdBuildsTheRecord :
    (let s := ports stopped 65535 2147483647 (-65535) 0x200;
      Live s ∧ Memory.wf s.params s.mem ∧ portValue 64 false s.latch.a = (65535 : Nat) ∧
        portValue 64 false s.latch.b = (2147483647 : Nat) ∧ portValue 64 true s.latch.c = -65535 ∧
        0x200 = pointer s.params s.latch.ptr ∧ 65535 < 2 ^ s.params.stepBits ∧ 2147483647 < 2 ^ s.params.tmulBits ∧
        owns s 0x200 = false) ∧
    (let s := ports (running 0 1) 4 1000 0 0x100;
      Live s ∧ Memory.wf s.params s.mem ∧ 0x100 = pointer s.params s.latch.ptr ∧ owns s 0x100 = true) := by decide +kernel

theorem witness_GencmdChecksItsOperands :
    (let s := ports stopped 65536 1000 0 0x100;
      Live s ∧ portValue 64 false s.latch.a = 65536 ∧
        (false = true ↔ (65536 : Int) < 2 ^ 16 ∧ (1000 : Int) < 2 ^ 31 ∧ (0 : Int).natAbs < 2 ^ 16)) ∧
    (let s := ports stopped 65535 2147483647 65535 0;
      (true = true ↔ portValue 64 false s.latch.a < 2 ^ 16 ∧ portValue 64 false s.latch.b < 2 ^ 31 ∧
        (portValue 64 true s.latch.c).natAbs < 2 ^ 16) ∧ pointer s.params s.latch.ptr = 0) ∧
    (let s := ports stopped 4 1000 (-5) 0x100;
      (true = true ↔ portValue 64 false s.latch.a < 2 ^ 16 ∧ portValue 64 false s.latch.b < 2 ^ 31 ∧
        (portValue 64 true s.latch.c).natAbs < 2 ^ 16) ∧
        pointer s.params s.latch.ptr ≠ 0 ∧ portValue 64 false s.latch.a < (portValue 64 true s.latch.c).natAbs) := by
  decide +kernel

/-- The record of the helper is the one SP.GENCMD describes. -/
theorem record_after (a : Int) (k : Nat) (x : Nat) (hx : x < 2 ^ 16) (h1 : -(x : Int) ≤ a) (h2 : a ≤ x) :
    RecordAfter defaultParams (record 0x100 x 1000 a true k) 0x100 x 1000 a true k where
  steps := hx
  duration := by decide
  lower := h1
  upper := h2
  record := rfl

/-- A fresh record with no steps, with one step and with four, in both phases. -/
theorem witness_StartLoadsTheFirstCommand :
    (∀ x a, (x, a) ∈ [(0, (0 : Int)), (1, 1), (1, -1), (4, -4), (65535, 0)] →
      let s := { ports stopped 0xFFFFFFFF 0 0 0x100 with mem := record 0x100 x 1000 a true 0 };
      Live s ∧ s.params.Valid ∧ s.inIrq = false ∧ s.sp.life = true ∧ s.sp.running = false ∧ s.tm.irqEn = false ∧
        PortTime s.params.maxW s.latch.a 0xFFFFFFFF ∧ 0x100 = pointer s.params s.latch.ptr ∧ (0x100 : Nat) ≠ 0 ∧
        RecordAfter s.params s.mem 0x100 x 1000 a true 0 ∧ evalWidth s.params ≤ s.params.maxW) ∧
    (let s := { ports stopped 0xFFFFFFFF 0 0 0x100 with params := tight, mem := record 0x100 4 1000 0 true 0 };
      s.params.Valid ∧ PortTime s.params.maxW s.latch.a 0xFFFFFFFF ∧ 0x100 = pointer s.params s.latch.ptr ∧
        RecordAfter s.params s.mem 0x100 4 1000 0 true 0 ∧ s.params.maxW < evalWidth s.params) := by
  refine ⟨?_, tight_valid, by decide, by decide, ⟨by decide, by decide, by decide, by decide, rfl⟩, by decide⟩
  intro x a h
  simp only [List.mem_cons, Prod.mk.injEq, List.not_mem_nil, or_false] at h
  rcases h with ⟨rfl, rfl⟩ | ⟨rfl, rfl⟩ | ⟨rfl, rfl⟩ | ⟨rfl, rfl⟩ | ⟨rfl, rfl⟩ <;>
    exact ⟨by decide, defaults_valid, by decide, by decide, by decide, by decide, by decide, by decide, by decide,
      record_after _ 0 _ (by decide) (by decide) (by decide), by decide⟩

theorem witness_StopEndsTheRun : Live stopped ∧ stopped.inIrq = false ∧ stopped.sp.life = true ∧ Live (running 0 1) ∧
    (running 0 1).inIrq = false ∧ (running 0 1).sp.life = true ∧ (byCore stopped true).inIrq = true ∧
    State.reset.inIrq = false ∧ State.reset.sp.life = false := by decide

theorem witness_FetchStopEndsTheRun : let s := byCore (answering atFetch .stop false) false;
    Live s ∧ s.latch.issuer = .core ∧ s.sp.running = true ∧ s.sp.notEnded = false ∧
      s.latch.reply = some ⟨[], true, .stop, false⟩ ∧ s.tm.irqEn = true ∧ s.im = false ∧ s.inIrq = false ∧
      (s.cnt - s.tm.time).toNat < 2 ^ 31 := by decide

theorem witness_FetchContinueLoadsTheNextCommand :
    (let s := byCore (answering { atFetch with mem := record 0x100 4 1000 (-4) true 0 } (.proceed 0x100) false) true;
      Live s ∧ s.params.Valid ∧ s.latch.issuer = .core ∧ s.sp.running = true ∧ s.sp.notEnded = false ∧
        s.latch.reply = some ⟨[], true, .proceed 0x100, false⟩ ∧ 0x100 = pointer s.params 0x100 ∧ s.inIrq = true ∧
        s.tm.irqEn = true ∧ RecordAfter s.params s.mem 0x100 4 1000 (-4) true 0 ∧ evalWidth s.params ≤ s.params.maxW ∧
        tight.Valid ∧ 0x100 = pointer tight 0x100 ∧ RecordAfter tight s.mem 0x100 4 1000 (-4) true 0 ∧
        tight.maxW < evalWidth tight) ∧
    (let s := byCore (answering atFetch (.proceed 0) false) true;
      Live s ∧ s.latch.issuer = .core ∧ s.sp.running = true ∧ s.sp.notEnded = false ∧
        s.latch.reply = some ⟨[], true, .proceed 0, false⟩) :=
  ⟨⟨by decide, defaults_valid, by decide, by decide, by decide, by decide, by decide, by decide, by decide,
    record_after _ 0 _ (by decide) (by decide) (by decide), by decide, tight_valid, by decide,
    ⟨by decide, by decide, by decide, by decide, rfl⟩, by decide⟩, by decide⟩

/-- A running state with the guard on, and the answer of its consumer. -/
def guarded (abort : Bool) : State :=
  byCore (answering { running 0 1 with sp := { (running 0 1).sp with prestepEn := true } } .stop abort) true

theorem witness_GuardAbortEndsTheRun : Live (guarded true) ∧ (guarded true).latch.issuer = .core ∧
    (guarded true).sp.running = true ∧ (guarded true).sp.notEnded = true ∧ (guarded true).sp.prestepEn = true ∧
    (guarded true).latch.reply = some ⟨[], true, .stop, true⟩ ∧
    (guarded false).latch.reply = some ⟨[], true, .stop, false⟩ ∧
    (let s := { guarded false with sp := { (guarded false).sp with prestepEn := false }
                                   trace := (guarded false).trace ++ [.preCb 0 false] };
      exec .spStep s = .next (next (exec .spStep s))) :=
  ⟨rfl, rfl, rfl, rfl, rfl, rfl, rfl, eq_next (by decide +kernel)⟩

/-- The helper's running state is a segment under way, in either phase, from its first event to its last. -/
theorem segment_at (a : Int) (k : Nat) (ha : a ∈ [(0 : Int), 4, -4]) (hk : k ∈ [1, 3, 4]) :
    SegmentAt (byCore (running a k) true) 4 1000 a true 5000 k := by
  simp only [List.mem_cons, List.not_mem_nil, or_false] at ha hk
  rcases ha with rfl | rfl | rfl <;> rcases hk with rfl | rfl | rfl <;>
    exact ⟨record_after _ _ _ (by decide) (by decide) (by decide), by decide, by decide, by decide, by decide, by decide,
      by decide, by decide, by decide⟩

/-- And so it is on an instance with MAX_W at its lower bound. -/
theorem segment_tight : SegmentAt { byCore (running 0 1) true with params := tight } 4 1000 0 true 5000 1 :=
  ⟨⟨by decide, by decide, by decide, by decide, rfl⟩, rfl, rfl, by decide, by decide, rfl, rfl, rfl, rfl⟩

theorem witness_PulseAdvancesTheSegment : (∀ a ∈ [(0 : Int), 4, -4], ∀ k ∈ [1, 3],
    let s := byCore (running a k) true;
    Live s ∧ s.params.Valid ∧ s.latch.issuer = .core ∧ s.inIrq = true ∧ s.tm.irqEn = true ∧
      s.tm.armed = s.params.assertions ∧ s.sp.prestepEn = false ∧ SegmentAt s 4 1000 a true 5000 k ∧ k < 4 ∧
      evalWidth s.params ≤ s.params.maxW) ∧
    tight.Valid ∧ tight.maxW < evalWidth tight ∧
      SegmentAt { byCore (running 0 1) true with params := tight } 4 1000 0 true 5000 1 := by
  refine ⟨?_, tight_valid, by decide, segment_tight⟩
  intro a ha k hk
  have hs := segment_at a k ha (by simp only [List.mem_cons, List.not_mem_nil, or_false] at hk ⊢; omega)
  simp only [List.mem_cons, List.not_mem_nil, or_false] at hk
  exact ⟨rfl, defaults_valid, rfl, rfl, rfl, rfl, rfl, hs, by omega, (by decide : evalWidth defaultParams ≤ defaultParams.maxW)⟩

theorem witness_BoundaryPulseEndsTheSegment : ∀ a ∈ [(0 : Int), 4, -4],
    let s := byCore (running a 4) true;
    Live s ∧ s.latch.issuer = .core ∧ s.inIrq = true ∧ s.tm.irqEn = true ∧ s.tm.armed = s.params.assertions ∧
      s.sp.prestepEn = false ∧ SegmentAt s 4 1000 a true 5000 4 :=
  fun a ha => ⟨rfl, rfl, rfl, rfl, rfl, rfl, segment_at a 4 ha (by decide)⟩

/-- The value or the violation of an FX function. -/
def answers (r : Except Violation Bounded) : Int ⊕ Violation :=
  match r with
  | .ok b => .inl b.val
  | .error v => .inr v

/-- A record whose next evaluation answers, one whose next evaluation divides by zero, one whose discriminant turns negative
(V19), and a pulse on the boundary, with the largest discriminant and with one beyond it. -/
theorem witness_EvalIsTheFxChain :
    (let s := { running 4 1 with mem := record 0x100 4 1000 4 true 0 };
      memGet s.mem 0x100 .disc = some 0 ∧ memGet s.mem 0x100 .amul = some 268435456 ∧
        memGet s.mem 0x100 .tmul = some 1000 ∧ Memory.wf s.params s.mem ∧ s.sp.pos ≠ 0 ∧ 0 ≤ (0 + 268435456 : Int) ∧
        evalWidth s.params ≤ s.params.maxW ∧
        answers (fxEvalChain s.params 0 268435456 s.sp.v0 s.sp.pos 1000) = .inl 500) ∧
    (let s := { running 4 1 with mem := [⟨0x100, ⟨4, 1000, 0, 0⟩⟩] };
      memGet s.mem 0x100 .disc = some 0 ∧ memGet s.mem 0x100 .amul = some 0 ∧ memGet s.mem 0x100 .tmul = some 1000 ∧
        Memory.wf s.params s.mem ∧ s.sp.pos ≠ 0 ∧ 0 ≤ (0 + 0 : Int) ∧
        answers (fxEvalChain s.params 0 0 s.sp.v0 s.sp.pos 1000) = .inr .fxDivZero) ∧
    (let s := { running 4 1 with mem := [⟨0x100, ⟨4, 1000, -1, 0⟩⟩] };
      memGet s.mem 0x100 .disc = some 0 ∧ memGet s.mem 0x100 .amul = some (-1) ∧ Memory.wf s.params s.mem ∧
        (0 + -1 : Int) < 0) ∧
    (let s := { running (-4) 4 with mem := [⟨0x100, ⟨4, 1000, 1, 288230376151711743⟩⟩] };
      Memory.wf s.params s.mem ∧ s.sp.pos = 0 ∧ ¬ (288230376151711743 + 1 : Int) ≤ 2 ^ 58 - 1 ∧
        (288230376151711742 + 1 : Int) ≤ 2 ^ 58 - 1) ∧
    Memory.wf tight (record 0x100 4 1000 4 true 0) ∧ tight.maxW < evalWidth tight := by decide +kernel

/-- The registers of the helper's states hold values of their widths. -/
theorem running_in_range : RegistersInRange (running 4 1) ∧ RegistersInRange (running (-4) 4) :=
  ⟨by constructor <;> decide, by constructor <;> decide⟩

theorem witness_PulseOffsetsNeverDecrease : 1 ≤ 65535 ∧ (-65535 : Int).natAbs ≤ 65535 ∧ 0 < 65535 ∧ 65534 < 65535 := by decide

theorem witness_RouteCatchesAllOtherIds : 1 ≤ 1 ∧ 1 < 3 - 1 ∧ 3 - 1 ≤ 2 ∧ 1 - 1 ≤ 0 := by decide

theorem witness_CallbacksAskTheConsumer :
    Live (byCore atFetch true) ∧ (byCore atFetch true).latch.issuer = .core ∧ (byCore atFetch true).latch.reply = none ∧
    (answering atFetch .stop false).latch.reply = some ⟨[], true, .stop, false⟩ ∧
    { atFetch.latch with reply := some ⟨[], false, .stop, false⟩ }.reply = some ⟨[], false, .stop, false⟩ := by decide

/-- A fetch interrupt whose consumer first issues the word `w` with `a` on port A. -/
def issuing (w : RequestWord) (a : Int) : State :=
  { byCore atFetch true with latch := { (byCore atFetch true).latch with
    reply := some ⟨[.operate (request w (ab a 0)), .free 0x100], true, .stop, false⟩ } }

theorem witness_CallbacksMayNotDriveTheirAxis :
    Live (issuing 0x22050000 0) ∧ (issuing 0x22050000 0).latch.issuer = .core ∧ (issuing 0x22050000 0).inIrq = true ∧
    (issuing 0x22050000 0).latch.reply =
      some ⟨.operate (request 0x22050000 (ab 0 0)) :: [.free 0x100], true, .stop, false⟩ ∧
    decode (request 0x22050000 (ab 0 0)).word = .ok (.spStart 5) ∧
    portHoldsTime 64 (request 0x22050000 (ab 0xFFFFFFFF 0)).a = true ∧
    portHoldsTime 64 (request 0x22050000 (ab 0x100000000 0)).a = false ∧
    decode (request 0x23000000 (ab 0 0)).word = .ok .spStop ∧
    decode (request 0x26000001 (ab 0 0)).word = .ok (.spPrestep true) := by decide

/-- Each of the five raises SP_CONTEXT, but SP.START without a time is an illegal word. -/
theorem test_callback_context :
    [0x20000000, 0x21000000, 0x22050000, 0x23000000, 0x26000001].map
      (fun w : Nat => faulted (exec (.cdCmdcb 0) (issuing (BitVec.ofNat 32 w) 0))) = List.replicate 5 (some 0x051) := by decide
theorem test_callback_start_without_time : faulted (exec (.cdPrecb 0) (issuing 0x22050000 (-1))) = some 0x061 := by decide

theorem witness_RdregShowsTheRegisters : (running 4 1).params.Valid ∧ RegistersInRange (running 4 1) ∧
    (running 4 1).sp.cmdPtr < 2 ^ (running 4 1).params.maxW ∧ tiny.Valid ∧ RegistersInRange (State.resetOf tiny) ∧
    (State.resetOf tiny).sp.cmdPtr < 2 ^ tiny.maxW ∧ 2 ^ tiny.maxW ≤ 2 ^ tiny.ptrBits - 1 ∧
    (6#8).toNat ∉ [0, 1, 2, 3, 4, 5, 8, 9, 10, 11, 15] :=
  ⟨defaults_valid, running_in_range.1, by decide, tiny_valid, by constructor <;> decide, by decide, by decide, by decide⟩

theorem witness_ResetGivesTheStatedValues : { halted with inputs := [.reset, .tick 1] }.inputs = .reset :: [.tick 1] := rfl

theorem witness_ProducerFillsRecordsItOwns :
    (∀ s ∈ [stopped, running 0 1],
      let f := Input.fill 0x100 ⟨0x3FFFF, 0x7FFFFFFF, -4397979402240, 288221580125798400⟩;
      { s with inputs := [f] }.inputs = f :: [] ∧ 0x100 = pointer s.params 0x100 ∧ Memory.wf s.params s.mem) ∧
    recordFits defaultParams ⟨0x3FFFF, 0x7FFFFFFF, -4397979402240, 288221580125798400⟩ = true ∧
    recordFits defaultParams ⟨0x40000, 0, 0, 0⟩ = false ∧ recordFits defaultParams ⟨0, 0, 2 ^ 42, 0⟩ = false ∧
    owns stopped 0x100 = false ∧ owns (running 0 1) 0x100 = true ∧ memRecord (record 0x100 4 1000 0 true 0) 0x200 = none := by
  decide +kernel

theorem witness_ResetMeetsTheInvariant : defaultParams.Valid ∧ narrow.Valid ∧ tiny.Valid :=
  ⟨defaults_valid, narrow_valid, tiny_valid⟩

/-- A running machine meets the invariant. -/
theorem running_inv : Inv (running 0 1) where
  params := defaults_valid
  registers := by constructor <;> decide
  memory := by decide +kernel
  coherent := ⟨fun _ => rfl, fun _ _ => ⟨rfl, by decide⟩, fun _ => rfl, fun _ => rfl⟩
  timer := ⟨fun _ => by decide, fun _ => rfl⟩
  fault := ⟨fun _ => rfl, nofun⟩
  stepLow := rfl

theorem witness_StepKeepsTheInvariant : Inv (running 0 1) ∧ step (running 0 1) = .next (next (step (running 0 1))) :=
  ⟨running_inv, eq_next (by decide +kernel)⟩

theorem witness_InnerViolationsAreUnreachable :
    Inv (running 0 1) ∧ Live (running 0 1) ∧ step (running 0 1) = .next (next (step (running 0 1))) :=
  ⟨running_inv, rfl, eq_next (by decide +kernel)⟩

theorem witness_RegistersChangeOnlyByTheirWriters :
    (let s := byCore (running 0 1) true;
      exec .spStep s = .next (next (exec .spStep s)) ∧ s.inIrq = true) ∧
    exec .spStop (running 0 1) = .next (next (exec .spStop (running 0 1))) :=
  ⟨⟨eq_next (by decide +kernel), rfl⟩, eq_next (by decide +kernel)⟩

end Tests
end Sys2Proof
end

/-! ## O57, O19, O55, O23: reset, one step of the schedule, the FAULT register -/

/-! ### Reset and the schedule -/

namespace Sys2Proof
namespace Machine

/-- A machine that runs nothing meets the invariant where its memory, its registers and its fault do. -/
theorem inv_of_stopped {s : State} (hp : s.params.Valid) (hr : RegistersInRange s) (hm : Memory.wf s.params s.mem)
    (hf : FaultCoherent s) (hstep : s.pins.step = false) (hrun : s.sp.running = false) (hirq : s.tm.irqEn = false)
    (hback : Live s → s.inIrq = false) (hlife : s.sp.life = true → s.tm.tlife = true) : Inv s where
  params := hp
  registers := hr
  memory := hm
  coherent := ⟨fun _ => hrun.trans hirq.symm, fun _ h => by simp [hrun] at h, hback, hlife⟩
  timer := ⟨fun h => by simp [hirq] at h, fun h => by simp [hirq] at h⟩
  fault := hf
  stepLow := hstep

theorem resetOf_inv {p : Params} (hp : p.Valid) : Inv (State.resetOf p) :=
  inv_of_stopped hp ⟨Nat.two_pow_pos _, Nat.two_pow_pos _, Nat.two_pow_pos _, Nat.two_pow_pos _⟩
    (resetOf_memory_wf p) ⟨fun _ => rfl, nofun⟩ rfl rfl rfl (fun _ => rfl) nofun

theorem defaultParams_valid : defaultParams.Valid := by
  constructor <;> decide

/-- Free registers hold values of their widths. -/
theorem unspecifyRegisters_inRange (s : State) : RegistersInRange (unspecifyRegisters s) :=
  ⟨BitVec.isLt _, BitVec.isLt _, BitVec.isLt _, BitVec.isLt _⟩

theorem resetOf_tmCtrlWord (p : Params) : tmCtrlWord p (State.resetOf p).tm = 0 := by
  show BitVec.ofBool false ++ BitVec.ofBool false ++ BitVec.ofBool false = 0#3
  decide

theorem resetOf_faultWord (p : Params) : faultWord (State.resetOf p).fault = 0 := by
  show faultWord { halted := false, code := 0 } = 0
  decide

/-- RESET brings any machine with admitted parameters and a canonical memory to the invariant. -/
theorem assertReset_inv {s : State} (hp : s.params.Valid) (hm : Memory.wf s.params s.mem) : Inv (assertReset s) :=
  have hr := unspecifyRegisters_inRange s
  inv_of_stopped hp ⟨hr.cmdPtr, hr.pos, hr.v0, hr.consumer⟩ hm ⟨fun _ => rfl, nofun⟩ rfl rfl rfl (fun _ => rfl) nofun

/-- Settles O57: a reset machine runs nothing, and each of its registers holds 0. -/
theorem resetMeetsTheInvariant : Obligations.ResetMeetsTheInvariant :=
  ⟨fun _ hp => resetOf_inv hp, defaultParams_valid, rfl⟩

/-! ### One step of the schedule -/

theorem step_request {s : State} {r : Request} {rest : List Input} (h : s.inputs = .request r :: rest) :
    step s = performRequest r.word (acceptRequest r rest s) := by
  simp only [step, h]

theorem step_interrupt {s : State} {lag : Nat} {reply : Option Reply} {rest : List Input}
    (h : s.inputs = .interrupt lag reply :: rest) : step s = exec .tmIrq (acceptInterrupt lag reply rest s) := by
  simp only [step, h]

theorem step_tick {s : State} {n : Nat} {rest : List Input} (h : s.inputs = .tick n :: rest) :
    step s = .next (idle n rest s) := by
  simp only [step, h]

theorem step_fill {s : State} {p : Nat} {r : CommandRecord} {rest : List Input} (h : s.inputs = .fill p r :: rest) :
    step s = .next (environmentStep (fillRecord p r) rest s) := by
  simp only [step, h]

theorem step_free {s : State} {p : Nat} {rest : List Input} (h : s.inputs = .free p :: rest) :
    step s = .next (environmentStep (freeRecord p) rest s) := by
  simp only [step, h]

theorem step_mask {s : State} {b : Bool} {rest : List Input} (h : s.inputs = .mask b :: rest) :
    step s = .next (environmentStep (fun t => { t with im := b }) rest s) := by
  simp only [step, h]

theorem step_reset {s : State} {rest : List Input} (h : s.inputs = .reset :: rest) :
    step s = .next (environmentStep assertReset rest s) := by
  simp only [step, h]

theorem step_unscheduled {s : State} (h : s.inputs = []) : step s = idleStep s := by
  simp only [step, h]

theorem performRequest_decoded {w : RequestWord} {i : Instr} (s : State) (h : decode w = .ok i) :
    performRequest w s = exec i s := by
  simp only [performRequest, h]

theorem performRequest_rejected {w : RequestWord} {e : DecodeError} (s : State) (h : decode w = .error e) :
    performRequest w s = perform illegalWord s := by
  simp only [performRequest, h]

/-- Where the interrupt is disabled, masked, not due or not to be served, no delivery is made. -/
theorem idleInterrupt_eq_false {s : State} (h : s.tm.irqEn = false ∨ s.im = true ∨ s.inIrq = true ∨
    s.fault.halted = true ∨ 2 ^ 31 ≤ (s.cnt - s.tm.cmp).toNat) : idleInterrupt s = false := by
  unfold idleInterrupt interruptMayStart expiryDue
  rcases h with h | h | h | h | h
  · simp [h]
  · simp [h]
  · simp [h]
  · simp [h]
  · have hdue : timeGe s.cnt s.tm.cmp = false := by
      rw [← Bool.not_eq_true, timeGe_iff]
      omega
    simp [hdue]

theorem idleStep_idle {s : State} (h : idleInterrupt s = false) : idleStep s = .next (idle 1 [] s) := by
  simp [idleStep, h]

/-- Settles O19, entry by entry of the schedule. -/
theorem stepPerformsWhatTheScheduleHolds : Obligations.StepPerformsWhatTheScheduleHolds := by
  refine fun s rest => ⟨fun r i hin hdec => ?_, fun lag reply hin => step_interrupt hin, fun n hin => step_tick hin,
    fun hin hquiet => ?_⟩
  · rw [step_request hin, performRequest_decoded _ hdec]
  · rw [step_unscheduled hin, idleStep_idle (idleInterrupt_eq_false hquiet), idle_holds, ← hin]
    rfl

/-- Settles O55, field by field of the two states. -/
theorem resetGivesTheStatedValues : Obligations.ResetGivesTheStatedValues := by
  refine ⟨?_, fun s rest hin => ⟨_, step_reset hin, ?_⟩⟩
  · rintro p _ rfl
    exact ⟨rfl, rfl, rfl, rfl, resetOf_tmCtrlWord p, resetOf_faultWord p, rfl, rfl, rfl, rfl⟩
  · exact ⟨rfl, rfl, rfl, rfl, rfl, rfl, rfl, rfl, rfl, rfl, rfl, rfl, rfl, rfl, rfl⟩

/-! ### The FAULT register -/

/-- FAULT as a number: HALTED is bit 0, CODE the bits above (10_state.md R24). -/
theorem faultWord_toNat (f : FaultReg) : (faultWord f).toNat = f.halted.toNat + 2 * f.code.toNat := by
  unfold faultWord
  rw [BitVec.toNat_append, BitVec.toNat_ofBool, ← Nat.shiftLeft_add_eq_or_of_lt (Bool.toNat_lt f.halted), Nat.shiftLeft_eq]
  omega

/-- Port R holds every number below 2^127 exactly. -/
theorem presented_number_toInt {n : Nat} (w : Nat) (h : n < 2 ^ 127) : (presented ⟨false, w, (n : Int)⟩).r.toInt = n := by
  show (BitVec.ofInt 128 (n : Int)).toInt = n
  rw [BitVec.toInt_ofInt, Int.bmod_def]
  omega

/-- Port RT holds the width of an unsigned type modulo 128 (log entry 27). -/
theorem presented_number_type (w n : Nat) : (presented ⟨false, w, (n : Int)⟩).rt.toNat = w % 128 := by
  show (0#1 ++ BitVec.ofNat 7 w).toNat = w % 128
  rw [BitVec.toNat_append, BitVec.toNat_ofNat, BitVec.toNat_ofNat, Nat.zero_mod, Nat.zero_shiftLeft, Nat.zero_or]

/-- Showing a value of `w` bits on a state with nothing on R: the value where port R holds it, else a free one. -/
theorem presentRegister_showsRegister {s : State} {w n : Nat} {body : Op Unit} (hp : s.params.Valid) (hn : n < 2 ^ w)
    (h : body s = presentRegister w n s) : ShowsRegister s w n (perform body s) := by
  obtain ⟨-, hmax⟩ := hp.maxW
  rw [presentRegister_apply] at h
  refine ⟨hn, fun hlt => ⟨?_, presented_number_toInt w ?_, presented_number_type w n⟩, fun hge =>
    ⟨(Config.freeBits (s.params.maxW + 1) s.freeCount).signExtend 128, ?_⟩⟩
  · rw [if_pos hlt] at h
    exact perform_ok h
  · exact hlt.trans_le (Nat.pow_le_pow_right (by decide) hmax)
  · rw [if_neg (by omega)] at h
    exact perform_ok h

/-- SYS.RDREG of FAULT (44_system.md R170), on a halted machine too. -/
theorem sysRdreg_fault {s : State} (h : s.result = none) :
    sysRdreg 15 s = presentRegister 9 (faultWord s.fault).toNat s := by
  have hq : s.quiet = s := by cases s; cases h; rfl
  unfold sysRdreg
  rw [op_bind_ok (clearResult_apply s), hq, op_check_bind, if_pos (by decide)]
  refine op_bind_ok (a := some ((faultWord s.fault).toNat, 9)) ?_
  rw [atomically_apply, op_ite, if_neg (by decide)]
  rfl

/-- A second violation changes nothing (60_exceptions.md R182). -/
theorem recordViolation_twice (v w : Violation) (s : State) :
    recordViolation w (recordViolation v s) = recordViolation v s := rfl

/-- Settles O23: FAULT holds the first code and HALTED, and its number is 1 + 2c. -/
theorem faultRegisterShowsFirstViolation : Obligations.FaultRegisterShowsFirstViolation := by
  refine fun v w s hl hp => ⟨?_, recordViolation_twice v w s⟩
  have hcode : (recordViolation v s).fault.code = violationCode v := by simp [recordViolation_code, hl]
  have hword : (faultWord (recordViolation v s).fault).toNat = 1 + 2 * (violationCode v).toNat := by
    rw [faultWord_toNat, hcode]
    rfl
  refine presentRegister_showsRegister hp ?_ ?_
  · have := (violationCode v).isLt
    omega
  · rw [← hword]
    exact sysRdreg_fault rfl

end Machine
end Sys2Proof

/-! ## O58: every step keeps the invariant

Inside an operation a part of the invariant fails for a while: RUNNING is written before the timer is armed, IN_IRQ is 1. The
part that never fails is `Sound`; a violation raised there halts the machine, and `Sound` is all that is asked of a halted
machine. So an operation is shown to end in `Inv` and to raise in `Sound` only (`KeepsInv`). -/

/-! ### The part of the invariant that holds inside an operation -/

namespace Sys2Proof
namespace Machine

/-- What holds at every point of an operation where it can raise a violation: all of the invariant but what
10_state.md R26 asks of a machine that is not halted. -/
structure Sound (s : State) : Prop where
  params : s.params.Valid
  registers : RegistersInRange s
  memory : Memory.wf s.params s.mem
  lifeAcquired : s.sp.life = true → s.tm.tlife = true
  timer : TimerAhead s
  fault : FaultCoherent s
  stepLow : s.pins.step = false

/-- What 10_state.md R26 asks of a machine that is not halted. -/
structure Settled (s : State) : Prop where
  runningArmed : s.sp.running = s.tm.irqEn
  runningAlive : s.sp.running = true → s.sp.life = true ∧ s.sp.cmdPtr ≠ 0
  background : s.inIrq = false

theorem Inv.sound {s : State} (h : Inv s) : Sound s :=
  ⟨h.params, h.registers, h.memory, h.coherent.lifeAcquired, h.timer, h.fault, h.stepLow⟩

theorem Inv.settled {s : State} (h : Inv s) (hl : Live s) : Settled s :=
  ⟨h.coherent.runningArmed hl, h.coherent.runningAlive hl, h.coherent.background hl⟩

theorem Sound.inv {s : State} (h : Sound s) (hl : Live s → Settled s) : Inv s where
  params := h.params
  registers := h.registers
  memory := h.memory
  coherent := ⟨fun l => (hl l).runningArmed, fun l => (hl l).runningAlive, fun l => (hl l).background, h.lifeAcquired⟩
  timer := h.timer
  fault := h.fault
  stepLow := h.stepLow

theorem FaultCoherent.congr {s t : State} (h : FaultCoherent s) (hf : t.fault = s.fault) : FaultCoherent t := by
  obtain ⟨hclear, hcoded⟩ := h
  constructor <;> rw [hf] <;> assumption

/-- A frame around the handler's registers keeps the part that holds inside an operation. -/
theorem Sound.handlerFrame {s t : State} (h : Sound s) (hf : HandlerFrame s t) : Sound t where
  params := hf.params ▸ h.params
  registers := hf.range h.params h.registers
  memory := hf.wf
  lifeAcquired := fun hl => by
    rw [hf.tlife]
    exact h.lifeAcquired (hf.life ▸ hl)
  timer := by
    obtain ⟨hahead, harmed⟩ := h.timer
    refine ⟨fun hi => hf.ahead (hahead (hf.irqEn ▸ hi)), fun hi => ?_⟩
    rw [hf.params]
    exact hf.armed (harmed (hf.irqEn ▸ hi))
  fault := h.fault.congr hf.fault
  stepLow := hf.step h.stepLow

/-- Where nothing but the timer's times and flags, the interrupt's state and the ports differ, it is the timer's part
that is to be shown. -/
theorem Sound.withTimer {s t : State} (h : Sound s) (hp : t.params = s.params) (hs : t.sp = s.sp) (hm : t.mem = s.mem)
    (hf : t.fault = s.fault) (hst : t.pins = s.pins) (hl : t.tm.tlife = s.tm.tlife) (ht : TimerAhead t) : Sound t where
  params := hp ▸ h.params
  registers := keepsRange_of hp hs h.params h.registers
  memory := by
    rw [hp, hm]
    exact h.memory
  lifeAcquired := by
    rw [hs, hl]
    exact h.lifeAcquired
  timer := ht
  fault := h.fault.congr hf
  stepLow := (congrArg Pins.step hst).trans h.stepLow

/-- Arming the timer sets the compare register at or after the requested time. -/
theorem Sound.armedAt {s : State} (h : Sound s) (time : Time) : Sound (armedAt time s) :=
  h.withTimer rfl rfl rfl rfl rfl rfl ⟨fun _ => timeGe_rebase _ _ _, fun _ => rfl⟩

theorem Sound.disarmed {s : State} (h : Sound s) : Sound (disarmed s) :=
  h.withTimer rfl rfl rfl rfl rfl rfl ⟨nofun, nofun⟩

/-- A write of IN_IRQ is no matter of what holds inside an operation. -/
theorem Sound.withInIrq {s : State} (h : Sound s) (b : Bool) : Sound { s with inIrq := b } :=
  h.withTimer rfl rfl rfl rfl rfl rfl ⟨h.timer.ahead, h.timer.armed⟩

/-- A recorded violation halts, and a halted machine has nothing to settle. -/
theorem Sound.recordViolation {s : State} (h : Sound s) (v : Violation) : Inv (recordViolation v s) := by
  refine Sound.inv ⟨h.params, keepsRange_of (s := s) rfl rfl h.params h.registers, h.memory, h.lifeAcquired,
    ⟨h.timer.ahead, h.timer.armed⟩, ⟨nofun, fun _ => ?_⟩, h.stepLow⟩ nofun
  rw [recordViolation_code]
  split
  · exact h.fault.coded (by assumption)
  · exact ⟨v, rfl⟩

/-! ### Frames that keep the invariant -/

/-- The invariant speaks of no port, no counter, no trace, no schedule and no mask. -/
theorem Inv.congr {s t : State} (h : Inv s) (hp : t.params = s.params) (hs : t.sp = s.sp) (ht : t.tm = s.tm)
    (hf : t.fault = s.fault) (hi : t.inIrq = s.inIrq) (hst : t.pins.step = s.pins.step)
    (hm : Memory.wf t.params t.mem) : Inv t where
  params := hp ▸ h.params
  registers := keepsRange_of hp hs h.params h.registers
  memory := hm
  coherent := by
    obtain ⟨h1, h2, h3, h4⟩ := h.coherent
    constructor <;> simp only [hs, ht, hf, hi] <;> assumption
  timer := by
    obtain ⟨h1, h2⟩ := h.timer
    constructor <;> simp only [hp, ht] <;> assumption
  fault := h.fault.congr hf
  stepLow := hst.trans h.stepLow

/-- The next entry is taken from the schedule: its port values are latched, no result stands. -/
theorem Inv.accepted {s : State} (h : Inv s) (l : Latch) (rest : List Input) :
    Inv { s with latch := l, result := none, inputs := rest } :=
  h.congr rfl rfl rfl rfl rfl rfl h.memory

theorem Inv.callbackFrame {s t : State} (h : Inv s) (hf : CallbackFrame s t) : Inv t :=
  h.congr hf.params hf.sp hf.tm hf.fault hf.inIrq (congrArg Pins.step hf.pins) hf.wf

theorem Inv.quiet {s : State} (h : Inv s) : Inv s.quiet := h.congr rfl rfl rfl rfl rfl rfl h.memory

/-- From a machine that meets the invariant to one that is stopped, with the registers of its life written. -/
theorem Inv.stopped {s t : State} (h : Inv s) (hp : t.params = s.params) (hr : RegistersInRange t) (hm : t.mem = s.mem)
    (hf : t.fault = s.fault) (hst : t.pins.step = s.pins.step) (hi : t.inIrq = s.inIrq) (hrun : t.sp.running = false)
    (hirq : t.tm.irqEn = false) (hlife : t.sp.life = true → t.tm.tlife = true) : Inv t := by
  refine inv_of_stopped (hp ▸ h.params) hr (by rw [hp, hm]; exact h.memory) (h.fault.congr hf) (hst.trans h.stepLow)
    hrun hirq ?_ hlife
  rw [Live, hf, hi]
  exact h.coherent.background

/-! ### Operations on the operation port -/

/-- An operation keeps the invariant: where it ends it holds, and where it raises the part inside an operation does. -/
abbrev KeepsInv (x : Op Unit) (s : State) : Prop := Runs x s (fun _ t => Inv t) (fun _ t => Sound t)

theorem KeepsInv.perform {x : Op Unit} {s t : State} (h : KeepsInv x s) (ht : perform x s = .next t) : Inv t := by
  rcases perform_runs h ht with hi | ⟨v, u, rfl, hu⟩
  · exact hi
  · exact hu.recordViolation v

theorem keepsInv_of_callback {x : Op Unit} {s : State} (hs : Inv s) (h : RunsInCallback x s) : KeepsInv x s :=
  runs_mono h (fun _ _ hf => hs.callbackFrame hf) fun _ _ hf => (hs.callbackFrame hf.2).sound

theorem keepsInv_onPort {body : Op Unit} {s : State} (hs : Inv s)
    (h : Live s.quiet → Inv s.quiet → KeepsInv body s.quiet) : KeepsInv (onPort body) s :=
  runs_onPort (fun _ => hs.quiet) fun hl => h hl hs.quiet

theorem runs_requireBackground_bind {β : Type} {f : Unit → Op β} {s : State} {Q : β → State → Prop}
    {E : Violation → State → Prop} (h : s.inIrq = false → Runs (f ()) s Q E) (he : E .spContext s) :
    Runs (requireBackground >>= f) s Q E := by
  refine runs_congr (y := check (s.inIrq = false) .spContext >>= f) (t := s) ?_ (runs_check_bind h he)
  unfold requireBackground
  rw [op_bind_assoc, op_get_bind]

theorem keepsInv_spInit {s : State} (hs : Inv s) : KeepsInv spInit s := by
  refine keepsInv_onPort hs fun _ hq => runs_requireBackground_bind (fun _ => ?_) hq.sound
  refine runs_get_bind (runs_check_bind (fun _ => ?_) hq.sound)
  refine runs_bind (runs_of_ok (timerInit_apply _) (runs_modify ?_))
  obtain ⟨hcmd, hpos, hv0, hcons⟩ := hq.registers
  exact hq.stopped rfl ⟨hcmd, hpos, hv0, hcons⟩ rfl rfl rfl rfl rfl rfl fun _ => rfl

theorem keepsInv_spDeinit {s : State} (hs : Inv s) : KeepsInv spDeinit s := by
  refine keepsInv_onPort hs fun hl hq => runs_requireBackground_bind (fun _ => ?_) hq.sound
  refine runs_get_bind (runs_check_bind (fun _ => runs_get_bind (runs_check_bind (fun hrun => ?_) hq.sound)) hq.sound)
  have hirq : s.quiet.tm.irqEn = false := (hq.settled hl).runningArmed ▸ hrun
  refine runs_bind (runs_of_ok ((timerDeinit_apply _).trans (if_pos hirq)) (runs_modify ?_))
  exact hq.stopped rfl (unspecifyRegisters_inRange _) rfl rfl rfl rfl rfl rfl nofun

theorem keepsInv_spPrestep {s : State} (flag : Bool) (hs : Inv s) : KeepsInv (spPrestep flag) s := by
  refine keepsInv_onPort hs fun hl hq => runs_requireBackground_bind (fun _ => ?_) hq.sound
  refine runs_get_bind (runs_check_bind (fun _ => runs_get_bind (runs_check_bind (fun hrun => ?_) hq.sound)) hq.sound)
  have hirq : s.quiet.tm.irqEn = false := (hq.settled hl).runningArmed ▸ hrun
  obtain ⟨hcmd, hpos, hv0, hcons⟩ := hq.registers
  exact runs_modify (hq.stopped rfl ⟨hcmd, hpos, hv0, hcons⟩ rfl rfl rfl rfl hrun hirq hq.coherent.lifeAcquired)

/-- What SP.STOP does once its checks have passed (42_scheduler.md R139). -/
theorem runs_spStop_body {s : State} {Q : Unit → State → Prop} {E : Violation → State → Prop}
    (h : Q () { disarmed s with sp := { s.sp with running := false } }) :
    Runs (atomically do
      timerUnset
      modify fun s => { s with sp := { s.sp with running := false } }) s Q E := by
  refine runs_of_ok (a := ()) ?_ h
  rw [atomically_apply, op_bind_ok (timerUnset_apply _)]
  rfl

theorem keepsInv_spStop {s : State} (hs : Inv s) : KeepsInv spStop s := by
  refine keepsInv_onPort hs fun _ hq => runs_requireBackground_bind (fun _ => ?_) hq.sound
  refine runs_get_bind (runs_check_bind (fun _ => runs_spStop_body ?_) hq.sound)
  obtain ⟨hcmd, hpos, hv0, hcons⟩ := hq.registers
  exact hq.stopped rfl ⟨hcmd, hpos, hv0, hcons⟩ rfl rfl rfl rfl rfl rfl hq.coherent.lifeAcquired

/-- The consumer id SP.START records is one of CID_BITS bits; only the count of free values may move. -/
theorem runs_recordedConsumer_bind {β : Type} {cid : ConsumerId} {f : Nat → Op β} {s : State} {Q : β → State → Prop}
    {E : Violation → State → Prop}
    (h : ∀ id n, id < 2 ^ s.params.cidBits → Runs (f id) { s with freeCount := n } Q E) :
    Runs (recordedConsumer cid >>= f) s Q E := by
  refine runs_bind (runs_get_bind ?_)
  dsimp only
  split
  · exact runs_pure (h _ s.freeCount (by assumption))
  · exact runs_bind (runs_of_ok (freshBits_apply _ _) (runs_pure (h _ _ (BitVec.isLt _))))

/-- SP.START's writes before LOAD leave what holds inside an operation: the timer is not armed yet. -/
theorem Sound.started {s : State} (h : Sound s) (hirq : s.tm.irqEn = false) {id q n : Nat}
    (hid : id < 2 ^ s.params.cidBits) (hq : q < 2 ^ s.params.ptrBits) :
    Sound { s with freeCount := n, sp := { s.sp with running := true, consumer := id, cmdPtr := q } } where
  params := h.params
  registers := ⟨hq, h.registers.pos, h.registers.v0, hid⟩
  memory := h.memory
  lifeAcquired := h.lifeAcquired
  timer := ⟨fun hi => by simp [hirq] at hi, fun hi => by simp [hirq] at hi⟩
  fault := ⟨h.fault.clear, h.fault.coded⟩
  stepLow := h.stepLow

theorem keepsInv_spStart {s : State} (cid : ConsumerId) (hs : Inv s) : KeepsInv (spStart cid) s := by
  refine keepsInv_onPort hs fun hl hq => runs_get_bind (runs_timeOperand_bind (fun _ time => ?_) hq.sound)
  refine runs_requireBackground_bind (fun hback => ?_) hq.sound
  refine runs_get_bind (runs_check_bind (fun hlife => runs_get_bind (runs_check_bind (fun hrun => ?_) hq.sound)) hq.sound)
  refine runs_get_bind (runs_check_bind (fun hptr => runs_recordedConsumer_bind fun id n hid => ?_) hq.sound)
  have hirq : s.quiet.tm.irqEn = false := (hq.settled hl).runningArmed ▸ hrun
  have start := hq.sound.started (n := n) hirq hid (pointer_lt s.params s.latch.ptr)
  refine runs_modify_bind (runs_loadCommand hq.memory (fun v u _ hu => start.handlerFrame hu.toUntouched.handler)
    (fun u _ _ hi => ?_) (fun u _ h => by cases h) fun u target hu _ _ => ?_)
  · exact absurd (hi.symm.trans hirq) (by simp)
  · refine (start.handlerFrame hu.toUntouched.handler).armedAt target |>.inv fun _ => ⟨hu.running, fun _ => ⟨?_, ?_⟩, ?_⟩
    · exact hu.life.trans hlife
    · exact fun h0 => hptr (hu.cmdPtr.symm.trans h0)
    · exact hu.inIrq.trans hback

/-- The twelve FX operations touch the result port alone and raise no inner violation. -/
theorem runs_portOperation_fx {i : Instr} (s : State) (h : isFx i = true) :
    Runs (portOperation i) s (fun _ t => ResultOnly s t) (Outer (ResultOnly s)) := by
  cases i
  case fxMake => exact runs_fxMake s
  case fxTos => exact runs_unaryFx (fun _ a => fxSafe_tos a) s
  case fxTou => exact runs_unaryFx (fun _ a => fxSafe_tou a) s
  case fxWiden n => exact runs_unaryFx (fun m a => fxSafe_widen m a n.toNat) s
  case fxNarrow n => exact runs_unaryFx (fun _ a => fxSafe_narrow a n.toNat) s
  case fxShl n => exact runs_unaryFx (fun m a => fxSafe_shl m a n.toNat) s
  case fxShr n => exact runs_unaryFx (fun _ a => fxSafe_shr a n.toNat) s
  case fxSqrt n => exact runs_unaryFx (fun m a => fxSafe_sqrt m a n.toNat) s
  case fxAdd => exact runs_binaryFx fxSafe_add s
  case fxSub => exact runs_binaryFx fxSafe_sub s
  case fxMul => exact runs_binaryFx fxSafe_mul s
  case fxDiv n => exact runs_binaryFx (fun m a b => fxSafe_div m a b n.toNat) s
  all_goals simp [isFx] at h

/-- Every operation the port accepts or refuses keeps the invariant. -/
theorem keepsInv_portOperation (i : Instr) {s : State} (hs : Inv s) : KeepsInv (portOperation i) s := by
  cases i
  case spInit => exact keepsInv_spInit hs
  case spDeinit => exact keepsInv_spDeinit hs
  case spStart cid => exact keepsInv_spStart cid hs
  case spStop => exact keepsInv_spStop hs
  case spPrestep flag => exact keepsInv_spPrestep flag hs
  case spGencmd => exact keepsInv_of_callback hs (runsInCallback_spGencmd hs.memory)
  case tmGettime => exact keepsInv_of_callback hs (runsInCallback_tmGettime hs.memory)
  case tmGe => exact keepsInv_of_callback hs (runsInCallback_tmGe hs.memory)
  case sysRdreg => exact keepsInv_of_callback hs (runsInCallback_sysRdreg hs.memory)
  case tmInit | tmDeinit | tmSetfirst | tmSetnext | tmUnset | tmIrq =>
    exact keepsInv_of_callback hs (runsInCallback_illegalWord hs.memory)
  case spStep | cdCmdcb | cdPrecb => exact keepsInv_of_callback hs (runsInCallback_illegalWord hs.memory)
  all_goals exact keepsInv_of_callback hs (runsInCallback_fx hs.memory (runs_portOperation_fx s rfl))

/-- On the operation port the word of an operation of kind I, E or O is illegal (30_encoding.md R69). -/
theorem coreOnly_on_port {body : Op Unit} {s : State} (h : s.latch.issuer = .operationPort) :
    coreOnly body s = illegalWord s := by
  rw [coreOnly_apply, illegalWord, onPort_apply, if_pos h]

/-- What is issued on the operation port is performed as a consumer's operation is (43_dispatch.md R164). -/
theorem exec_on_port {s : State} (i : Instr) (h : s.latch.issuer = .operationPort) :
    exec i s = perform (portOperation i) s := by
  have illegal (body : Op Unit) : perform (coreOnly body) s = perform illegalWord s := by
    unfold perform
    rw [coreOnly_on_port h]
  cases i
  case tmInit | tmDeinit | tmSetfirst | tmSetnext | tmUnset | tmIrq => exact illegal _
  case spStep | cdCmdcb | cdPrecb => exact illegal _
  all_goals rfl

/-- A request keeps the invariant, whether its word names an operation or not. -/
theorem performRequest_inv {w : RequestWord} {s t : State} (hs : Inv s) (hp : s.latch.issuer = .operationPort)
    (ht : performRequest w s = .next t) : Inv t := by
  cases hdec : decode w with
  | ok i =>
    rw [performRequest_decoded s hdec, exec_on_port i hp] at ht
    exact (keepsInv_portOperation i hs).perform ht
  | error e =>
    rw [performRequest_rejected s hdec] at ht
    exact (keepsInv_of_callback hs (runsInCallback_illegalWord hs.memory)).perform ht

/-! ### The interrupt -/

theorem interruptMayStart_iff (s : State) : interruptMayStart s = true ↔
    s.tm.irqEn = true ∧ s.im = false ∧ s.inIrq = false ∧ s.fault.halted = false := by
  simp [interruptMayStart, and_assoc]

/-- The return from the handler: the run goes on with its timer armed, or has ended and the timer is disarmed
(60_exceptions.md R191). -/
theorem keepsInv_handlerReturn {s t : State} {keep : Bool} (hs : Sound s) (hlife : s.sp.life = true)
    (hirq : s.tm.irqEn = true) (h : HandlerEnd s keep t) :
    KeepsInv (do
      if keep then pure () else timerUnset
      modify fun s => { s with inIrq := false }) t := by
  have ht : Sound t := hs.handlerFrame h.toHandlerFrame
  cases keep with
  | true =>
    refine runs_bind (runs_pure (runs_modify ((ht.withInIrq false).inv fun _ => ⟨?_, fun _ => ⟨?_, h.command rfl⟩, rfl⟩)))
    · exact h.running.trans (h.irqEn.trans hirq).symm
    · exact h.life.trans hlife
  | false =>
    refine runs_bind (runs_of_ok (timerUnset_apply t) (runs_modify ((ht.disarmed.withInIrq false).inv fun _ => ?_)))
    exact ⟨h.running, fun hr => absurd (hr.symm.trans h.running) (by simp), rfl⟩

theorem keepsInv_timerIrq {s : State} (hs : Inv s) : KeepsInv timerIrq s := by
  refine runs_get_bind ?_
  split
  case isFalse => exact runs_pure hs
  case isTrue hstart =>
    obtain ⟨hirq, -, -, hl⟩ := (interruptMayStart_iff s).mp (Bool.and_eq_true_iff.mp hstart).1
    obtain ⟨harmed, halive, -⟩ := hs.settled hl
    have hrun : s.sp.running = true := harmed.trans hirq
    have hin : Sound { s with inIrq := true } := hs.sound.withInIrq true
    refine runs_modify_bind (runs_bind (runs_mono (runs_stepHandler hs.memory rfl hirq hrun (halive hrun).2) ?_ ?_))
    · exact fun keep t ht => keepsInv_handlerReturn hin (halive hrun).1 hirq ht
    · exact fun v t ht => hin.handlerFrame ht.2

theorem execTmIrq_inv {s t : State} (hs : Inv s) (ht : exec .tmIrq s = .next t) : Inv t := by
  refine KeepsInv.perform (x := coreOnly timerIrq) ?_ ht
  exact runs_coreOnly (fun _ => hs.quiet) (fun _ => hs.quiet.sound) fun _ _ => keepsInv_timerIrq hs.quiet

/-! ### Every step -/

/-- A step of the environment that keeps the registers and the memory's canonical form keeps the invariant. -/
theorem environmentStep_inv {s : State} {f : State → State} {rest : List Input} (hs : Inv s)
    (h : ∀ t, Inv t → Inv (f t)) : Inv (environmentStep f rest s) :=
  h _ (hs.accepted s.latch rest)

theorem idle_inv {s : State} (n : Nat) (rest : List Input) (hs : Inv s) : Inv (idle n rest s) :=
  environmentStep_inv hs fun _ ht => ht.congr rfl rfl rfl rfl rfl rfl ht.memory

theorem idleStep_inv {s t : State} (hs : Inv s) (ht : idleStep s = .next t) : Inv t := by
  unfold idleStep at ht
  split at ht
  · exact execTmIrq_inv (hs.accepted _ _) ht
  · cases ht
    exact idle_inv 1 [] hs

/-- Settles O58: each entry of the schedule is an operation on the port, a delivered interrupt, or a step of the
environment, and each of these keeps the invariant. -/
theorem stepKeepsTheInvariant : Obligations.StepKeepsTheInvariant := by
  intro s t hs ht
  rcases hin : s.inputs with _ | ⟨input, rest⟩
  · rw [step_unscheduled hin] at ht
    exact idleStep_inv hs ht
  cases input with
  | request r =>
    rw [step_request hin] at ht
    exact performRequest_inv (hs.accepted _ _) rfl ht
  | interrupt lag reply =>
    rw [step_interrupt hin] at ht
    exact execTmIrq_inv (hs.accepted _ _) ht
  | tick n =>
    cases (step_tick hin).symm.trans ht
    exact idle_inv n rest hs
  | fill p r =>
    cases (step_fill hin).symm.trans ht
    exact environmentStep_inv hs fun u hu => hu.callbackFrame (fillRecord_frame p r hu.memory)
  | free p =>
    cases (step_free hin).symm.trans ht
    exact environmentStep_inv hs fun u hu => hu.congr rfl rfl rfl rfl rfl rfl (freeRecord_wf p hu.memory)
  | mask b =>
    cases (step_mask hin).symm.trans ht
    exact environmentStep_inv hs fun u hu => hu.congr rfl rfl rfl rfl rfl rfl hu.memory
  | reset =>
    cases (step_reset hin).symm.trans ht
    exact environmentStep_inv hs fun u hu => assertReset_inv hu.params hu.memory

end Machine
end Sys2Proof

/-! ## O60: which operations write PRESTEP_EN, SP_CONSUMER, TM_TIME and TM_CMP

Nothing is assumed of the memory here, so each operation has its own small frame, said with `Keeps`: a part of the state that
is the same wherever the operation ends or raises. -/

/-! ### What an operation keeps -/

namespace Sys2Proof
namespace Machine

/-- Wherever `x` ends from `s`, or raises, `part` of the state is what it was in `s`. -/
abbrev Keeps {α γ : Type} (part : State → γ) (x : Op α) (s : State) : Prop :=
  Runs x s (fun _ t => part t = part s) (fun _ t => part t = part s)

theorem Keeps.bind {α β γ : Type} {part : State → γ} {x : Op α} {f : α → Op β} {s : State} (hx : Keeps part x s)
    (hf : ∀ a t, part t = part s → Keeps part (f a) t) : Keeps part (x >>= f) s :=
  runs_bind (runs_mono hx (fun a t ht => runs_mono (hf a t ht) (fun _ _ hu => hu.trans ht) fun _ _ hu => hu.trans ht)
    fun _ _ h => h)

/-- Where two states agree in one part they agree in what the part shows. -/
theorem Keeps.map {α γ δ : Type} {part : State → γ} {x : Op α} {s : State} (f : γ → δ) (h : Keeps part x s) :
    Keeps (fun t => f (part t)) x s :=
  runs_mono h (fun _ _ ht => congrArg f ht) fun _ _ ht => congrArg f ht

/-- A part that no recorded violation touches is kept by the meaning. -/
theorem Keeps.perform {γ : Type} {part : State → γ} {x : Op Unit} {s t : State} (h : Keeps part x s)
    (hv : ∀ v u, part (recordViolation v u) = part u) (ht : perform x s = .next t) : part t = part s := by
  rcases perform_runs h ht with hq | ⟨v, u, rfl, hu⟩
  · exact hq
  · exact (hv v u).trans hu

/-- The parameters, the scheduler and timer registers, and IN_IRQ. -/
abbrev registers (s : State) : Params × SpRegs × TmRegs × Bool := (s.params, s.sp, s.tm, s.inIrq)

/-- PRESTEP_EN and SP_CONSUMER, which a run leaves alone, with the parameters and IN_IRQ. -/
abbrev settings (s : State) : Params × Bool × Nat × Bool := (s.params, s.sp.prestepEn, s.sp.consumer, s.inIrq)

theorem Keeps.settings {α : Type} {x : Op α} {s : State} (h : Keeps registers x s) : Keeps settings x s :=
  h.map fun r => (r.1, r.2.1.prestepEn, r.2.1.consumer, r.2.2.2)

theorem inIrq_of_registers {s t : State} (h : registers t = registers s) : t.inIrq = s.inIrq :=
  congrArg (fun r => r.2.2.2) h

/-! ### Operations that touch no register -/

theorem keeps_memRead (p : Nat) (f : Field) (s : State) : Keeps registers (memRead p f) s := by
  obtain ⟨v, n, h⟩ := memRead_ok p f s
  exact runs_of_ok h rfl

theorem keeps_memWrite (p : Nat) (f : Field) (v : Int) (s : State) : Keeps registers (memWrite p f v) s :=
  runs_get_bind (runs_check_bind (fun _ => runs_modify rfl) rfl)

theorem keeps_memFill (p : Nat) (r : CommandRecord) (s : State) : Keeps registers (memFill p r) s :=
  runs_get_bind (runs_check_bind (fun _ => runs_modify rfl) rfl)

theorem registers_spoilIfOwned (p : Nat) (s : State) : registers (spoilIfOwned p s) = registers s := by
  simp [registers]

theorem registers_fillRecord (p : Nat) (r : CommandRecord) (s : State) :
    registers (fillRecord p r s) = registers s := by
  simp [registers]

theorem keeps_illegalWord (s : State) : Keeps registers illegalWord s :=
  runs_onPort (fun _ => rfl) fun _ => runs_raise rfl

theorem keeps_fx {i : Instr} (s : State) (h : isFx i = true) : Keeps registers (portOperation i) s := by
  have same {t : State} (ht : ResultOnly s t) : registers t = registers s := by rw [ht]
  exact runs_mono (runs_portOperation_fx s h) (fun _ _ => same) fun _ _ ht => same ht.2

theorem keeps_presentRegister (w n : Nat) (s : State) : Keeps registers (presentRegister w n) s := by
  by_cases h : n < 2 ^ s.params.maxW
  · exact runs_of_ok ((presentRegister_apply w n s).trans (if_pos h)) rfl
  · exact runs_of_ok ((presentRegister_apply w n s).trans (if_neg h)) rfl

theorem keeps_tmGe (s : State) : Keeps registers tmGe s :=
  runs_onPort (fun _ => rfl) fun _ => runs_get_bind (runs_timeOperand_bind (fun _ _ => runs_get_bind
    (runs_timeOperand_bind (fun _ _ => runs_of_ok (present_apply _ _) rfl) rfl)) rfl)

theorem keeps_tmGettime (s : State) : Keeps registers tmGettime s :=
  runs_onPort (fun _ => rfl) fun _ => runs_bind (runs_of_ok
    (a := s.cnt + BitVec.ofNat 32 s.latch.lag) (t := advanceCounter s.latch.lag s.quiet) rfl
    (keeps_presentRegister _ _ (advanceCounter s.latch.lag s.quiet)))

theorem keeps_atomically {α : Type} {body : Op α} {s : State} (h : Keeps registers body { s with im := true }) :
    Keeps registers (atomically body) s :=
  runs_get_bind (runs_modify_bind (runs_bind (runs_mono h
    (fun _ _ ht => runs_modify_bind (runs_pure ht)) fun _ _ ht => ht)))

theorem keeps_sysRdreg (reg : BitVec 8) (s : State) : Keeps registers (sysRdreg reg) s := by
  refine runs_bind (runs_of_ok (clearResult_apply s) (runs_check_bind (fun _ => ?_) rfl))
  refine Keeps.bind (s := s.quiet) (keeps_atomically ?_) fun v t _ => ?_
  · split
    · exact runs_bind (runs_of_ok (readCounter_apply _) (runs_pure rfl))
    · exact runs_get_bind (runs_pure rfl)
  · cases v with
    | none => exact runs_raise rfl
    | some p => exact keeps_presentRegister _ _ t

theorem keeps_spGencmd (dir : Bool) (s : State) : Keeps registers (spGencmd dir) s := by
  refine runs_onPort (fun _ => rfl) fun _ => runs_get_bind ?_
  refine runs_check_bind (fun _ => runs_check_bind (fun _ => runs_check_bind (fun _ => ?_) rfl) rfl) rfl
  exact Keeps.bind (s := s.quiet) (keeps_memFill _ _ _) fun _ t _ => runs_modify (registers_spoilIfOwned _ t)

/-! ### Consumers -/

/-- In interrupt context an operation of background context raises before it writes (60_exceptions.md R193). -/
theorem keeps_background {body : Op Unit} {s : State} (hi : s.inIrq = true) :
    Keeps registers (onPort (requireBackground >>= fun _ => body)) s :=
  runs_onPort (fun _ => rfl) fun _ =>
    runs_requireBackground_bind (fun hn => absurd (hi.symm.trans hn) (by simp)) rfl

theorem keeps_spStart_inCallback (cid : ConsumerId) {s : State} (hi : s.inIrq = true) :
    Keeps registers (spStart cid) s :=
  runs_onPort (fun _ => rfl) fun _ => runs_get_bind (runs_timeOperand_bind
    (fun _ _ => runs_requireBackground_bind (fun hn => absurd (hi.symm.trans hn) (by simp)) rfl) rfl)

/-- No operation a consumer issues inside a callback touches a register. -/
theorem keeps_portOperation (i : Instr) {s : State} (hi : s.inIrq = true) : Keeps registers (portOperation i) s := by
  cases i
  case tmGettime => exact keeps_tmGettime s
  case tmGe => exact keeps_tmGe s
  case spInit | spDeinit | spStop | spPrestep => exact keeps_background hi
  case spStart cid => exact keeps_spStart_inCallback cid hi
  case spGencmd dir => exact keeps_spGencmd dir s
  case sysRdreg reg => exact keeps_sysRdreg reg s
  case tmInit | tmDeinit | tmSetfirst | tmSetnext | tmUnset | tmIrq => exact keeps_illegalWord s
  case spStep | cdCmdcb | cdPrecb => exact keeps_illegalWord s
  all_goals exact keeps_fx s rfl

theorem keeps_callbackAction (a : CallbackAction) {s : State} (hi : s.inIrq = true) :
    Keeps registers (callbackAction a) s := by
  cases a with
  | operate r =>
    refine runs_modify_bind ?_
    cases decode r.word with
    | ok i => exact keeps_portOperation i (s := { s with latch := latchOf r }) hi
    | error e => exact keeps_illegalWord { s with latch := latchOf r }
  | fill p r => exact runs_modify (registers_fillRecord p r s)
  | free p => exact runs_modify rfl

theorem keeps_callbackActions (l : List CallbackAction) {s : State} (hi : s.inIrq = true) :
    Keeps registers (callbackActions l) s := by
  induction l generalizing s with
  | nil => exact runs_pure rfl
  | cons a rest ih => exact (keeps_callbackAction a hi).bind fun _ t ht => ih ((inIrq_of_registers ht).trans hi)

theorem keeps_runConsumer (r : Reply) {s : State} (hi : s.inIrq = true) : Keeps registers (runConsumer r) s := by
  refine runs_get_bind ((keeps_callbackActions r.actions hi).bind fun _ t _ => ?_)
  split
  · exact runs_modify rfl
  · trivial

theorem keeps_commandCallback (i p : Nat) {s : State} (hi : s.inIrq = true) :
    Keeps registers (commandCallback i p) s := by
  refine Keeps.bind (runs_get_bind ?_) fun _ _ _ => runs_bind (runs_of_ok (emit_apply _ _) (runs_pure rfl))
  cases s.latch.reply with
  | none => exact rfl
  | some r => exact (keeps_runConsumer r hi).bind fun _ _ _ => runs_get_bind (runs_pure rfl)

theorem keeps_prestepCallback (i : Nat) {s : State} (hi : s.inIrq = true) :
    Keeps registers (prestepCallback i) s := by
  refine Keeps.bind (runs_get_bind ?_) fun _ _ _ => runs_bind (runs_of_ok (emit_apply _ _) (runs_pure rfl))
  cases s.latch.reply with
  | none => exact rfl
  | some r => exact (keeps_runConsumer r hi).bind fun _ _ _ => runs_pure rfl

/-! ### EVAL, LOAD and the handler -/

theorem keeps_evalSegment (p : Nat) (s : State) : Keeps registers (evalSegment p) s := by
  refine (keeps_memRead p .disc s).bind fun disc t _ => (keeps_memRead p .amul t).bind fun amul u _ => ?_
  refine runs_get_bind (runs_check_bind (fun _ => runs_check_bind (fun _ => runs_check_bind (fun _ => ?_) rfl) rfl) rfl)
  refine (keeps_memWrite p .disc _ u).bind fun _ w _ => ?_
  split
  · exact runs_pure rfl
  · exact runs_check_bind (fun _ => runs_check_bind
      (fun _ => (keeps_memRead p .tmul w).bind fun _ _ _ => runs_pure rfl) rfl) rfl

theorem keeps_seedSegment (x : Nat) (acc : Bool) (amul : Int) (t0 tend : Time) (s : State) :
    Keeps settings (seedSegment x acc amul t0 tend) s :=
  runs_get_bind (runs_modify_bind (runs_check_bind (fun _ => runs_check_bind (fun _ => runs_modify rfl) rfl) rfl))

theorem keeps_firstEvent (p x : Nat) (acc : Bool) (t0 tend : Time) (s : State) :
    Keeps settings (firstEvent p x acc t0 tend) s := by
  unfold firstEvent
  split
  · exact runs_modify_bind (runs_pure rfl)
  · refine (keeps_memRead p .amul s).settings.bind fun amul t _ => ?_
    refine (keeps_seedSegment x acc amul t0 tend t).bind fun _ u _ => ?_
    exact (keeps_evalSegment p u).settings.bind fun _ _ _ => runs_get_bind (runs_pure rfl)

theorem keeps_timerSetFirst (time : Time) (s : State) : Keeps settings (timerSetFirst time) s :=
  runs_timerSetFirst (fun _ => rfl) fun _ => rfl

theorem keeps_timerSetNext (time : Time) (s : State) : Keeps settings (timerSetNext time) s :=
  runs_timerSetNext (fun _ _ => rfl) fun _ => rfl

theorem keeps_loadCommand (p : Nat) (t0 : Time) (first : Bool) (s : State) :
    Keeps settings (loadCommand p t0 first) s := by
  refine (keeps_memRead p .dirx s).settings.bind fun dirx t _ => runs_get_bind ?_
  refine runs_bind (runs_of_ok (setDirection_apply _ t) (runs_modify_bind ?_))
  refine Keeps.bind (s := { t with
    pins := _, trace := _, sp := { t.sp with notDecel := _, notEnded := _ } }) (keeps_memRead p .tmul _).settings
    fun tmul u _ => (keeps_firstEvent p _ _ t0 _ u).bind fun target w _ => ?_
  split
  · exact keeps_timerSetFirst target w
  · exact keeps_timerSetNext target w

theorem keeps_writePos (p : Nat) (s : State) : Keeps settings (writePos p) s :=
  runs_get_bind (runs_check_bind (fun _ => runs_modify rfl) rfl)

theorem keeps_advanceUp (p x : Nat) (s : State) : Keeps settings (advanceUp p x) s := by
  refine runs_get_bind ?_
  split
  · refine runs_modify_bind (Keeps.bind (s := { s with sp := { s.sp with notEnded := false } })
      (keeps_memRead p .tmul _).settings fun tmul t _ => runs_modify_bind (runs_get_bind ?_))
    exact runs_timerSetNext (fun _ _ => rfl) fun _ => rfl
  · refine (keeps_writePos _ s).bind fun _ t _ => (keeps_evalSegment p t).settings.bind fun _ u _ => ?_
    exact runs_get_bind (keeps_timerSetNext _ u)

theorem keeps_advanceDown (p : Nat) (s : State) : Keeps settings (advanceDown p) s := by
  refine runs_get_bind ?_
  split
  · exact runs_modify_bind (runs_get_bind (runs_timerSetNext (fun _ _ => rfl) fun _ => rfl))
  · refine (keeps_writePos _ s).bind fun _ t _ => (keeps_evalSegment p t).settings.bind fun _ u _ => ?_
    exact runs_get_bind (keeps_timerSetNext _ u)

theorem keeps_emitStep (p : Nat) (s : State) : Keeps settings (emitStep p) s := by
  refine Keeps.bind (runs_of_ok (pulse_apply s) rfl) fun _ t _ => ?_
  refine (keeps_memRead p .dirx t).settings.bind fun dirx u _ => runs_get_bind ?_
  dsimp only
  split
  · exact (keeps_advanceUp p _ u).bind fun _ _ _ => runs_pure rfl
  · exact (keeps_advanceDown p u).bind fun _ _ _ => runs_pure rfl

theorem keeps_endRun (s : State) : Keeps settings endRun s := runs_modify_bind (runs_pure rfl)

theorem keeps_pulseInterrupt (p : Nat) {s : State} (hi : s.inIrq = true) : Keeps settings (pulseInterrupt p) s := by
  refine runs_get_bind ?_
  split
  · refine (keeps_prestepCallback _ hi).settings.bind fun abort t _ => ?_
    split
    · exact keeps_endRun t
    · exact keeps_emitStep p t
  · exact keeps_emitStep p s

theorem keeps_fetchInterrupt (p : Nat) {s : State} (hi : s.inIrq = true) : Keeps settings (fetchInterrupt p) s := by
  refine runs_get_bind ((keeps_commandCallback _ p hi).settings.bind fun answer t _ => ?_)
  cases answer with
  | stop => exact keeps_endRun t
  | proceed q =>
    refine runs_check_bind (fun _ => runs_modify_bind (runs_get_bind ?_)) rfl
    exact Keeps.bind (s := { t with sp := { t.sp with cmdPtr := q } }) (keeps_loadCommand q _ false _)
      fun _ _ _ => runs_pure rfl

/-- SP.STEP leaves alone what only SP.INIT, SP.PRESTEP and SP.START set. -/
theorem keeps_stepHandler {s : State} (hi : s.inIrq = true) : Keeps settings stepHandler s := by
  refine runs_get_bind (runs_check_bind (fun _ => ?_) rfl)
  split
  · exact keeps_pulseInterrupt _ hi
  · exact keeps_fetchInterrupt _ hi

/-- TM.IRQ writes IN_IRQ around the handler. -/
theorem keeps_timerIrq (s : State) : Keeps (fun t => (t.params, t.sp.prestepEn, t.sp.consumer)) timerIrq s := by
  refine runs_get_bind ?_
  split
  · refine runs_modify_bind (Keeps.bind (s := { s with inIrq := true })
      ((keeps_stepHandler rfl).map fun r => (r.1, r.2.1, r.2.2.1)) fun keep t _ => ?_)
    split
    · exact runs_bind (runs_pure (runs_modify rfl))
    · exact runs_bind (runs_of_ok (timerUnset_apply t) (runs_modify rfl))
  · exact runs_pure rfl

/-! ### The writers of four registers, operation by operation -/

theorem keeps_coreOnly {γ : Type} {part : State → γ} {body : Op Unit} {s : State} (hq : part s.quiet = part s)
    (h : Keeps part body s.quiet) : Keeps part (coreOnly body) s :=
  runs_coreOnly (fun _ => hq) (fun _ => hq) fun _ _ =>
    runs_mono h (fun _ _ ht => ht.trans hq) fun _ _ ht => ht.trans hq

theorem keeps_timerInit (s : State) : Keeps (fun t => (t.params, t.sp, t.tm.time, t.tm.cmp)) timerInit s :=
  runs_modify rfl

theorem keeps_timerDeinit (s : State) : Keeps (fun t => (t.params, t.sp, t.tm.time, t.tm.cmp)) timerDeinit s :=
  runs_get_bind (runs_check_bind (fun _ => runs_modify rfl) rfl)

theorem keeps_timerUnset (s : State) : Keeps (fun t => (t.params, t.sp, t.tm.time, t.tm.cmp)) timerUnset s :=
  runs_of_ok (timerUnset_apply s) rfl

theorem keeps_tmSetfirst (s : State) : Keeps (fun t => (t.params, t.sp)) tmSetfirst s :=
  keeps_coreOnly rfl (runs_get_bind (runs_timeOperand_bind
    (fun _ _ => runs_timerSetFirst (fun _ => rfl) fun _ => rfl) rfl))

theorem keeps_tmSetnext (s : State) : Keeps (fun t => (t.params, t.sp)) tmSetnext s :=
  keeps_coreOnly rfl (runs_get_bind (runs_timeOperand_bind
    (fun _ _ => runs_timerSetNext (fun _ _ => rfl) fun _ => rfl) rfl))

theorem keeps_spInit (s : State) : Keeps (fun t => (t.params, t.sp.consumer, t.tm.time, t.tm.cmp)) spInit s :=
  runs_onPort (fun _ => rfl) fun _ => runs_requireBackground_bind (fun _ => runs_get_bind (runs_check_bind
    (fun _ => runs_bind (runs_of_ok (timerInit_apply _) (runs_modify rfl))) rfl)) rfl

/-- SP.DEINIT leaves every scheduler and timer register unspecified (42_scheduler.md R132). -/
theorem keeps_spDeinit (s : State) : Keeps State.params spDeinit s := by
  refine runs_onPort (fun _ => rfl) fun _ => runs_requireBackground_bind (fun _ => ?_) rfl
  refine runs_get_bind (runs_check_bind (fun _ => runs_get_bind (runs_check_bind (fun _ => ?_) rfl)) rfl)
  exact Keeps.bind (s := s.quiet) ((keeps_timerDeinit _).map Prod.fst) fun _ _ _ => runs_modify rfl

theorem keeps_spPrestep (flag : Bool) (s : State) :
    Keeps (fun t => (t.params, t.sp.consumer, t.tm)) (spPrestep flag) s :=
  runs_onPort (fun _ => rfl) fun _ => runs_requireBackground_bind (fun _ => runs_get_bind (runs_check_bind
    (fun _ => runs_get_bind (runs_check_bind (fun _ => runs_modify rfl) rfl)) rfl)) rfl

theorem keeps_spStart (cid : ConsumerId) (s : State) : Keeps (fun t => (t.params, t.sp.prestepEn)) (spStart cid) s := by
  refine runs_onPort (fun _ => rfl) fun _ => runs_get_bind (runs_timeOperand_bind (fun _ time => ?_) rfl)
  refine runs_requireBackground_bind (fun _ => ?_) rfl
  refine runs_get_bind (runs_check_bind (fun _ => runs_get_bind (runs_check_bind (fun _ => ?_) rfl)) rfl)
  refine runs_get_bind (runs_check_bind (fun _ => runs_recordedConsumer_bind fun id n _ => runs_modify_bind ?_) rfl)
  exact (keeps_loadCommand _ time true _).map fun r => (r.1, r.2.1)

theorem keeps_spStop (s : State) :
    Keeps (fun t => (t.params, t.sp.prestepEn, t.sp.consumer, t.tm.time, t.tm.cmp)) spStop s :=
  runs_onPort (fun _ => rfl) fun _ => runs_requireBackground_bind (fun _ => runs_get_bind (runs_check_bind
    (fun _ => runs_spStop_body rfl) rfl)) rfl

/-- The parameters, the scheduler registers, TM_TIME and TM_CMP: what all operations but a few leave alone. -/
abbrev settingsAndTimes (s : State) : Params × SpRegs × Time × Time := (s.params, s.sp, s.tm.time, s.tm.cmp)

/-- What touches no register leaves the four registers alone, whatever is asked of the operation. -/
theorem writers_of_settingsAndTimes {s t : State} {P Q R : Prop} (h : settingsAndTimes t = settingsAndTimes s) :
    (P → t.sp.prestepEn = s.sp.prestepEn) ∧ (Q → t.sp.consumer = s.sp.consumer) ∧
      (R → t.tm.time = s.tm.time ∧ t.tm.cmp = s.tm.cmp) ∧ t.params = s.params := by
  simp only [settingsAndTimes, Prod.mk.injEq] at h
  obtain ⟨hparams, hsp, htimes⟩ := h
  rw [hsp]
  exact ⟨fun _ => rfl, fun _ => rfl, fun _ => htimes, hparams⟩

theorem settingsAndTimes_of_perform {x : Op Unit} {s t : State} (h : Keeps registers x s)
    (ht : perform x s = .next t) : settingsAndTimes t = settingsAndTimes s :=
  (h.map fun r => (r.1, r.2.1, r.2.2.1.time, r.2.2.1.cmp)).perform (fun _ _ => rfl) ht

theorem settingsAndTimes_of_coreOnly {x : Op Unit} {s t : State} (h : Keeps settingsAndTimes x s.quiet)
    (ht : perform (coreOnly x) s = .next t) : settingsAndTimes t = settingsAndTimes s :=
  Keeps.perform (keeps_coreOnly rfl h) (fun _ _ => rfl) ht

/-- An FX operation is the same whoever issues it. -/
theorem exec_fx {i : Instr} (s : State) (h : isFx i = true) : exec i s = perform (portOperation i) s := by
  cases i
  case fxMake | fxTos | fxTou | fxWiden | fxNarrow | fxShl | fxShr => rfl
  case fxAdd | fxSub | fxMul | fxDiv | fxSqrt => rfl
  all_goals simp [isFx] at h

theorem settingsAndTimes_of_fx {i : Instr} {s t : State} (h : isFx i = true) (ht : exec i s = .next t) :
    settingsAndTimes t = settingsAndTimes s :=
  settingsAndTimes_of_perform (keeps_fx s h) ((exec_fx s h).symm.trans ht)

/-- A transaction performed directly in interrupt context touches no register. -/
theorem settingsAndTimes_of_callback {α : Type} {x : Op α} {s t : State} (h : Keeps registers x s.quiet)
    (ht : perform (coreOnly (x >>= fun _ => pure ())) s = .next t) : settingsAndTimes t = settingsAndTimes s :=
  settingsAndTimes_of_perform (keeps_coreOnly rfl (h.bind fun _ _ _ => runs_pure rfl)) ht

/-- Settles O60, operation by operation: each keeps at least what the statement asks of it. -/
theorem registersChangeOnlyByTheirWriters : Obligations.RegistersChangeOnlyByTheirWriters := by
  intro i s t ht hirq
  cases i
  case spInit =>
    have h := (keeps_spInit s).perform (fun _ _ => rfl) ht
    simp only [Prod.mk.injEq] at h
    obtain ⟨hparams, hconsumer, htimes⟩ := h
    exact ⟨fun hi => absurd rfl hi.1, fun _ => hconsumer, fun _ => htimes, hparams⟩
  case spDeinit =>
    have hparams := (keeps_spDeinit s).perform (fun _ _ => rfl) ht
    exact ⟨fun hi => absurd rfl hi.2.1, fun hi => absurd rfl hi.1, fun hi => absurd rfl hi.1, hparams⟩
  case spPrestep flag =>
    have h := (keeps_spPrestep flag s).perform (fun _ _ => rfl) ht
    simp only [Prod.mk.injEq] at h
    obtain ⟨hparams, hconsumer, htm⟩ := h
    exact ⟨fun hi => absurd rfl (hi.2.2 flag), fun _ => hconsumer, fun _ => by simp [htm], hparams⟩
  case spStart cid =>
    have h := (keeps_spStart cid s).perform (fun _ _ => rfl) ht
    simp only [Prod.mk.injEq] at h
    obtain ⟨hparams, hprestep⟩ := h
    exact ⟨fun _ => hprestep, fun hi => absurd rfl (hi.2 cid), fun ⟨_, _, _, _, _, hi⟩ => absurd rfl (hi cid), hparams⟩
  case spStop =>
    have h := (keeps_spStop s).perform (fun _ _ => rfl) ht
    simp only [Prod.mk.injEq] at h
    obtain ⟨hparams, hprestep, hconsumer, htimes⟩ := h
    exact ⟨fun _ => hprestep, fun _ => hconsumer, fun _ => htimes, hparams⟩
  case tmSetfirst =>
    have h := (keeps_tmSetfirst s).perform (fun _ _ => rfl) ht
    simp only [Prod.mk.injEq] at h
    obtain ⟨hparams, hsp⟩ := h
    exact ⟨fun _ => by rw [hsp], fun _ => by rw [hsp], fun ⟨_, hi, _⟩ => absurd rfl hi, hparams⟩
  case tmSetnext =>
    have h := (keeps_tmSetnext s).perform (fun _ _ => rfl) ht
    simp only [Prod.mk.injEq] at h
    obtain ⟨hparams, hsp⟩ := h
    exact ⟨fun _ => by rw [hsp], fun _ => by rw [hsp], fun ⟨_, _, hi, _⟩ => absurd rfl hi, hparams⟩
  case tmIrq =>
    have h := Keeps.perform (keeps_coreOnly rfl (keeps_timerIrq s.quiet)) (fun _ _ => rfl) ht
    simp only [Prod.mk.injEq] at h
    obtain ⟨hparams, hprestep, hconsumer⟩ := h
    exact ⟨fun _ => hprestep, fun _ => hconsumer, fun ⟨_, _, _, hi, _⟩ => absurd rfl hi, hparams⟩
  case spStep =>
    have hhandler := keeps_stepHandler (s := s.quiet) (hirq (.inl rfl))
    have h := Keeps.perform (keeps_coreOnly rfl (hhandler.bind fun _ _ _ => runs_pure rfl)) (fun _ _ => rfl) ht
    simp only [settings, Prod.mk.injEq] at h
    obtain ⟨hparams, hprestep, hconsumer, -⟩ := h
    exact ⟨fun _ => hprestep, fun _ => hconsumer, fun ⟨_, _, _, _, hi, _⟩ => absurd rfl hi, hparams⟩
  case cdCmdcb idx =>
    exact writers_of_settingsAndTimes
      (settingsAndTimes_of_callback (keeps_commandCallback _ _ (hirq (.inr (.inl ⟨idx, rfl⟩)))) ht)
  case cdPrecb idx =>
    exact writers_of_settingsAndTimes
      (settingsAndTimes_of_callback (keeps_prestepCallback _ (hirq (.inr (.inr ⟨idx, rfl⟩)))) ht)
  case tmInit => exact writers_of_settingsAndTimes (settingsAndTimes_of_coreOnly (keeps_timerInit _) ht)
  case tmDeinit => exact writers_of_settingsAndTimes (settingsAndTimes_of_coreOnly (keeps_timerDeinit _) ht)
  case tmUnset => exact writers_of_settingsAndTimes (settingsAndTimes_of_coreOnly (keeps_timerUnset _) ht)
  case tmGettime => exact writers_of_settingsAndTimes (settingsAndTimes_of_perform (keeps_tmGettime s) ht)
  case tmGe => exact writers_of_settingsAndTimes (settingsAndTimes_of_perform (keeps_tmGe s) ht)
  case spGencmd dir => exact writers_of_settingsAndTimes (settingsAndTimes_of_perform (keeps_spGencmd dir s) ht)
  case sysRdreg reg => exact writers_of_settingsAndTimes (settingsAndTimes_of_perform (keeps_sysRdreg reg s) ht)
  all_goals exact writers_of_settingsAndTimes (settingsAndTimes_of_fx rfl ht)

end Machine
end Sys2Proof

/-! ## O56: a producer's fill of a record

The memory after a fill is written out once (`fillRecord_mem`); what each record reads as afterwards follows from the laws of
`memPut`, `memErase` and `memSet`. -/

namespace Sys2Proof
namespace Machine

theorem spoilIfOwned_eq_withMem (q : Nat) (s : State) :
    spoilIfOwned q s = { s with mem := if owns s q = true then memErase s.mem q else s.mem } := by
  unfold spoilIfOwned
  split <;> rfl

/-- As a step of the environment a fill changes the Command memory and nothing else: what it writes does not depend on the
ports or the schedule. -/
theorem environmentStep_fillRecord (p : Nat) (r : CommandRecord) (rest : List Input) (s : State) :
    environmentStep (fillRecord p r) rest s = { s.quiet with mem := (fillRecord p r s).mem, inputs := rest } := by
  simp only [environmentStep, fillRecord, spoilIfOwned_eq_withMem]
  split
  · rfl
  · split <;> rfl

/-- The memory after a fill: the record put in its place and, where CORE owns it, arbitrary again (log entry 8); a record that
does not fit removed (log entry 25). -/
theorem fillRecord_mem {s : State} {p : Nat} (r : CommandRecord) (h0 : pointer s.params p ≠ 0) :
    (fillRecord p r s).mem =
      if recordFits s.params r = true then
        if owns s (pointer s.params p) = true then
          memErase (memPut s.mem { ptr := pointer s.params p, record := r }) (pointer s.params p)
        else memPut s.mem { ptr := pointer s.params p, record := r }
      else memErase s.mem (pointer s.params p) := by
  simp only [fillRecord, if_neg h0]
  split
  · exact spoilIfOwned_mem _ _
  · rfl

theorem memRecord_fillRecord_other {s : State} {p q : Nat} (r : CommandRecord) (h0 : pointer s.params p ≠ 0)
    (hq : q ≠ pointer s.params p) : memRecord (fillRecord p r s).mem q = memRecord s.mem q := by
  have hput : memRecord (memPut s.mem { ptr := pointer s.params p, record := r }) q = memRecord s.mem q :=
    memRecord_memPut_other hq
  rw [fillRecord_mem r h0]
  split
  · split
    · exact (memRecord_memErase_other hq).trans hput
    · exact hput
  · exact memRecord_memErase_other hq

/-- A fill of a record CORE owns, or with a value outside its field's type, leaves the record not filled. -/
theorem memRecord_fillRecord_unfilled {s : State} {p : Nat} {r : CommandRecord} (h0 : pointer s.params p ≠ 0)
    (h : owns s (pointer s.params p) = true ∨ recordFits s.params r = false) :
    memRecord (fillRecord p r s).mem (pointer s.params p) = none := by
  rw [fillRecord_mem r h0]
  split
  case isTrue hfits =>
    have howns : owns s (pointer s.params p) = true := h.resolve_right (by simp [hfits])
    rw [if_pos howns]
    exact memRecord_memErase_self _ _
  case isFalse => exact memRecord_memErase_self _ _

/-- A fill of a record CORE does not own, each value in the range of its type, is what the record then reads as. -/
theorem memRecord_fillRecord_filled {s : State} {p : Nat} {r : CommandRecord} (h0 : pointer s.params p ≠ 0)
    (howns : owns s (pointer s.params p) = false) (hfits : recordFits s.params r = true) :
    memRecord (fillRecord p r s).mem (pointer s.params p) = some r := by
  rw [fillRecord_mem r h0, if_pos hfits, if_neg (by simp [howns])]
  exact memRecord_memPut_self { ptr := pointer s.params p, record := r }

/-- Settles O56: the step is the fill with nothing on the ports, and each clause is what a record reads as after it. -/
theorem producerFillsRecordsItOwns : Obligations.ProducerFillsRecordsItOwns := by
  refine ⟨?_, fun _ _ p f v h => memRecord_memSet_unfilled p f v h⟩
  rintro s p q r rest hinputs rfl h0 hwf
  have hstep : step s = .next { s.quiet with mem := (fillRecord p r s).mem, inputs := rest } :=
    (step_fill hinputs).trans (congrArg _ (environmentStep_fillRecord p r rest s))
  exact ⟨_, hstep, rfl, fillRecord_params p r s ▸ fillRecord_wf p r hwf, fun _ => memRecord_fillRecord_other r h0,
    memRecord_fillRecord_unfilled h0, memRecord_fillRecord_filled h0⟩

end Machine
end Sys2Proof

/-! ## O15, O16, O17: the decoder and the encoder agree

A word is cut into fields by one law, `wordField_eq_append_iff`: a run of bits is a concatenation where its two parts are. So
each shape of request word is an equivalence between the word and its fields; O15 reads it from the word to the fields, O16
back. -/

/-! ### Runs of bits -/

namespace Sys2Proof

/-- A run of bits is a concatenation where each part of the run is the part of the concatenation. -/
theorem wordField_eq_append_iff {m n : Nat} (w : RequestWord) (lo : Nat) (x : BitVec m) (y : BitVec n) :
    wordField w lo (m + n) = x ++ y ↔ wordField w (lo + n) m = x ∧ wordField w lo n = y := by
  have hsplit : wordField w (lo + n) m ++ wordField w lo n = wordField w lo (m + n) :=
    BitVec.extractLsb'_append_extractLsb'_eq_extractLsb' rfl
  rw [← hsplit]
  constructor
  · intro h
    have hhigh := congrArg (BitVec.extractLsb' n m) h
    have hlow := congrArg (BitVec.extractLsb' 0 n) h
    simp only [BitVec.extractLsb'_append_eq_left, BitVec.extractLsb'_append_eq_right] at hhigh hlow
    exact ⟨hhigh, hlow⟩
  · rintro ⟨rfl, rfl⟩
    rfl

/-- A run of bits is 0 where its two parts are. -/
theorem wordField_eq_zero_iff (w : RequestWord) (lo m n : Nat) :
    wordField w lo (m + n) = 0 ↔ wordField w (lo + n) m = 0 ∧ wordField w lo n = 0 :=
  (Eq.congr_right BitVec.zero_append_zero.symm).trans (wordField_eq_append_iff w lo 0 0)

theorem wordField_eq_ofBool_iff (w : RequestWord) (lo : Nat) (b : Bool) :
    wordField w lo 1 = BitVec.ofBool b ↔ w.getLsbD lo = b := by
  rw [BitVec.getLsbD_eq_extractLsb']
  show w.extractLsb' lo 1 = _ ↔ _
  generalize w.extractLsb' lo 1 = x
  revert x b
  decide

theorem wordField_eq_opcode_iff (w : RequestWord) (op : BitVec 8) : wordField w 24 8 = op ↔ wordOpcode w = op.toNat :=
  BitVec.toNat_inj.symm

/-- A word is all of its bits. -/
theorem eq_iff_wordField_all (v w : RequestWord) : v = w ↔ wordField w 0 32 = v :=
  eq_comm.trans (Eq.congr_left BitVec.extractLsb'_eq_self.symm)

/-! ### The formats -/

/-- A word is a format X word where each of its fields is (R61). -/
theorem encodeX_eq_iff {w : RequestWord} {op : BitVec 8} {sa sb : Bool} {wa wb n : WidthField} :
    encodeX op sa wa sb wb n = w ↔ wordOpcode w = op.toNat ∧ wordSA w = sa ∧ wordWA w = wa ∧ wordSB w = sb ∧
      wordWB w = wb ∧ wordField w 7 1 = 0 ∧ wordN w = n := by
  refine (eq_iff_wordField_all _ w).trans ?_
  change wordField w 0 (8 + 1 + 7 + 1 + 7 + 1 + 7) = op ++ BitVec.ofBool sa ++ wa ++ BitVec.ofBool sb ++ wb ++ 0#1 ++ n ↔ _
  simp only [wordField_eq_append_iff, wordField_eq_ofBool_iff, and_assoc]
  exact and_congr_left' (wordField_eq_opcode_iff w op)

/-- A word is a format S or C word where each of its fields is (R63, R64). -/
theorem encodeS_eq_iff {w : RequestWord} {op : BitVec 8} {cid : ConsumerId} {flag : Bool} :
    encodeS op cid flag = w ↔
      wordOpcode w = op.toNat ∧ wordCid w = cid ∧ wordField w 1 15 = 0 ∧ wordFlag w = flag := by
  refine (eq_iff_wordField_all _ w).trans ?_
  change wordField w 0 (8 + 8 + 15 + 1) = op ++ cid ++ 0#15 ++ BitVec.ofBool flag ↔ _
  simp only [wordField_eq_append_iff, wordField_eq_ofBool_iff, and_assoc]
  exact and_congr_left' (wordField_eq_opcode_iff w op)

/-- The word of SYS.RDREG (R65). -/
theorem encodeR_eq_iff {w : RequestWord} {op reg : BitVec 8} :
    op ++ 0#16 ++ reg = w ↔ wordOpcode w = op.toNat ∧ wordField w 8 16 = 0 ∧ wordReg w = reg := by
  refine (eq_iff_wordField_all _ w).trans ?_
  change wordField w 0 (8 + 16 + 8) = op ++ 0#16 ++ reg ↔ _
  simp only [wordField_eq_append_iff, and_assoc]
  exact and_congr_left' (wordField_eq_opcode_iff w op)

/-! ### The shapes of request words: which fields an operation has and which must be 0 (R61 to R64) -/

/-- In format X bits 15:0 hold SB, WB, a bit that is always 0, and N. -/
theorem bits_0_16_eq_zero_iff (w : RequestWord) :
    wordField w 0 16 = 0 ↔ wordSB w = false ∧ wordWB w = 0 ∧ wordField w 7 1 = 0 ∧ wordN w = 0 := by
  change wordField w 0 (1 + (7 + (1 + 7))) = 0 ↔ _
  rw [wordField_eq_zero_iff, wordField_eq_zero_iff, wordField_eq_zero_iff]
  exact and_congr_left' (wordField_eq_ofBool_iff w 15 false)

theorem bits_7_9_eq_zero_iff (w : RequestWord) :
    wordField w 7 9 = 0 ↔ wordSB w = false ∧ wordWB w = 0 ∧ wordField w 7 1 = 0 := by
  change wordField w 7 (1 + (7 + 1)) = 0 ↔ _
  rw [wordField_eq_zero_iff, wordField_eq_zero_iff]
  exact and_congr_left' (wordField_eq_ofBool_iff w 15 false)

/-- The format X word of an operation with one operand. -/
theorem encodeX_unary_iff {w : RequestWord} {op : BitVec 8} {sa : Bool} {wa : WidthField} :
    encodeX op sa wa false 0 0 = w ↔ wordOpcode w = op.toNat ∧ wordField w 0 16 = 0 ∧ wordSA w = sa ∧ wordWA w = wa := by
  rw [encodeX_eq_iff, bits_0_16_eq_zero_iff]
  tauto

/-- The format X word of an operation with one operand and a target width or shift amount. -/
theorem encodeX_unaryN_iff {w : RequestWord} {op : BitVec 8} {sa : Bool} {wa n : WidthField} :
    encodeX op sa wa false 0 n = w ↔
      wordOpcode w = op.toNat ∧ wordField w 7 9 = 0 ∧ wordSA w = sa ∧ wordWA w = wa ∧ wordN w = n := by
  rw [encodeX_eq_iff, bits_7_9_eq_zero_iff]
  tauto

/-- The format X word of an operation with two operands. -/
theorem encodeX_binary_iff {w : RequestWord} {op : BitVec 8} {sa sb : Bool} {wa wb : WidthField} :
    encodeX op sa wa sb wb 0 = w ↔ wordOpcode w = op.toNat ∧ wordField w 0 8 = 0 ∧ wordSA w = sa ∧ wordWA w = wa ∧
      wordSB w = sb ∧ wordWB w = wb := by
  have hlow : wordField w 0 8 = 0 ↔ wordField w 7 1 = 0 ∧ wordN w = 0 := wordField_eq_zero_iff w 0 1 7
  rw [encodeX_eq_iff, hlow]
  tauto

/-- The word of an operation without fields (R62, R63). -/
theorem encodeS_bare_iff {w : RequestWord} {op : BitVec 8} :
    encodeS op 0 false = w ↔ wordOpcode w = op.toNat ∧ wordField w 0 24 = 0 := by
  have hlow : wordField w 0 24 = 0 ↔ wordCid w = 0 ∧ wordField w 1 15 = 0 ∧ wordFlag w = false := by
    change wordField w 0 (8 + (15 + 1)) = 0 ↔ _
    rw [wordField_eq_zero_iff, wordField_eq_zero_iff]
    exact and_congr_right' (and_congr_right' (wordField_eq_ofBool_iff w 0 false))
  rw [encodeS_eq_iff, hlow]

/-- The word of an operation with a consumer's id or index (R63, R64). -/
theorem encodeS_cid_iff {w : RequestWord} {op : BitVec 8} {cid : ConsumerId} :
    encodeS op cid false = w ↔ wordOpcode w = op.toNat ∧ wordField w 0 16 = 0 ∧ wordCid w = cid := by
  have hlow : wordField w 0 16 = 0 ↔ wordField w 1 15 = 0 ∧ wordFlag w = false :=
    (wordField_eq_zero_iff w 0 15 1).trans (and_congr_right' (wordField_eq_ofBool_iff w 0 false))
  rw [encodeS_eq_iff, hlow]
  tauto

/-- The word of an operation with a flag (R63). -/
theorem encodeS_flag_iff {w : RequestWord} {op : BitVec 8} {flag : Bool} :
    encodeS op 0 flag = w ↔ wordOpcode w = op.toNat ∧ wordField w 1 23 = 0 ∧ wordFlag w = flag := by
  have hhigh : wordField w 1 23 = 0 ↔ wordCid w = 0 ∧ wordField w 1 15 = 0 := wordField_eq_zero_iff w 1 8 15
  rw [encodeS_eq_iff, hhigh]
  tauto

/-! ### The decoder and the encoder agree -/

theorem whenZero_eq_ok_iff {w : RequestWord} {lo n : Nat} {i j : Instr} :
    whenZero w lo n i = .ok j ↔ wordField w lo n = 0 ∧ i = j := by
  unfold whenZero
  split <;> simp_all

theorem whenSign_eq_ok_iff {w : RequestWord} {sa : Bool} {r : Except DecodeError Instr} {j : Instr} :
    whenSign w sa r = .ok j ↔ wordSA w = sa ∧ r = .ok j := by
  unfold whenSign
  split <;> simp_all

/-- The decoder reads every request word back: its opcode selects the row, its zero bits pass, its fields are the
operation's. -/
theorem decode_encode (i : Instr) : decode (encode i) = .ok i := by
  generalize hw : encode i = w
  cases i
  case fxMake | fxTos | fxTou => simp [decode, whenZero, whenSign, encodeX_unary_iff.mp hw]
  case fxWiden | fxNarrow | fxShl | fxShr | fxSqrt => simp [decode, whenZero, whenSign, encodeX_unaryN_iff.mp hw]
  case fxAdd | fxSub | fxMul => simp [decode, whenZero, encodeX_binary_iff.mp hw]
  case fxDiv => simp [decode, whenZero, encodeX_eq_iff.mp hw]
  case tmInit | tmDeinit | tmSetfirst | tmSetnext | tmUnset | tmIrq | tmGettime | tmGe =>
    simp [decode, whenZero, encodeS_bare_iff.mp hw]
  case spInit | spDeinit | spStop | spStep => simp [decode, whenZero, encodeS_bare_iff.mp hw]
  case spStart | cdCmdcb | cdPrecb => simp [decode, whenZero, encodeS_cid_iff.mp hw]
  case spGencmd | spPrestep => simp [decode, whenZero, encodeS_flag_iff.mp hw]
  case sysRdreg => simp [decode, whenZero, encodeR_eq_iff.mp hw]

/-- What the decoder reads under a zero check is encoded as the word, if it is where the bits are 0. -/
theorem encode_of_whenZero {w : RequestWord} {lo n : Nat} {i j : Instr} (h : whenZero w lo n i = .ok j)
    (henc : wordField w lo n = 0 → encode i = w) : encode j = w := by
  obtain ⟨hz, rfl⟩ := whenZero_eq_ok_iff.mp h
  exact henc hz

/-- Row by row of the opcode map: the opcode, the zero bits and the fields the row reads make up the whole word. Case
`h_k` is the k-th row of `decode`. -/
theorem encode_of_decode {w : RequestWord} {i : Instr} (h : decode w = .ok i) : encode i = w := by
  unfold decode at h
  split at h
  case h_1 hop => exact encode_of_whenZero h fun hz => encodeX_unary_iff.mpr ⟨hop, hz, rfl, rfl⟩
  case h_2 hop | h_3 hop =>
    obtain ⟨hsa, h⟩ := whenSign_eq_ok_iff.mp h
    exact encode_of_whenZero h fun hz => encodeX_unary_iff.mpr ⟨hop, hz, hsa, rfl⟩
  case h_4 hop | h_5 hop | h_6 hop | h_7 hop =>
    exact encode_of_whenZero h fun hz => encodeX_unaryN_iff.mpr ⟨hop, hz, rfl, rfl, rfl⟩
  case h_8 hop | h_9 hop | h_10 hop =>
    exact encode_of_whenZero h fun hz => encodeX_binary_iff.mpr ⟨hop, hz, rfl, rfl, rfl, rfl⟩
  case h_11 hop => exact encode_of_whenZero h fun hz => encodeX_eq_iff.mpr ⟨hop, rfl, rfl, rfl, rfl, hz, rfl⟩
  case h_12 hop =>
    obtain ⟨hsa, h⟩ := whenSign_eq_ok_iff.mp h
    exact encode_of_whenZero h fun hz => encodeX_unaryN_iff.mpr ⟨hop, hz, hsa, rfl, rfl⟩
  case h_13 hop | h_14 hop | h_15 hop | h_16 hop | h_17 hop | h_18 hop | h_19 hop | h_20 hop =>
    exact encode_of_whenZero h fun hz => encodeS_bare_iff.mpr ⟨hop, hz⟩
  case h_21 hop | h_22 hop | h_24 hop | h_25 hop =>
    exact encode_of_whenZero h fun hz => encodeS_bare_iff.mpr ⟨hop, hz⟩
  case h_23 hop | h_28 hop | h_29 hop => exact encode_of_whenZero h fun hz => encodeS_cid_iff.mpr ⟨hop, hz, rfl⟩
  case h_26 hop | h_27 hop => exact encode_of_whenZero h fun hz => encodeS_flag_iff.mpr ⟨hop, hz, rfl⟩
  case h_30 hop => exact encode_of_whenZero h fun hz => encodeR_eq_iff.mpr ⟨hop, hz, rfl⟩
  case h_31 => split at h <;> cases h

/-- Settles O15, by the shape of each operation's word. -/
theorem decodeOfEncode : Obligations.DecodeOfEncode := decode_encode

/-- Settles O16, by the rows of the opcode map. -/
theorem encodeOfDecode : Obligations.EncodeOfDecode := fun _ _ => encode_of_decode

/-- Settles O17, by evaluating the decoder on the ten words. -/
theorem specWordsDecode : Obligations.SpecWordsDecode := by
  unfold Obligations.SpecWordsDecode
  decide

end Sys2Proof

/-! ## O18, O20, O13: illegal words -/

namespace Sys2Proof

/-! ### Words that name no operation -/

/-- The opcode is the word's high byte. -/
theorem wordOpcode_eq_div (w : RequestWord) : wordOpcode w = w.toNat / 2 ^ 24 := by
  unfold wordOpcode wordField
  rw [BitVec.extractLsb'_toNat, Nat.shiftRight_eq_div_pow]
  omega

/-- UNIT 4 to 14 is in no row of the opcode map (30_encoding.md R68). -/
theorem decode_reservedUnit {w : RequestWord} (h4 : 4 ≤ w.toNat / 2 ^ 28) (h14 : w.toNat / 2 ^ 28 ≤ 14) :
    decode w = .error .reservedUnit := by
  have hunit : 0x40 ≤ wordOpcode w ∧ wordOpcode w < 0xF0 := by
    rw [wordOpcode_eq_div]
    omega
  unfold decode
  split
  case h_31 => exact if_pos hunit
  all_goals omega

namespace Machine

/-! ### What an illegal word does -/

/-- An operation that finds its word illegal changes nothing but FAULT, in every build (60_exceptions.md R183). -/
theorem perform_raise_illegalOp {body : Op Unit} {s : State} (h : body s = (raise .illegalOp : Op Unit) s.quiet) :
    perform body s = .next (recordViolation .illegalOp s) := by
  rw [perform_raise .illegalOp h, violationOutcome_quiet, violationOutcome_illegalOp]

theorem perform_illegalWord {s : State} (hl : Live s) : perform illegalWord s = .next (recordViolation .illegalOp s) :=
  perform_raise_illegalOp (by rw [illegalWord, onPort_apply, if_neg (by simp [hl])])

/-- The port accepts no operation of kind I, E or O (30_encoding.md R69). -/
theorem portOperation_of_kind_ne_port {i : Instr} (h : i.kind ≠ .port) : portOperation i = illegalWord := by
  cases i
  case tmInit | tmDeinit | tmSetfirst | tmSetnext | tmUnset | tmIrq | spStep => rfl
  case cdCmdcb | cdPrecb => rfl
  all_goals exact absurd rfl h

/-- Settles O20: on the port such an operation is an illegal word, whatever it is. -/
theorem coreOnlyKindsAreIllegalOnThePort : Obligations.CoreOnlyKindsAreIllegalOnThePort := by
  intro i s hl hkind hport
  rw [exec_on_port i hport, portOperation_of_kind_ne_port hkind, perform_illegalWord hl]

/-- Settles O18: the decoder rejects the reserved units, and a rejected word is performed as an illegal one. -/
theorem unnamedWordsRaiseIllegalOp : Obligations.UnnamedWordsRaiseIllegalOp := by
  refine ⟨fun _ => decode_reservedUnit, fun s r rest e hl hin hdec => ?_⟩
  rw [step_request hin, performRequest_rejected _ hdec]
  exact perform_illegalWord hl

/-! ### Ill-formed fields -/

theorem unaryFx_illegalWidth {s : State} {wa : WidthField} (sa : Bool) (f : Nat → Bounded → Except Violation Bounded)
    (hl : Live s) (hw : legalWidth s.params.maxW wa = false) :
    perform (unaryFx sa wa f) s = .next (recordViolation .illegalOp s) :=
  perform_raise_illegalOp (by rw [unaryFx_apply sa wa f hl, if_neg (by simp [hw])])

/-- Either width field of an operation with two operands makes its word illegal. -/
theorem binaryFx_illegalWidth {s : State} {wa wb : WidthField} (sa sb : Bool)
    (f : Nat → Bounded → Bounded → Except Violation Bounded) (hl : Live s)
    (hw : (legalWidth s.params.maxW wa && legalWidth s.params.maxW wb) = false) :
    perform (binaryFx sa wa sb wb f) s = .next (recordViolation .illegalOp s) := by
  refine perform_raise_illegalOp ?_
  rw [binaryFx_apply sa wa sb wb f hl]
  split
  case isTrue ha => rw [if_neg (by simpa [ha] using hw)]
  case isFalse => rfl

theorem sysRdreg_undefinedRegister {s : State} {reg : BitVec 8} (hreg : definedRegister reg = false) :
    perform (sysRdreg reg) s = .next (recordViolation .illegalOp s) := by
  refine perform_raise_illegalOp ?_
  unfold sysRdreg
  rw [op_bind_ok (clearResult_apply s), op_check_bind, if_neg (by simp [hreg])]

/-- Settles O13: the width fields and the register number are checked before anything else, and no other field makes a word
illegal. -/
theorem illFormedWordsRaiseIllegalOp : Obligations.IllFormedWordsRaiseIllegalOp := by
  intro i s hl hill
  cases i
  case fxMake sa wa =>
    exact perform_raise_illegalOp (by rw [fxMake_apply sa wa hl, if_neg (by simpa [Instr.wellFormed] using hill)])
  case fxTos | fxTou | fxWiden | fxNarrow | fxShl | fxShr | fxSqrt => exact unaryFx_illegalWidth _ _ hl hill
  case fxAdd | fxSub | fxMul | fxDiv => exact binaryFx_illegalWidth _ _ _ hl hill
  case sysRdreg reg => exact sysRdreg_undefinedRegister hill
  all_goals simp [Instr.wellFormed] at hill

end Machine
end Sys2Proof

/-! ## O1 to O12, O14: the FXU

An FX operation on operands of their types is its function on typed values (`Sys2Proof/Machine/Fxu.lean`), presented or raised.
So each operation needs two things: what its function answers, and that the value answered fits the answered type. Fitting is
said once as a bound on the magnitude with a condition on the sign (`fits_iff_natAbs`), and each arithmetic fact is a fact about
magnitudes. -/

/-! ### Ranges and arithmetic -/

namespace Sys2Proof
namespace Machine

/-- A value fits a type where its magnitude has at most the width's bits and its sign is one of the type (40_fxu.md R80). -/
theorem fits_iff_natAbs (v : Int) (sg : Bool) (w : Nat) :
    fits v sg w = true ↔ v.natAbs < 2 ^ w ∧ (sg = false → 0 ≤ v) := by
  have hcast : ((2 ^ w : Nat) : Int) = 2 ^ w := by norm_cast
  cases sg
  · rw [fits_unsigned, ← hcast]
    simp only [true_implies]
    omega
  · rw [fits_signed, ← hcast]
    simp only [Bool.true_eq_false, false_implies, and_true]
    omega

/-- The range of a type, its lower end by the signedness (40_fxu.md R80). -/
theorem fits_iff_range (v : Int) (sg : Bool) (w : Nat) :
    fits v sg w = true ↔ (if sg then -(2 ^ w - 1 : Int) else 0) ≤ v ∧ v ≤ 2 ^ w - 1 := by
  cases sg
  · exact fits_unsigned v w
  · exact fits_signed v w

/-- Every value fits a wider type of its signedness (40_fxu.md R85). -/
theorem fits_widen {v : Int} {sg : Bool} {w tw : Nat} (h : fits v sg w = true) (hle : w ≤ tw) : fits v sg tw = true := by
  rw [fits_iff_natAbs] at h ⊢
  exact ⟨h.1.trans_le (Nat.pow_le_pow_right (by decide) hle), h.2⟩

/-- A value of a type is of the sign its type allows, so another width asks only for its magnitude (40_fxu.md R86). -/
theorem fits_iff_natAbs_of_fits {v : Int} {sg : Bool} {w tw : Nat} (h : fits v sg w = true) :
    fits v sg tw = true ↔ v.natAbs < 2 ^ tw := by
  rw [fits_iff_natAbs] at h ⊢
  exact and_iff_left h.2

/-- A value fits the signed type where its magnitude fits. -/
theorem fits_signed_iff_natAbs (v : Int) (w : Nat) : fits v true w = true ↔ v.natAbs < 2 ^ w := by
  rw [fits_iff_natAbs]
  exact and_iff_left nofun

/-- The result type is unsigned only where both operands' types are: what holds of the values then (40_fxu.md R89, R91, R92). -/
theorem of_or_eq_false {sa sb : Bool} {P Q R : Prop} (ha : sa = false → P) (hb : sb = false → Q) (h : P → Q → R) :
    (sa || sb) = false → R := by
  intro hs
  obtain ⟨hsa, hsb⟩ := Bool.or_eq_false_iff.mp hs
  exact h (ha hsa) (hb hsb)

/-- `n` more bits hold the product with `2^n` (40_fxu.md R87). -/
theorem fits_mul_two_pow {v : Int} {sg : Bool} {w : Nat} (n : Nat) (h : fits v sg w = true) :
    fits (v * 2 ^ n) sg (w + n) = true := by
  rw [fits_iff_natAbs] at h ⊢
  obtain ⟨hmag, hsign⟩ := h
  refine ⟨?_, fun hs => mul_nonneg (hsign hs) (by positivity)⟩
  rw [Int.natAbs_mul, Int.natAbs_pow, pow_add]
  exact Nat.mul_lt_mul_of_pos_right hmag (Nat.two_pow_pos n)

/-- `n` bits less hold the quotient by `2^n` (40_fxu.md R88). -/
theorem fits_shrTz {v : Int} {sg : Bool} {w n : Nat} (hn : n ≤ w) (h : fits v sg w = true) :
    fits (shrTz v n) sg (w - n) = true := by
  rw [fits_iff_natAbs] at h ⊢
  obtain ⟨hmag, hsign⟩ := h
  unfold shrTz truncDiv
  refine ⟨?_, fun hs => Int.tdiv_nonneg (hsign hs) (by positivity)⟩
  rw [Int.natAbs_tdiv, Int.natAbs_pow]
  refine Nat.div_lt_of_lt_mul ?_
  rwa [show Int.natAbs 2 = 2 from rfl, ← pow_add, Nat.add_sub_cancel' hn]

/-- One more bit than the wider operand holds the sum (40_fxu.md R89). -/
theorem fits_add {v w : Int} {sa sb : Bool} {m n : Nat} (hv : fits v sa m = true) (hw : fits w sb n = true) :
    fits (v + w) (sa || sb) (max m n + 1) = true := by
  obtain ⟨hv, hvsign⟩ := (fits_iff_natAbs _ _ _).mp (fits_widen hv (le_max_left m n))
  obtain ⟨hw, hwsign⟩ := (fits_iff_natAbs _ _ _).mp (fits_widen hw (le_max_right m n))
  refine (fits_iff_natAbs _ _ _).mpr ⟨?_, of_or_eq_false hvsign hwsign Int.add_nonneg⟩
  rw [pow_succ]
  omega

/-- A difference needs no more bits than the wider operand where both are at least 0, else one more (40_fxu.md R90). -/
theorem fits_sub {v w : Int} {sa sb : Bool} {m n : Nat} (hv : fits v sa m = true) (hw : fits w sb n = true) :
    fits (v - w) true (if sa || sb then max m n + 1 else max m n) = true := by
  obtain ⟨hv, hvsign⟩ := (fits_iff_natAbs _ _ _).mp (fits_widen hv (le_max_left m n))
  obtain ⟨hw, hwsign⟩ := (fits_iff_natAbs _ _ _).mp (fits_widen hw (le_max_right m n))
  rw [fits_signed_iff_natAbs]
  split
  case isTrue =>
    rw [pow_succ]
    omega
  case isFalse hs =>
    obtain ⟨hv0, hw0⟩ := of_or_eq_false hvsign hwsign And.intro (Bool.eq_false_of_not_eq_true hs)
    omega

/-- As many bits as both operands together hold the product (40_fxu.md R91). -/
theorem fits_mul {v w : Int} {sa sb : Bool} {m n : Nat} (hv : fits v sa m = true) (hw : fits w sb n = true) :
    fits (v * w) (sa || sb) (m + n) = true := by
  rw [fits_iff_natAbs] at *
  refine ⟨?_, of_or_eq_false hv.2 hw.2 mul_nonneg⟩
  rw [Int.natAbs_mul, pow_add]
  exact Nat.mul_lt_mul'' hv.1 hw.1

/-- A quotient has the sign its type allows, so it fits where its magnitude does (40_fxu.md R92). -/
theorem fits_truncDiv_iff {v w : Int} {sa sb : Bool} {m n : Nat} (tw : Nat) (hv : fits v sa m = true)
    (hw : fits w sb n = true) : fits (truncDiv v w) (sa || sb) tw = true ↔ (truncDiv v w).natAbs ≤ 2 ^ tw - 1 := by
  rw [fits_iff_natAbs] at hv hw ⊢
  rw [Nat.le_sub_one_iff_lt (Nat.two_pow_pos tw)]
  exact and_iff_left (of_or_eq_false hv.2 hw.2 Int.tdiv_nonneg)

theorem fits_natCast_iff (r tw : Nat) : fits r false tw = true ↔ r ≤ 2 ^ tw - 1 := by
  rw [fits_iff_natAbs, Int.natAbs_natCast, Nat.le_sub_one_iff_lt (Nat.two_pow_pos tw)]
  exact and_iff_left fun _ => Int.natCast_nonneg r

/-! ### What an operation on the ports answers -/

section Answers

variable {body : Op Unit} {s : State} {r : Except Violation Bounded}

/-- A value of a type no wider than MAX_W is shown exactly (10_state.md R11). -/
theorem perform_presents {b : Bounded} (h : body s = presentOrRaise r s.quiet) (hp : s.params.Valid) (hr : r = .ok b)
    (hw : b.width ≤ s.params.maxW) (hfit : fits b.val b.signed b.width = true) : Presents s b (perform body s) := by
  subst hr
  have h127 : b.width ≤ 127 := hw.trans hp.maxW.2
  exact ⟨perform_presentOrRaise h, hfit, presented_exact h127 hfit, presented_type h127⟩

/-- What the function refuses is the operation's violation. -/
theorem perform_raises {e : Violation} (h : body s = presentOrRaise r s.quiet) (hr : r = .error e) :
    perform body s = violationOutcome e s := by
  subst hr
  exact perform_presentOrRaise h

end Answers

theorem width_le_of_legalWidth {m : Nat} {w : WidthField} (h : legalWidth m w = true) : w.toNat ≤ m :=
  ((legalWidth_iff m w).mp h).2

section Operand

variable {m : Nat} {p : PortWord} {sg : Bool} {w : WidthField} {v : Int}

theorem PortHolds.inType (h : PortHolds m p sg w v) : fits v sg w.toNat = true := h.2.2

theorem PortHolds.width_le (h : PortHolds m p sg w v) : w.toNat ≤ m := width_le_of_legalWidth h.1

end Operand

section Unary

variable {s : State} {sa : Bool} {wa : WidthField} {v : Int} (f : Nat → Bounded → Except Violation Bounded)

/-- On an operand of its type an operation with one operand is its function. -/
theorem unaryFx_of_portHolds (hl : Live s) (ha : PortHolds s.params.maxW s.latch.a sa wa v) :
    unaryFx sa wa f s = presentOrRaise (f s.params.maxW ⟨sa, wa.toNat, v⟩) s.quiet := by
  obtain ⟨hlegal, rfl, hfit⟩ := ha
  rw [unaryFx_apply sa wa f hl, if_pos hlegal, if_pos hfit]

/-- The operand's range is checked before the function is asked (40_fxu.md R81). -/
theorem unaryFx_outside (hl : Live s) (hlegal : legalWidth s.params.maxW wa = true)
    (hfit : fits (portValue s.params.maxW sa s.latch.a) sa wa.toNat = false) :
    perform (unaryFx sa wa f) s = violationOutcome .fxRange s := by
  refine perform_raise (t := s.quiet) .fxRange ?_
  rw [unaryFx_apply sa wa f hl, if_pos hlegal, if_neg (by simp [hfit])]

end Unary

section Binary

variable {s : State} {sa sb : Bool} {wa wb : WidthField} {v w : Int}
  (f : Nat → Bounded → Bounded → Except Violation Bounded)

/-- On operands of their types an operation with two operands is its function. -/
theorem binaryFx_of_portHolds (hl : Live s) (ha : PortHolds s.params.maxW s.latch.a sa wa v)
    (hb : PortHolds s.params.maxW s.latch.b sb wb w) :
    binaryFx sa wa sb wb f s = presentOrRaise (f s.params.maxW ⟨sa, wa.toNat, v⟩ ⟨sb, wb.toNat, w⟩) s.quiet := by
  obtain ⟨hlegalA, rfl, hfitA⟩ := ha
  obtain ⟨hlegalB, rfl, hfitB⟩ := hb
  rw [binaryFx_apply sa wa sb wb f hl, if_pos hlegalA, if_pos hlegalB, if_pos hfitA, if_pos hfitB]

/-- Both operands' ranges are checked before the function is asked (40_fxu.md R81). -/
theorem binaryFx_outside (hl : Live s) (hlegalA : legalWidth s.params.maxW wa = true)
    (hlegalB : legalWidth s.params.maxW wb = true)
    (hfit : fits (portValue s.params.maxW sa s.latch.a) sa wa.toNat = false ∨
      fits (portValue s.params.maxW sb s.latch.b) sb wb.toNat = false) :
    perform (binaryFx sa wa sb wb f) s = violationOutcome .fxRange s := by
  refine perform_raise (t := s.quiet) .fxRange ?_
  rw [binaryFx_apply sa wa sb wb f hl, if_pos hlegalA, if_pos hlegalB]
  split
  case isTrue hfitA => rw [if_neg (by simpa [hfitA] using hfit)]
  case isFalse => rfl

end Binary

/-- With a legal target type FX.MAKE is its function on port A, read as signed. -/
theorem fxMake_of_legalWidth {s : State} (sa : Bool) {wa : WidthField} (hl : Live s)
    (hlegal : legalWidth s.params.maxW wa = true) :
    fxMake sa wa s = presentOrRaise (fxMakeValue (portValue s.params.maxW true s.latch.a) sa wa.toNat) s.quiet := by
  rw [fxMake_apply sa wa hl, if_pos hlegal]

/-! ### The obligations -/

/-- Settles O1: the range check of the statement is FX.MAKE's one check. -/
theorem makeConstructsOrRaises : Obligations.MakeConstructsOrRaises := by
  refine ⟨fun sa wa => decode_encode (.fxMake sa wa), ?_⟩
  rintro s sa wa v hl hp hlegal rfl
  rw [← fits_iff_range]
  have hbody := fxMake_of_legalWidth sa hl hlegal
  refine ⟨fun hfit => ?_, fun hfit => ?_⟩
  · exact perform_presents hbody hp (if_pos hfit) (width_le_of_legalWidth hlegal) hfit
  · exact perform_raises hbody (if_neg hfit)

/-- Settles O2: the magnitude stays, and the sign is the one the other signedness asks for. -/
theorem signConversionsKeepTheValue : Obligations.SignConversionsKeepTheValue := by
  refine ⟨fun wa => ⟨decode_encode (.fxTos wa), decode_encode (.fxTou wa)⟩, fun s wa v hl hp => ⟨?_, ?_, ?_⟩⟩
  · intro ha
    have hmag := ((fits_iff_natAbs v _ _).mp ha.inType).1
    exact perform_presents (unaryFx_of_portHolds _ hl ha) hp rfl ha.width_le
      ((fits_signed_iff_natAbs v _).mpr hmag)
  · intro ha hv
    have hmag := ((fits_iff_natAbs v _ _).mp ha.inType).1
    exact perform_presents (unaryFx_of_portHolds _ hl ha) hp (if_pos hv) ha.width_le
      ((fits_iff_natAbs v false _).mpr ⟨hmag, fun _ => hv⟩)
  · exact fun ha hv => perform_raises (unaryFx_of_portHolds _ hl ha) (if_neg (not_le.mpr hv))

/-- Settles O3: the value stays, and a wider type holds it. -/
theorem widenKeepsValue : Obligations.WidenKeepsValue := by
  refine ⟨fun sa wa n => decode_encode (.fxWiden sa wa n), fun s sa wa n v hl hp ha => ⟨fun hw => ?_, fun hw => ?_⟩⟩
  · exact perform_presents (unaryFx_of_portHolds _ hl ha) hp (if_pos hw) hw.2 (fits_widen ha.inType hw.1)
  · exact perform_raises (unaryFx_of_portHolds _ hl ha) (if_neg hw)

/-- Settles O4: an unsigned value is in the signed range of a width exactly where it is in the unsigned one. -/
theorem narrowChecksTheValue : Obligations.NarrowChecksTheValue := by
  refine ⟨fun sa wa n => decode_encode (.fxNarrow sa wa n), fun s sa wa n v hl hp ha => ?_⟩
  have hrange : -(2 ^ n.toNat - 1 : Int) ≤ v ∧ v ≤ 2 ^ n.toNat - 1 ↔ fits v sa n.toNat = true := by
    rw [← fits_signed, fits_signed_iff_natAbs, fits_iff_natAbs_of_fits ha.inType]
  rw [hrange]
  refine ⟨fun hw => ?_, fun hw hfit => ?_, fun hw hfit => ?_⟩
  · exact perform_raises (unaryFx_of_portHolds _ hl ha) (if_neg hw)
  · exact perform_presents (unaryFx_of_portHolds _ hl ha) hp ((if_pos hw).trans (if_pos hfit))
      (hw.2.trans ha.width_le) hfit
  · exact perform_raises (unaryFx_of_portHolds _ hl ha) ((if_pos hw).trans (if_neg hfit))

/-- Settles O5: `n` more bits hold the product with `2^n`. -/
theorem shiftLeftMultiplies : Obligations.ShiftLeftMultiplies := by
  refine ⟨fun sa wa n => decode_encode (.fxShl sa wa n), fun s sa wa n v hl hp ha => ⟨fun hw => ?_, fun hw => ?_⟩⟩
  · exact perform_presents (unaryFx_of_portHolds _ hl ha) hp (if_pos hw) hw (fits_mul_two_pow n.toNat ha.inType)
  · exact perform_raises (unaryFx_of_portHolds _ hl ha) (if_neg (not_le.mpr hw))

/-- Settles O6: the quotient of the statement is `shr_tz`, and a legal width leaves a bit where n <= WA - 1. -/
theorem shiftRightRoundsTowardZero : Obligations.ShiftRightRoundsTowardZero := by
  refine ⟨fun sa wa n => decode_encode (.fxShr sa wa n), fun s sa wa n v hl hp ha => ?_⟩
  have hpos : 1 ≤ wa.toNat := ((legalWidth_iff _ _).mp ha.1).1
  have hbit : n.toNat ≤ wa.toNat - 1 ↔ n.toNat + 1 ≤ wa.toNat := by omega
  rw [← shrTz_eq, hbit]
  refine ⟨fun hn => ?_, fun hn => ?_⟩
  · exact perform_presents (unaryFx_of_portHolds _ hl ha) hp (if_pos hn) ((Nat.sub_le _ _).trans ha.width_le)
      (fits_shrTz (Nat.le_of_succ_le hn) ha.inType)
  · exact perform_raises (unaryFx_of_portHolds _ hl ha) (if_neg hn)

/-- Settles O7: the type the operation gives its result holds the sum. -/
theorem addIsExact : Obligations.AddIsExact := by
  refine ⟨fun sa wa sb wb => decode_encode (.fxAdd sa wa sb wb), fun s sa wa sb wb v w hl hp ha hb => ?_⟩
  refine ⟨fun hw => ?_, fun hw => ?_⟩
  · exact perform_presents (binaryFx_of_portHolds _ hl ha hb) hp (if_pos hw) hw (fits_add ha.inType hb.inType)
  · exact perform_raises (binaryFx_of_portHolds _ hl ha hb) (if_neg (not_le.mpr hw))

/-- Settles O8: the two width rules are FX.SUB's. -/
theorem subtractIsExactAndSigned : Obligations.SubtractIsExactAndSigned := by
  refine ⟨fun sa wa sb wb => decode_encode (.fxSub sa wa sb wb), ?_⟩
  intro s sa wa sb wb v w wr hl hp ha hb hwr
  have hrule : wr = if sa || sb then max wa.toNat wb.toNat + 1 else max wa.toNat wb.toNat := by
    rw [hwr]
    cases sa <;> cases sb <;> rfl
  subst hrule
  refine ⟨fun hw => ?_, fun hw => ?_⟩
  · exact perform_presents (binaryFx_of_portHolds _ hl ha hb) hp (if_pos hw) hw (fits_sub ha.inType hb.inType)
  · exact perform_raises (binaryFx_of_portHolds _ hl ha hb) (if_neg (not_le.mpr hw))

/-- Settles O9: the type the operation gives its result holds the product. -/
theorem multiplyIsExact : Obligations.MultiplyIsExact := by
  refine ⟨fun sa wa sb wb => decode_encode (.fxMul sa wa sb wb), fun s sa wa sb wb v w hl hp ha hb => ?_⟩
  refine ⟨fun hw => ?_, fun hw => ?_⟩
  · exact perform_presents (binaryFx_of_portHolds _ hl ha hb) hp (if_pos hw) hw (fits_mul ha.inType hb.inType)
  · exact perform_raises (binaryFx_of_portHolds _ hl ha hb) (if_neg (not_le.mpr hw))

/-- Settles O10: the quotient by magnitudes and signs is `trunc_div`, and the three checks are FX.DIV's, in their order. -/
theorem divideRoundsTowardZero : Obligations.DivideRoundsTowardZero := by
  refine ⟨fun sa wa sb wb n => decode_encode (.fxDiv sa wa sb wb n), ?_⟩
  intro s sa wa sb wb n v w q hl hp ha hb hq
  rw [← truncDiv_eq] at hq
  subst hq
  have hfits := fits_truncDiv_iff n.toNat ha.inType hb.inType
  refine ⟨fun hn => ?_, fun hn => ⟨fun h0 => ?_, fun h0 hle => ?_, fun h0 hlt => ?_⟩⟩
  · exact perform_raises (binaryFx_of_portHolds _ hl ha hb) (if_neg hn)
  · exact perform_raises (binaryFx_of_portHolds _ hl ha hb) ((if_pos hn).trans (if_neg (not_not.mpr h0)))
  · have hfit := hfits.mpr hle
    exact perform_presents (binaryFx_of_portHolds _ hl ha hb) hp ((if_pos hn).trans ((if_pos h0).trans (if_pos hfit))) hn.2 hfit
  · have hfit := mt hfits.mp (not_le.mpr hlt)
    exact perform_raises (binaryFx_of_portHolds _ hl ha hb) ((if_pos hn).trans ((if_pos h0).trans (if_neg hfit)))

/-- Settles O11: the largest root is unique, so it is the one FX.SQRT finds. -/
theorem sqrtIsLargestRoot : Obligations.SqrtIsLargestRoot := by
  refine ⟨fun wa n => decode_encode (.fxSqrt wa n), ?_⟩
  intro s wa n v r hl hp ha hle hlt
  obtain rfl : floorSqrt v = r := floorSqrt_eq hle hlt
  have hfits := fits_natCast_iff (floorSqrt v) n.toNat
  refine ⟨fun hn => ?_, fun hn hr => ?_, fun hn hr => ?_⟩
  · exact perform_raises (unaryFx_of_portHolds _ hl ha) (if_neg hn)
  · have hfit := hfits.mpr hr
    exact perform_presents (unaryFx_of_portHolds _ hl ha) hp ((if_pos hn).trans (if_pos hfit)) hn.2 hfit
  · exact perform_raises (unaryFx_of_portHolds _ hl ha) ((if_pos hn).trans (if_neg (mt hfits.mp (not_le.mpr hr))))

/-- Settles O12: the operands are checked before the operation's function is asked, so what the function is does not matter. -/
theorem fxOperandOutsideItsTypeRaisesRange : Obligations.FxOperandOutsideItsTypeRaisesRange := by
  intro s sa wa sb wb n hl _ hlegal
  refine ⟨fun hfit => ?_, fun hlegalB hfit => ?_⟩
  · have raises (f : Nat → Bounded → Except Violation Bounded) := unaryFx_outside f hl hlegal hfit
    simp only [List.forall_mem_cons]
    refine ⟨⟨raises _, raises _, raises _, raises _, nofun⟩, ?_, ?_⟩
    · rintro rfl
      exact ⟨raises _, raises _, nofun⟩
    · rintro rfl
      exact raises _
  · have raises (f : Nat → Bounded → Bounded → Except Violation Bounded) := binaryFx_outside f hl hlegal hlegalB hfit
    simp only [List.forall_mem_cons]
    exact ⟨raises _, raises _, raises _, raises _, nofun⟩

/-- Settles O14: a violation is raised where at most the result port was written, and recording it clears that port. -/
theorem fxTouchesNothingButResult : Obligations.FxTouchesNothingButResult := by
  intro i s t hi ht
  rw [exec_fx s hi] at ht
  rcases perform_runs (runs_portOperation_fx s hi) ht with hresult | ⟨v, u, rfl, -, hu⟩
  · exact .inl hresult
  · exact .inr ⟨v, by rw [hu]; rfl⟩

end Machine
end Sys2Proof

/-! ## O27 to O34: the timer

A request that changes the timer is its body on the state with nothing on R and RT (`coreOnly_of_core`); what each body answers
stands in `Sys2Proof/Laws/Timer.lean`. So the statements about TM_TIME, TM_CMP and TM_CTRL are those equations, past the checks
of the request. The statements about times are facts about the distance between two of them, modulo 2^32. -/

/-! ### Times -/

namespace Sys2Proof
namespace Machine

/-- The distance of two wrapped times is that of the unwrapped ones, wrapped (41_timer.md R110). -/
theorem toNat_ofInt_sub_ofInt (b a : Int) :
    ((BitVec.ofInt 32 b - BitVec.ofInt 32 a).toNat : Int) = (b - a) % 2 ^ 32 := by
  rw [BitVec.toNat_sub, BitVec.toNat_ofInt, BitVec.toNat_ofInt]
  omega

theorem timeGe_ofInt_iff (b a : Int) :
    timeGe (BitVec.ofInt 32 b) (BitVec.ofInt 32 a) = true ↔ (b - a) % 2 ^ 32 < 2 ^ 31 := by
  rw [timeGe_iff, ← toNat_ofInt_sub_ofInt]
  omega

theorem timeGe_eq_false_iff (b a : Time) : timeGe b a = false ↔ 2 ^ 31 ≤ (b - a).toNat := by
  rw [← Bool.not_eq_true, timeGe_iff, not_lt]

/-- Settles O27: below half the range either way the wrapped distance is less than half exactly for distances that are not
negative; both distances of half the range wrap to half. -/
theorem timeOrderAgreesInHalfRange : Obligations.TimeOrderAgreesInHalfRange := by
  refine ⟨fun a b hlow hhigh => ?_, fun a b hhalf => ?_⟩
  · rw [timeGe_ofInt_iff]
    omega
  · rw [← Bool.not_eq_true, timeGe_ofInt_iff]
    omega

/-- The clearance is at or after a time that is at most the clearance ahead of now, or more than half the range past it
(41_timer.md R115). -/
theorem timeGe_clearance_iff {c : Nat} (time now : Time) (hc : c < 2 ^ 31) :
    timeGe (now + BitVec.ofNat 32 c) time = true ↔ (time - now).toNat ≤ c ∨ 2 ^ 31 + c < (time - now).toNat := by
  rw [timeGe_iff, BitVec.toNat_sub, BitVec.toNat_sub, BitVec.toNat_add, BitVec.toNat_ofNat]
  have htime := time.isLt
  have hnow := now.isLt
  omega

theorem rebase_eq_clearance {c : Nat} {time now : Time} (hc : c < 2 ^ 31)
    (h : (time - now).toNat ≤ c ∨ 2 ^ 31 + c < (time - now).toNat) : rebase c time now = now + BitVec.ofNat 32 c :=
  if_pos ((timeGe_clearance_iff time now hc).mpr h)

theorem rebase_eq_time {c : Nat} {time now : Time} (hc : c < 2 ^ 31)
    (h : ¬ ((time - now).toNat ≤ c ∨ 2 ^ 31 + c < (time - now).toNat)) : rebase c time now = time :=
  if_neg (mt (timeGe_clearance_iff time now hc).mp h)

/-- What is programmed is never less than the clearance ahead (41_timer.md R115). -/
theorem clearance_le_rebase {c : Nat} (time now : Time) (hc : c < 2 ^ 31) : c ≤ (rebase c time now - now).toNat := by
  by_cases h : (time - now).toNat ≤ c ∨ 2 ^ 31 + c < (time - now).toNat
  · rw [rebase_eq_clearance hc h, add_sub_cancel_left, BitVec.toNat_ofNat]
    omega
  · rw [rebase_eq_time hc h]
    omega

/-- Settles O31: the two answers of `rebase`, each on its range of distances. -/
theorem rebaseKeepsTheClearance : Obligations.RebaseKeepsTheClearance := by
  refine fun c time now _ hc => ⟨fun hnear => ?_, fun hclear hhalf => ?_, fun hpast => ?_, clearance_le_rebase time now hc⟩
  · exact rebase_eq_clearance hc (.inl hnear)
  · exact rebase_eq_time hc (by omega)
  · exact rebase_eq_clearance hc (.inr hpast)

/-! ### What a request answers past its checks -/

theorem onPort_of_live {body : Op Unit} {s : State} (hl : Live s) : onPort body s = body s.quiet := by
  rw [onPort_apply, if_neg (by simp [hl])]

/-- Performed by CORE an operation of kind I, E or O is its body (30_encoding.md R69). -/
theorem coreOnly_of_core {body : Op Unit} {s : State} (hl : Live s) (hc : s.latch.issuer = .core) :
    coreOnly body s = body s.quiet := by
  rw [coreOnly_apply, if_neg (by simp [hl]), if_neg (by simp [hc])]

/-- A meaning is what its body answers, from whatever state. -/
theorem perform_congr {x y : Op Unit} {s t : State} (h : x s = y t) : perform x s = perform y t := by
  unfold perform
  rw [h]

/-- A request clears R and RT before it raises (60_exceptions.md R182). -/
theorem perform_raise_quiet {body : Op Unit} {s : State} {v : Violation} (h : body s = (raise v : Op Unit) s.quiet) :
    perform body s = violationOutcome v s :=
  perform_raise (t := s.quiet) v h

/-- A time on a port is the operand (30_encoding.md R62, R66). -/
theorem timeOperand_bind_of_portTime {β : Type} {p : PortWord} {t : Time} {s : State} (f : Time → Op β)
    (h : PortTime s.params.maxW p t) : (timeOperand p >>= f) s = f t s := by
  obtain ⟨hholds, hvalue⟩ := h
  rw [timeOperand_bind, if_pos hholds, hvalue, BitVec.ofNat_toNat, BitVec.setWidth_eq]

/-- A port value that is no time makes the word illegal (30_encoding.md R68). -/
theorem timeOperand_bind_of_noTime {β : Type} {p : PortWord} {s : State} (f : Time → Op β)
    (h : portHoldsTime s.params.maxW p = false) : (timeOperand p >>= f) s = (raise .illegalOp : Op β) s := by
  rw [timeOperand_bind, if_neg (by simp [h])]

/-! ### TM.GE and TM.GETTIME -/

/-- On two times TM.GE shows their order (41_timer.md R111). -/
theorem tmGe_of_portTime {s : State} {b a : Time} (hl : Live s) (hb : PortTime s.params.maxW s.latch.a b)
    (ha : PortTime s.params.maxW s.latch.b a) :
    tmGe s = present ⟨false, 1, if timeGe b a = true then 1 else 0⟩ s.quiet := by
  rw [tmGe, onPort_of_live hl, op_get_bind, timeOperand_bind_of_portTime (s := s.quiet) (p := s.quiet.latch.a) _ hb,
    op_get_bind, timeOperand_bind_of_portTime (s := s.quiet) (p := s.quiet.latch.b) _ ha]

theorem tmGe_of_noTime {s : State} (hl : Live s)
    (h : portHoldsTime s.params.maxW s.latch.a = false ∨ portHoldsTime s.params.maxW s.latch.b = false) :
    tmGe s = (raise .illegalOp : Op Unit) s.quiet := by
  rw [tmGe, onPort_of_live hl, op_get_bind, timeOperand_bind]
  split
  case isTrue ha =>
    rw [op_get_bind, timeOperand_bind_of_noTime]
    exact h.resolve_left (by simpa using ha)
  case isFalse => rfl

/-- The truth value an FX or TM operation shows is of type u1. -/
theorem fits_truthValue (c : Prop) [Decidable c] : fits (if c then 1 else 0) false 1 = true := by
  split <;> decide

/-- Settles O28: the order shown is the distance of the times compared with half the range. -/
theorem geComparesTimes : Obligations.GeComparesTimes := by
  refine ⟨decode_encode .tmGe, fun s hl hp => ⟨fun b a hb ha => ?_, fun hno => ?_⟩⟩
  · have horder : timeGe b a = true ↔ (b.toNat + 2 ^ 32 - a.toNat) % 2 ^ 32 < 2 ^ 31 := by
      have hlt := a.isLt
      rw [timeGe_iff, BitVec.toNat_sub, show 2 ^ 32 - a.toNat + b.toNat = b.toNat + 2 ^ 32 - a.toNat by omega]
    simp only [← horder]
    exact perform_presents (r := .ok _) (tmGe_of_portTime hl hb ha) hp rfl hp.maxW.1 (fits_truthValue _)
  · exact perform_raise_quiet (tmGe_of_noTime hl hno)

/-- Showing a register writes R and RT, so what stood there before does not matter. -/
theorem presentRegister_quiet (w n : Nat) (s : State) : presentRegister w n s.quiet = presentRegister w n s := by
  rw [presentRegister_apply, presentRegister_apply]
  rfl

/-- TM.GETTIME shows the counter after the ticks that pass before its read (41_timer.md R112). -/
theorem tmGettime_apply {s : State} (hl : Live s) :
    tmGettime s = presentRegister 32 (s.cnt + BitVec.ofNat 32 s.latch.lag).toNat (advanceCounter s.latch.lag s) := by
  rw [tmGettime, onPort_of_live hl, ← presentRegister_quiet]
  exact op_bind_ok (atomically_apply readCounter s.quiet)

/-- Settles O29: the time is a register of 32 bits. -/
theorem gettimeReadsTheCounter : Obligations.GettimeReadsTheCounter := by
  refine ⟨decode_encode .tmGettime, fun s hl hp => ?_⟩
  show ShowsRegister _ 32 _ (perform tmGettime s)
  rw [perform_congr (tmGettime_apply hl)]
  exact presentRegister_showsRegister hp (BitVec.isLt _) rfl

/-! ### Arming and disarming -/

/-- Settles O30: TM.INIT checks nothing, TM.DEINIT only that the interrupt is off. -/
theorem timerInitAndDeinit : Obligations.TimerInitAndDeinit := by
  refine fun s hl hc => ⟨?_, fun hirq => ?_, fun hirq => ?_⟩
  · exact perform_ok ((coreOnly_of_core hl hc).trans (timerInit_apply _))
  · exact perform_ok ((coreOnly_of_core hl hc).trans ((timerDeinit_apply _).trans (if_pos hirq)))
  · exact perform_raise_quiet ((coreOnly_of_core hl hc).trans ((timerDeinit_apply _).trans (if_neg (by simp [hirq]))))

theorem tmSetfirst_of_portTime {s : State} {time : Time} (hl : Live s) (hc : s.latch.issuer = .core)
    (ht : PortTime s.params.maxW s.latch.a time) : tmSetfirst s = timerSetFirst time s.quiet := by
  rw [tmSetfirst, coreOnly_of_core hl hc, op_get_bind, timeOperand_bind_of_portTime (s := s.quiet) (p := s.quiet.latch.a) _ ht]

theorem tmSetnext_of_portTime {s : State} {time : Time} (hl : Live s) (hc : s.latch.issuer = .core)
    (ht : PortTime s.params.maxW s.latch.a time) : tmSetnext s = timerSetNext time s.quiet := by
  rw [tmSetnext, coreOnly_of_core hl hc, op_get_bind, timeOperand_bind_of_portTime (s := s.quiet) (p := s.quiet.latch.a) _ ht]

/-- Settles O32: the one check past the operand is that the interrupt is off. -/
theorem setfirstArmsTheTimer : Obligations.SetfirstArmsTheTimer := by
  refine ⟨decode_encode .tmSetfirst, ?_⟩
  rintro s time now hl hc ht rfl
  have hbody := (tmSetfirst_of_portTime hl hc ht).trans (timerSetFirst_apply time s.quiet)
  refine ⟨fun hirq => ?_, fun hirq => ?_⟩
  · exact perform_ok (hbody.trans (if_pos hirq))
  · exact perform_raise_quiet (hbody.trans (if_neg (by simp [hirq])))

/-- Arming an armed timer writes TM_TIME and TM_CMP alone (41_timer.md R117). -/
theorem armedAt_of_armed {time : Time} {s : State} (hirq : s.tm.irqEn = true) (harmed : s.tm.armed = s.params.assertions) :
    armedAt time s = { s with
      cnt := s.cnt + BitVec.ofNat 32 s.latch.lag
      tm := { s.tm with time := time
                        cmp := rebase s.params.clearance time (s.cnt + BitVec.ofNat 32 s.latch.lag) }
      trace := s.trace ++ [.arm (rebase s.params.clearance time (s.cnt + BitVec.ofNat 32 s.latch.lag))] } := by
  rw [armedAt, ← harmed, ← hirq]

/-- Settles O33: IRQ_EN and ARMED are written with the values they have. -/
theorem setnextReprogramsTheTimer : Obligations.SetnextReprogramsTheTimer := by
  refine ⟨decode_encode .tmSetnext, ?_⟩
  rintro s time now hl hc ht rfl
  have hbody := (tmSetnext_of_portTime hl hc ht).trans (timerSetNext_apply time s.quiet)
  refine ⟨fun ⟨hin, hirq, harmed⟩ => ?_, fun hno => ?_⟩
  · rw [if_pos ⟨hin, hirq⟩, armedAt_of_armed (s := s.quiet) hirq harmed] at hbody
    exact perform_ok hbody
  · exact perform_raise_quiet (hbody.trans (if_neg hno))

/-- Settles O34: TM.UNSET checks nothing, so it answers the same in every state of the timer. -/
theorem unsetDisarmsTheTimer : Obligations.UnsetDisarmsTheTimer :=
  ⟨decode_encode .tmUnset, fun _ hl hc => perform_ok ((coreOnly_of_core hl hc).trans (timerUnset_apply _))⟩

end Machine
end Sys2Proof

/-! ## O35, O36: TM.IRQ

TM.IRQ past its time check is SP.STEP and a return that turns on its answer keep. The statement reads keep off the state SP.STEP
leaves, from any memory: so SP.STEP must leave RUNNING as it answers, and FAULT, which tells a violation from an end, as it found
it. `Preserves` says that a part of the state is the same wherever an operation ends. -/

/-! ### What an operation that ends has left alone -/

namespace Sys2Proof
namespace Machine

/-- Every way `x` ends in `s` ends in `Q`; nothing is said of what it raises. -/
abbrev Ends {α : Type} (x : Op α) (s : State) (Q : α → State → Prop) : Prop := Runs x s Q fun _ _ => True

/-- Wherever `x` ends, whatever state it began in, `part` of the state is what it was. -/
def Preserves {α γ : Type} (part : State → γ) (x : Op α) : Prop := ∀ s, Ends x s fun _ t => part t = part s

/-- Both of what is known of the ends holds there. -/
theorem Ends.and {α : Type} {x : Op α} {s : State} {Q Q' : α → State → Prop} (h : Ends x s Q) (h' : Ends x s Q') :
    Ends x s fun a t => Q a t ∧ Q' a t := by
  unfold Ends Runs at *
  revert h h'
  cases x s with
  | ok a t => exact And.intro
  | error e t => cases e <;> exact fun h _ => h

/-- A recorded violation halts the machine (60_exceptions.md R182). -/
theorem Ends.halted_of_violated {α : Type} {x : Op α} {s u : State} {Q : α → State → Prop} (h : Ends x s Q)
    (hx : x s = .error .violated u) : u.fault.halted = true := by
  unfold Ends Runs at h
  rw [hx] at h
  obtain ⟨v, w, rfl, -⟩ := h
  exact recordViolation_halted v w

theorem Ends.of_ok {α : Type} {x : Op α} {s u : State} {a : α} {Q : α → State → Prop} (h : Ends x s Q)
    (hx : x s = .ok a u) : Q a u := by
  unfold Ends Runs at h
  rwa [hx] at h

theorem Keeps.ends {α γ : Type} {part : State → γ} {x : Op α} {s : State} (h : Keeps part x s) :
    Ends x s fun _ t => part t = part s :=
  runs_mono h (fun _ _ => id) fun _ _ _ => trivial

section Preserves

variable {α β γ δ : Type} {part : State → γ}

theorem Preserves.map {x : Op α} (f : γ → δ) (h : Preserves part x) : Preserves (fun t => f (part t)) x :=
  fun s => runs_mono (h s) (fun _ _ => congrArg f) fun _ _ => id

/-- What follows an operation that preserves a part may count on it. -/
theorem Preserves.bind_ends {x : Op α} {f : α → Op β} {s : State} {Q : β → State → Prop} (hx : Preserves part x)
    (hf : ∀ a t, part t = part s → Ends (f a) t Q) : Ends (x >>= f) s Q :=
  runs_bind (runs_mono (hx s) hf fun _ _ => id)

theorem Preserves.bind {x : Op α} {f : α → Op β} (hx : Preserves part x) (hf : ∀ a, Preserves part (f a)) :
    Preserves part (x >>= f) :=
  fun _ => hx.bind_ends fun a t ht => runs_mono (hf a t) (fun _ _ hu => hu.trans ht) fun _ _ => id

theorem preserves_of_apply {x : Op α} {a : State → α} {f : State → State} (h : ∀ s, x s = .ok (a s) (f s))
    (hf : ∀ s, part (f s) = part s) : Preserves part x := fun s => runs_of_ok (h s) (hf s)

theorem preserves_pure (a : α) : Preserves part (pure a : Op α) := fun _ => runs_pure rfl

theorem preserves_raise (v : Violation) : Preserves part (raise v : Op α) := fun _ => runs_raise trivial

theorem preserves_modify {f : State → State} (hf : ∀ s, part (f s) = part s) : Preserves part (modify f : Op PUnit) :=
  preserves_of_apply (op_modify f) hf

theorem preserves_modify_bind {g : State → State} {f : PUnit → Op β} (hg : ∀ s, part (g s) = part s)
    (hf : Preserves part (f ⟨⟩)) : Preserves part ((modify g : Op PUnit) >>= f) :=
  (preserves_modify hg).bind fun _ => hf

theorem preserves_get_bind {f : State → Op β} (hf : ∀ s, Preserves part (f s)) :
    Preserves part ((get : Op State) >>= f) := fun s => hf s s

theorem preserves_check (c : Prop) [Decidable c] (v : Violation) : Preserves part (check c v) := by
  unfold check
  split
  · exact preserves_pure ()
  · exact preserves_raise v

theorem preserves_ite {c : Prop} [Decidable c] {x y : Op α} (hx : Preserves part x) (hy : Preserves part y) :
    Preserves part (if c then x else y) := by
  split
  · exact hx
  · exact hy

end Preserves

/-! ### RUNNING and FAULT in the handler -/

/-- RUNNING and FAULT. -/
abbrev progress (s : State) : Bool × FaultReg := (s.sp.running, s.fault)

theorem Preserves.fault {α : Type} {x : Op α} (h : Preserves progress x) : Preserves State.fault x := h.map Prod.snd

theorem preserves_emit (e : OutEvent) : Preserves progress (emit e) := preserves_modify fun _ => rfl

theorem preserves_pulse : Preserves progress pulse := preserves_of_apply pulse_apply fun _ => rfl

theorem preserves_setDirection (b : Bool) : Preserves progress (setDirection b) :=
  preserves_of_apply (setDirection_apply b) fun _ => rfl

theorem preserves_freshBits (w : Nat) : Preserves progress (freshBits w) :=
  preserves_of_apply (freshBits_apply w) fun _ => rfl

theorem preserves_memRead (p : Nat) (f : Field) : Preserves progress (memRead p f) := fun s =>
  have ⟨_, _, h⟩ := memRead_ok p f s
  runs_of_ok h rfl

theorem preserves_memWrite (p : Nat) (f : Field) (v : Int) : Preserves progress (memWrite p f v) :=
  preserves_get_bind fun _ => (preserves_check _ _).bind fun _ => preserves_modify fun _ => rfl

theorem preserves_armAt (time : Time) : Preserves progress (armAt time) :=
  preserves_of_apply (armAt_apply time) fun _ => rfl

theorem preserves_timerSetFirst (time : Time) : Preserves progress (timerSetFirst time) :=
  preserves_get_bind fun _ => (preserves_check _ _).bind fun _ => preserves_armAt time

theorem preserves_timerSetNext (time : Time) : Preserves progress (timerSetNext time) :=
  preserves_get_bind fun _ => (preserves_check _ _).bind fun _ => preserves_armAt time

theorem preserves_evalSegment (p : Nat) : Preserves progress (evalSegment p) := by
  refine (preserves_memRead p .disc).bind fun disc => (preserves_memRead p .amul).bind fun amul => ?_
  refine preserves_get_bind fun s => (preserves_check _ _).bind fun _ => (preserves_check _ _).bind fun _ => ?_
  refine (preserves_check _ _).bind fun _ => (preserves_memWrite p .disc _).bind fun _ => ?_
  refine preserves_ite (preserves_pure 0) ((preserves_check _ _).bind fun _ => (preserves_check _ _).bind fun _ => ?_)
  exact (preserves_memRead p .tmul).bind fun _ => preserves_pure _

theorem preserves_seedSegment (x : Nat) (acc : Bool) (amul : Int) (t0 tend : Time) :
    Preserves progress (seedSegment x acc amul t0 tend) :=
  preserves_get_bind fun _ => preserves_modify_bind (fun _ => rfl) <| (preserves_check _ _).bind fun _ =>
    (preserves_check _ _).bind fun _ => preserves_modify fun _ => rfl

theorem preserves_firstEvent (p x : Nat) (acc : Bool) (t0 tend : Time) :
    Preserves progress (firstEvent p x acc t0 tend) := by
  refine preserves_ite (preserves_modify_bind (fun _ => rfl) <| preserves_pure tend) ?_
  refine (preserves_memRead p .amul).bind fun amul => (preserves_seedSegment x acc amul t0 tend).bind fun _ => ?_
  exact (preserves_evalSegment p).bind fun _ => preserves_get_bind fun _ => preserves_pure _

theorem preserves_loadCommand (p : Nat) (t0 : Time) (first : Bool) : Preserves progress (loadCommand p t0 first) := by
  refine (preserves_memRead p .dirx).bind fun dirx => preserves_get_bind fun s => ?_
  refine (preserves_setDirection _).bind fun _ => preserves_modify_bind (fun _ => rfl) <| ?_
  refine (preserves_memRead p .tmul).bind fun tmul => (preserves_firstEvent p _ _ t0 _).bind fun target => ?_
  exact preserves_ite (preserves_timerSetFirst target) (preserves_timerSetNext target)

theorem preserves_writePos (p : Nat) : Preserves progress (writePos p) :=
  preserves_get_bind fun _ => (preserves_check _ _).bind fun _ => preserves_modify fun _ => rfl

theorem preserves_advanceUp (p x : Nat) : Preserves progress (advanceUp p x) := by
  refine preserves_get_bind fun s => preserves_ite ?_ ?_
  · refine preserves_modify_bind (fun _ => rfl) <| (preserves_memRead p .tmul).bind fun tmul => ?_
    exact preserves_modify_bind (fun _ => rfl) <| preserves_get_bind fun _ => preserves_timerSetNext _
  · refine (preserves_writePos _).bind fun _ => (preserves_evalSegment p).bind fun delta => ?_
    exact preserves_get_bind fun _ => preserves_timerSetNext _

theorem preserves_advanceDown (p : Nat) : Preserves progress (advanceDown p) := by
  refine preserves_get_bind fun s => preserves_ite ?_ ?_
  · exact preserves_modify_bind (fun _ => rfl) <| preserves_get_bind fun _ => preserves_timerSetNext _
  · refine (preserves_writePos _).bind fun _ => (preserves_evalSegment p).bind fun delta => ?_
    exact preserves_get_bind fun _ => preserves_timerSetNext _

/-! ### FAULT in a callback: an operation that meets a violation does not end -/

theorem preserves_onPort {body : Op Unit} (h : Preserves State.fault body) : Preserves State.fault (onPort body) :=
  preserves_modify_bind (fun _ => rfl) <| preserves_get_bind fun _ => preserves_ite (preserves_pure ()) h

theorem preserves_illegalWord : Preserves State.fault illegalWord := preserves_onPort (preserves_raise _)

theorem preserves_requireBackground : Preserves State.fault requireBackground :=
  preserves_get_bind fun _ => preserves_check _ _

theorem preserves_timeOperand (p : PortWord) : Preserves State.fault (timeOperand p) :=
  preserves_get_bind fun _ => (preserves_check _ _).bind fun _ => preserves_pure _

theorem preserves_atomically {α : Type} {body : Op α} (h : Preserves State.fault body) :
    Preserves State.fault (atomically body) :=
  preserves_get_bind fun _ => preserves_modify_bind (fun _ => rfl) <| h.bind fun _ =>
    preserves_modify_bind (fun _ => rfl) <| preserves_pure _

theorem preserves_readCounter : Preserves State.fault readCounter := preserves_of_apply readCounter_apply fun _ => rfl

theorem preserves_presentRegister (w n : Nat) : Preserves State.fault (presentRegister w n) :=
  preserves_get_bind fun _ => preserves_ite (preserves_modify fun _ => rfl)
    ((preserves_freshBits _).fault.bind fun _ => preserves_modify fun _ => rfl)

theorem preserves_fx {i : Instr} (h : isFx i = true) : Preserves State.fault (portOperation i) := fun s =>
  runs_mono (runs_portOperation_fx s h) (fun _ _ (ht : ResultOnly s _) => by rw [ht]) fun _ _ _ => trivial

theorem preserves_tmGe : Preserves State.fault tmGe :=
  preserves_onPort (preserves_get_bind fun _ => (preserves_timeOperand _).bind fun _ => preserves_get_bind fun _ =>
    (preserves_timeOperand _).bind fun _ => preserves_modify fun _ => rfl)

theorem preserves_tmGettime : Preserves State.fault tmGettime :=
  preserves_onPort ((preserves_atomically preserves_readCounter).bind fun _ => preserves_presentRegister _ _)

theorem preserves_sysRdreg (reg : BitVec 8) : Preserves State.fault (sysRdreg reg) := by
  refine preserves_modify_bind (fun _ => rfl) <| (preserves_check _ _).bind fun _ => ?_
  refine (preserves_atomically (preserves_ite ?_ ?_)).bind fun v => ?_
  · exact preserves_readCounter.bind fun _ => preserves_pure _
  · exact preserves_get_bind fun _ => preserves_pure _
  · cases v with
    | none => exact preserves_raise _
    | some p => exact preserves_presentRegister _ _

theorem preserves_spInit : Preserves State.fault spInit :=
  preserves_onPort (preserves_requireBackground.bind fun _ => preserves_get_bind fun _ => (preserves_check _ _).bind fun _ =>
    preserves_modify_bind (fun _ => rfl) <| preserves_modify fun _ => rfl)

theorem preserves_timerDeinit : Preserves State.fault timerDeinit :=
  preserves_get_bind fun _ => (preserves_check _ _).bind fun _ => preserves_modify fun _ => rfl

theorem preserves_spDeinit : Preserves State.fault spDeinit :=
  preserves_onPort (preserves_requireBackground.bind fun _ => preserves_get_bind fun _ => (preserves_check _ _).bind fun _ =>
    preserves_get_bind fun _ => (preserves_check _ _).bind fun _ => preserves_timerDeinit.bind fun _ =>
      preserves_modify fun _ => rfl)

theorem preserves_spPrestep (flag : Bool) : Preserves State.fault (spPrestep flag) :=
  preserves_onPort (preserves_requireBackground.bind fun _ => preserves_get_bind fun _ => (preserves_check _ _).bind fun _ =>
    preserves_get_bind fun _ => (preserves_check _ _).bind fun _ => preserves_modify fun _ => rfl)

theorem preserves_recordedConsumer (cid : ConsumerId) : Preserves State.fault (recordedConsumer cid) :=
  preserves_get_bind fun _ => preserves_ite (preserves_pure _)
    ((preserves_freshBits _).fault.bind fun _ => preserves_pure _)

theorem preserves_spStart (cid : ConsumerId) : Preserves State.fault (spStart cid) := by
  refine preserves_onPort (preserves_get_bind fun _ => (preserves_timeOperand _).bind fun time => ?_)
  refine preserves_requireBackground.bind fun _ => preserves_get_bind fun _ => (preserves_check _ _).bind fun _ => ?_
  refine preserves_get_bind fun _ => (preserves_check _ _).bind fun _ => preserves_get_bind fun s => ?_
  refine (preserves_check _ _).bind fun _ => (preserves_recordedConsumer cid).bind fun id => ?_
  exact preserves_modify_bind (fun _ => rfl) <| (preserves_loadCommand _ time true).fault

theorem preserves_timerUnset : Preserves State.fault timerUnset := preserves_of_apply timerUnset_apply fun _ => rfl

theorem preserves_spStop : Preserves State.fault spStop :=
  preserves_onPort (preserves_requireBackground.bind fun _ => preserves_get_bind fun _ => (preserves_check _ _).bind fun _ =>
    preserves_atomically (preserves_timerUnset.bind fun _ => preserves_modify fun _ => rfl))

theorem preserves_memFill (p : Nat) (r : CommandRecord) : Preserves State.fault (memFill p r) :=
  preserves_get_bind fun _ => (preserves_check _ _).bind fun _ => preserves_modify fun _ => rfl

theorem preserves_spGencmd (dir : Bool) : Preserves State.fault (spGencmd dir) := by
  refine preserves_onPort (preserves_get_bind fun s => (preserves_check _ _).bind fun _ => ?_)
  refine (preserves_check _ _).bind fun _ => (preserves_check _ _).bind fun _ => ?_
  exact (preserves_memFill _ _).bind fun _ => preserves_modify (spoilIfOwned_fault _)

/-- An operation that ends on the port has recorded no violation. -/
theorem preserves_portOperation (i : Instr) : Preserves State.fault (portOperation i) := by
  cases i
  case tmGettime => exact preserves_tmGettime
  case tmGe => exact preserves_tmGe
  case spInit => exact preserves_spInit
  case spDeinit => exact preserves_spDeinit
  case spStart cid => exact preserves_spStart cid
  case spStop => exact preserves_spStop
  case spGencmd dir => exact preserves_spGencmd dir
  case spPrestep flag => exact preserves_spPrestep flag
  case sysRdreg reg => exact preserves_sysRdreg reg
  case tmInit | tmDeinit | tmSetfirst | tmSetnext | tmUnset | tmIrq => exact preserves_illegalWord
  case spStep | cdCmdcb | cdPrecb => exact preserves_illegalWord
  all_goals exact preserves_fx rfl

theorem preserves_callbackAction (a : CallbackAction) : Preserves State.fault (callbackAction a) := by
  cases a with
  | operate r =>
    refine preserves_modify_bind (fun _ => rfl) <| ?_
    cases decode r.word with
    | ok i => exact preserves_portOperation i
    | error e => exact preserves_illegalWord
  | fill p r => exact preserves_modify (fillRecord_fault p r)
  | free p => exact preserves_modify fun _ => rfl

theorem preserves_callbackActions (l : List CallbackAction) : Preserves State.fault (callbackActions l) := by
  induction l with
  | nil => exact preserves_pure ()
  | cons a rest ih => exact (preserves_callbackAction a).bind fun _ => ih

theorem preserves_runConsumer (r : Reply) : Preserves State.fault (runConsumer r) :=
  preserves_get_bind fun _ => (preserves_callbackActions r.actions).bind fun _ =>
    preserves_ite (preserves_modify fun _ => rfl) fun _ => trivial

theorem preserves_commandCallback (i p : Nat) : Preserves State.fault (commandCallback i p) := by
  refine Preserves.bind (preserves_get_bind fun s => ?_) fun _ => (preserves_emit _).fault.bind fun _ => preserves_pure _
  cases s.latch.reply with
  | none =>
    exact (preserves_freshBits _).fault.bind fun _ => preserves_get_bind fun _ =>
      (preserves_freshBits _).fault.bind fun _ => preserves_pure _
  | some r => exact (preserves_runConsumer r).bind fun _ => preserves_get_bind fun _ => preserves_pure _

theorem preserves_prestepCallback (i : Nat) : Preserves State.fault (prestepCallback i) := by
  refine Preserves.bind (preserves_get_bind fun s => ?_) fun _ => (preserves_emit _).fault.bind fun _ => preserves_pure _
  cases s.latch.reply with
  | none => exact (preserves_freshBits _).fault.bind fun _ => preserves_pure _
  | some r => exact (preserves_runConsumer r).bind fun _ => preserves_pure _

/-- In interrupt context a consumer touches no register, so it leaves RUNNING too. -/
theorem ends_callback {α : Type} {x : Op α} {s : State} (hregs : Keeps registers x s) (hfault : Preserves State.fault x) :
    Ends x s fun _ t => progress t = progress s :=
  runs_mono (hregs.ends.and (hfault s))
    (fun _ _ ⟨hr, hf⟩ => Prod.ext (congrArg (fun r => r.2.1.running) hr) hf) fun _ _ => id

/-! ### SP.STEP leaves RUNNING as it answers keep -/

/-- A run that goes on: nothing wrote RUNNING. -/
theorem ends_emitStep (p : Nat) (s : State) : Ends (emitStep p) s fun keep t => keep = true ∧ progress t = progress s := by
  refine preserves_pulse.bind_ends fun _ t ht => (preserves_memRead p .dirx).bind_ends fun dirx u hu => runs_get_bind ?_
  have advanced {x : Op Unit} (hx : Preserves progress x) :
      Ends (x >>= fun _ => pure true) u fun keep v => keep = true ∧ progress v = progress s :=
    hx.bind_ends fun _ v hv => runs_pure ⟨rfl, hv.trans (hu.trans ht)⟩
  dsimp only
  split
  · exact advanced (preserves_advanceUp p _)
  · exact advanced (preserves_advanceDown p)

/-- A run that ends. -/
theorem ends_endRun (s : State) : Ends endRun s fun keep t => progress t = (keep, s.fault) := runs_modify_bind (runs_pure rfl)

/-- A pulse that follows where a run stands leaves RUNNING at 1, which is its answer. -/
theorem ends_emitStep_running {p : Nat} {s t : State} (hrun : s.sp.running = true) (ht : progress t = progress s) :
    Ends (emitStep p) t fun keep u => progress u = (keep, s.fault) := by
  refine runs_mono (ends_emitStep p t) (fun keep u hu => ?_) fun _ _ => id
  obtain ⟨rfl, hu⟩ := hu
  rw [hu, ht, progress, hrun]

theorem ends_pulseInterrupt (p : Nat) {s : State} (hi : s.inIrq = true) (hrun : s.sp.running = true) :
    Ends (pulseInterrupt p) s fun keep t => progress t = (keep, s.fault) := by
  refine runs_get_bind ?_
  split
  · refine runs_bind (runs_mono (ends_callback (keeps_prestepCallback _ hi) (preserves_prestepCallback _))
      (fun abort t ht => ?_) fun _ _ => id)
    cases abort
    · exact ends_emitStep_running hrun ht
    · have hfault : t.fault = s.fault := congrArg Prod.snd ht
      exact hfault ▸ ends_endRun t
  · exact ends_emitStep_running hrun rfl

theorem ends_fetchInterrupt (p : Nat) {s : State} (hi : s.inIrq = true) (hrun : s.sp.running = true) :
    Ends (fetchInterrupt p) s fun keep t => progress t = (keep, s.fault) := by
  refine runs_get_bind (runs_bind (runs_mono (ends_callback (keeps_commandCallback _ p hi) (preserves_commandCallback _ p))
    (fun answer t ht => ?_) fun _ _ => id))
  cases answer with
  | stop =>
    have hfault : t.fault = s.fault := congrArg Prod.snd ht
    exact hfault ▸ ends_endRun t
  | proceed q =>
    refine runs_check_bind (fun _ => runs_modify_bind (runs_get_bind ?_)) trivial
    refine (preserves_loadCommand q _ false).bind_ends fun _ u hu => runs_pure ?_
    rw [hu]
    exact ht.trans (by rw [progress, hrun])

/-- SP.STEP answers keep where RUNNING is still 1, and where it ends it has recorded no violation (42_scheduler.md R140). -/
theorem ends_stepHandler {s : State} (hi : s.inIrq = true) :
    Ends stepHandler s fun keep t => progress t = (keep, s.fault) := by
  refine runs_get_bind (runs_check_bind (fun hrun => ?_) trivial)
  split
  · exact ends_pulseInterrupt _ hi hrun
  · exact ends_fetchInterrupt _ hi hrun

/-! ### The entry into the handler and the return from it -/

/-- Where it may not start, or before its time, TM.IRQ does nothing (60_exceptions.md R187, log entry 17). -/
theorem timerIrq_outOfTurn {s : State} (h : s.tm.irqEn = false ∨ s.im = true ∨ s.inIrq = true ∨
    s.fault.halted = true ∨ 2 ^ 31 ≤ (s.cnt - s.tm.time).toNat) : timerIrq s = .ok () s := by
  rw [timerIrq, op_get_bind, if_neg]
  · rfl
  · rw [Bool.and_eq_true, interruptMayStart_iff, timeGe_iff]
    rintro ⟨⟨hirq, him, hin, hhalted⟩, htime⟩
    simp only [hirq, him, hin, hhalted, not_le.mpr htime, Bool.true_eq_false, Bool.false_eq_true, or_self] at h

/-- Settles O35: a halted machine performs no operation, and any other case is out of turn. -/
theorem interruptOutOfTurnChangesNothing : Obligations.InterruptOutOfTurnChangesNothing := by
  intro s hc h
  refine perform_ok ?_
  cases hl : s.fault.halted
  case true => rw [coreOnly_apply, if_pos hl]
  case false =>
    rw [coreOnly_of_core hl hc]
    exact timerIrq_outOfTurn (s := s.quiet) h

/-- The return from the handler: without keep the timer is disarmed first (41_timer.md R119). -/
def handlerReturn (keep : Bool) (s : State) : State := { (if keep then s else disarmed s) with inIrq := false }

theorem runHandler_of_ok {s t : State} {keep : Bool} (h : stepHandler { s with inIrq := true } = .ok keep t) :
    runHandler s = .ok () (handlerReturn keep t) := by
  rw [runHandler, op_modify_bind, op_bind_ok h]
  cases keep <;> rfl

theorem runHandler_of_error {s t : State} {e : Stop} (h : stepHandler { s with inIrq := true } = .error e t) :
    runHandler s = .error e t := by
  rw [runHandler, op_modify_bind, op_bind_error h]

/-- In turn TM.IRQ is the handler. -/
theorem exec_tmIrq_inTurn {s : State} (hc : s.latch.issuer = .core) (hstart : interruptMayStart s = true)
    (htime : (s.cnt - s.tm.time).toNat < 2 ^ 31) : exec .tmIrq s = perform runHandler s.quiet := by
  obtain ⟨-, -, -, hl⟩ := (interruptMayStart_iff s).mp hstart
  refine perform_congr ?_
  rw [coreOnly_of_core hl hc, timerIrq, op_get_bind, if_pos]
  exact Bool.and_eq_true_iff.mpr ⟨hstart, (timeGe_iff _ _).mpr htime⟩

/-- SP.STEP performed directly is the handler's body, its answer dropped. -/
theorem exec_spStep_next {s u : State} (hl : Live s) (hc : s.latch.issuer = .core) (h : exec .spStep s = .next u) :
    (∃ keep, stepHandler s.quiet = .ok keep u) ∨ stepHandler s.quiet = .error .violated u := by
  have hbody : coreOnly (stepHandler >>= fun _ => pure ()) s = (stepHandler >>= fun _ => pure ()) s.quiet :=
    coreOnly_of_core hl hc
  rw [op_bind] at hbody
  rcases perform_next h with hx | hx
  all_goals
    rw [hbody] at hx
    split at hx <;> cases hx
  · exact .inl ⟨_, by assumption⟩
  · exact .inr (by assumption)

/-- A recorded violation is an outcome of the meaning (60_exceptions.md R182). -/
theorem perform_violated {body : Op Unit} {s t : State} (h : body s = .error .violated t) : perform body s = .next t := by
  simp [perform, h]

/-- Settles O36: where SP.STEP ends its answer is RUNNING and the machine is not halted, so the return is the one of that
answer; where it raises the machine is halted and nothing returns. -/
theorem interruptRunsTheHandlerAndReturns : Obligations.InterruptRunsTheHandlerAndReturns := by
  intro s u hc hstart htime hstep
  obtain ⟨-, -, -, hl⟩ := (interruptMayStart_iff s).mp hstart
  have hends := ends_stepHandler (s := { s with inIrq := true }.quiet) rfl
  rw [exec_tmIrq_inTurn hc hstart htime]
  rcases exec_spStep_next (s := { s with inIrq := true }) hl hc hstep with ⟨keep, hok⟩ | hviolated
  · obtain ⟨hrun, hfault⟩ := Prod.ext_iff.mp (hends.of_ok hok)
    have hlive : u.fault.halted = false := (congrArg FaultReg.halted hfault).trans hl
    have hkeep : keep = u.sp.running := hrun.symm
    rw [perform_ok (runHandler_of_ok (s := s.quiet) hok), hkeep]
    refine ⟨fun hhalted => ?_, fun _ hgoing => ?_, fun _ hended => ?_⟩
    · simp [hlive] at hhalted
    · rw [hgoing]; rfl
    · rw [hended]; rfl
  · have hhalted := hends.halted_of_violated hviolated
    refine ⟨fun _ => perform_violated (runHandler_of_error (s := s.quiet) hviolated), fun hlive => ?_, fun hlive => ?_⟩
    all_goals simp [hhalted] at hlive

end Machine
end Sys2Proof

/-! ## O50, O49: the arithmetic of a segment, and EVAL

EVAL divides by the half sum `q` of SP_V0 and the root of the discriminant. For a Command that half sum is the larger root of
`q^2 = v0 q + |a| pos 2^(2P)`, rounded down (`evalDivisor_spec`): the bounds on the time fraction, its value 1 at the
boundary and the order of the offsets all follow from that one fact. -/

/-! ### The divisor of EVAL -/

namespace Sys2Proof
namespace Machine

theorem floorSqrt_lt {r v : Nat} (h : v < r * r) : floorSqrt v < r :=
  Nat.mul_self_lt_mul_self_iff.mp ((floorSqrt_spec v).1.trans_lt h)

/-- What EVAL divides by (42_scheduler.md R137). -/
def evalDivisor (v0 d : Nat) : Nat := (v0 + floorSqrt d) / 2

/-- The time fraction EVAL computes, with F fractional bits (42_scheduler.md R137). -/
def evalFraction (p : Params) (v0 pos d : Nat) : Nat := pos * 2 ^ (p.discPrec + p.fracBits) / evalDivisor v0 d

theorem evalOffset_zero (p : Params) (v0 t d : Nat) : evalOffset p v0 0 t d = 0 := if_pos rfl

theorem evalOffset_of_ne_zero (p : Params) (v0 t d : Nat) {pos : Nat} (h : pos ≠ 0) :
    evalOffset p v0 pos t d = t * evalFraction p v0 pos d / 2 ^ p.fracBits := if_neg h

/-- The divisor is the larger root of `q^2 = v0 q + c`, rounded down, where the discriminant is that of the equation. -/
theorem evalDivisor_spec (v0 c : Nat) :
    let q := evalDivisor v0 (v0 * v0 + 4 * c)
    q * q ≤ v0 * q + c ∧ v0 * (q + 1) + c < (q + 1) * (q + 1) := by
  intro q
  obtain ⟨hle, hlt⟩ := floorSqrt_spec (v0 * v0 + 4 * c)
  have hq : q = (v0 + floorSqrt (v0 * v0 + 4 * c)) / 2 := rfl
  generalize floorSqrt (v0 * v0 + 4 * c) = r at *
  constructor
  · have hbelow : 2 * q ≤ v0 + r := by omega
    by_cases h : 2 * q ≤ v0
    · nlinarith
    · obtain ⟨e, he⟩ := Nat.exists_eq_add_of_lt (not_le.mp h)
      nlinarith
  · obtain ⟨e, he⟩ : ∃ e, 2 * (q + 1) = v0 + (r + 1) + e := Nat.exists_eq_add_of_le (by omega)
    nlinarith

/-- Where the coefficients are those of position `pos` of `x` steps, the divisor is at least `pos`, scaled. -/
theorem mul_le_of_divisor_spec {y n pos m q : Nat} (hpos : pos ≤ y + n)
    (hq : y * m * (q + 1) + pos * (n * (m * m)) < (q + 1) * (q + 1)) : pos * m ≤ q := by
  by_contra hlt
  have h1 : (q + 1) * (q + 1) ≤ (q + 1) * (pos * m) := Nat.mul_le_mul_left _ (by omega)
  have h2 : (q + 1) * (pos * m) ≤ (q + 1) * ((y + n) * m) := Nat.mul_le_mul_left _ (Nat.mul_le_mul_right m hpos)
  have h3 : (q + 1) * (n * m) ≤ pos * m * (n * m) := Nat.mul_le_mul_right _ (by omega)
  nlinarith

/-- A later position's divisor grows by no more than the position does. -/
theorem mul_divisor_le {v0 c p q q' : Nat} (hp : p ≤ q) (hq : v0 * (q + 1) + p * c < (q + 1) * (q + 1))
    (hq' : q' * q' ≤ v0 * q' + (p + 1) * c) : p * q' ≤ (p + 1) * q := by
  by_contra hlt
  have hv0 : v0 ≤ q := by nlinarith
  obtain ⟨e, rfl⟩ : ∃ e, q' = q + 2 + e := by
    refine Nat.exists_eq_add_of_le ?_
    by_contra hsmall
    have : p * q' ≤ p * (q + 1) := Nat.mul_le_mul_left p (by omega)
    nlinarith
  have hgrow : q + 1 ≤ p * (e + 2) := by nlinarith
  have hscaled := Nat.mul_le_mul_left p hq'
  have hscaled' := Nat.mul_lt_mul_of_pos_left hq (Nat.succ_pos p)
  have h1 := Nat.mul_le_mul_left (q + 1) hgrow
  have h2 := Nat.mul_le_mul_left (p * e) hv0
  have h3 := Nat.mul_le_mul hv0 hp
  nlinarith

/-! ### The offsets of a Command's pulses -/

/-- SP_V0 of a Command with `x` steps and acceleration `a` (42_scheduler.md R135). -/
def seedVelocity (p : Params) (x : Nat) (a : Int) : Nat := (x - a.natAbs) * 2 ^ p.discPrec

/-- The discriminant at a position is that of the divisor's equation. -/
theorem discAt_eq (p : Params) (x : Nat) (a : Int) (pos : Nat) :
    discAt p x a pos = seedVelocity p x a * seedVelocity p x a +
      4 * (pos * (a.natAbs * (2 ^ p.discPrec * 2 ^ p.discPrec))) := by
  unfold discAt seedVelocity
  rw [two_mul p.discPrec, pow_add]
  ring

section Offsets

variable {p : Params} {x pos : Nat} {a : Int}

theorem pos_mul_le_evalDivisor (ha : a.natAbs ≤ x) (hpos : pos ≤ x) :
    pos * 2 ^ p.discPrec ≤ evalDivisor (seedVelocity p x a) (discAt p x a pos) := by
  rw [discAt_eq]
  exact mul_le_of_divisor_spec (hpos.trans_eq (Nat.sub_add_cancel ha).symm) (evalDivisor_spec _ _).2

theorem evalDivisor_pos (ha : a.natAbs ≤ x) (hpos : pos ≤ x) (h0 : pos ≠ 0) :
    0 < evalDivisor (seedVelocity p x a) (discAt p x a pos) :=
  (Nat.mul_pos (Nat.pos_of_ne_zero h0) (Nat.two_pow_pos _)).trans_le (pos_mul_le_evalDivisor ha hpos)

/-- At the boundary the root is exact. -/
theorem evalDivisor_boundary (ha : a.natAbs ≤ x) :
    evalDivisor (seedVelocity p x a) (discAt p x a x) = x * 2 ^ p.discPrec := by
  have hroot : discAt p x a x = (x + a.natAbs) * 2 ^ p.discPrec * ((x + a.natAbs) * 2 ^ p.discPrec) := by
    obtain ⟨y, rfl⟩ := Nat.exists_eq_add_of_le' ha
    rw [discAt_eq, seedVelocity, Nat.add_sub_cancel]
    ring
  rw [evalDivisor, hroot, floorSqrt_square, seedVelocity, ← Nat.add_mul,
    show x - a.natAbs + (x + a.natAbs) = 2 * x by omega, Nat.mul_assoc, Nat.mul_div_cancel_left _ Nat.two_pos]

/-- The fraction of the duration is at most 1, in F fractional bits. -/
theorem evalFraction_le (ha : a.natAbs ≤ x) (hpos : pos ≤ x) :
    evalFraction p (seedVelocity p x a) pos (discAt p x a pos) ≤ 2 ^ p.fracBits := by
  refine Nat.div_le_of_le_mul ?_
  rw [pow_add, ← Nat.mul_assoc]
  exact Nat.mul_le_mul_right _ (pos_mul_le_evalDivisor ha hpos)

theorem evalFraction_boundary (ha : a.natAbs ≤ x) (h0 : x ≠ 0) :
    evalFraction p (seedVelocity p x a) x (discAt p x a x) = 2 ^ p.fracBits := by
  rw [evalFraction, evalDivisor_boundary ha, pow_add, ← Nat.mul_assoc]
  exact Nat.mul_div_cancel_left _ (Nat.mul_pos (Nat.pos_of_ne_zero h0) (Nat.two_pow_pos _))

/-- The pulse at the boundary has the whole duration as its offset (42_scheduler.md R142). -/
theorem evalOffset_boundary (t : Nat) (ha : a.natAbs ≤ x) (h0 : x ≠ 0) :
    evalOffset p (seedVelocity p x a) x t (discAt p x a x) = t := by
  rw [evalOffset_of_ne_zero _ _ _ _ h0, evalFraction_boundary ha h0, Nat.mul_div_cancel _ (Nat.two_pow_pos _)]

theorem evalFraction_mono (ha : a.natAbs ≤ x) (hpos : pos < x) (h0 : pos ≠ 0) :
    evalFraction p (seedVelocity p x a) pos (discAt p x a pos) ≤
      evalFraction p (seedVelocity p x a) (pos + 1) (discAt p x a (pos + 1)) := by
  have hgrow : pos * evalDivisor (seedVelocity p x a) (discAt p x a (pos + 1)) ≤
      (pos + 1) * evalDivisor (seedVelocity p x a) (discAt p x a pos) := by
    have hle : pos ≤ evalDivisor (seedVelocity p x a) (discAt p x a pos) :=
      (Nat.le_mul_of_pos_right pos (Nat.two_pow_pos _)).trans (pos_mul_le_evalDivisor ha hpos.le)
    obtain ⟨-, hlt⟩ := evalDivisor_spec (seedVelocity p x a) (pos * (a.natAbs * (2 ^ p.discPrec * 2 ^ p.discPrec)))
    obtain ⟨hroot, -⟩ := evalDivisor_spec (seedVelocity p x a)
      ((pos + 1) * (a.natAbs * (2 ^ p.discPrec * 2 ^ p.discPrec)))
    rw [← discAt_eq] at hlt hroot
    exact mul_divisor_le hle hlt hroot
  unfold evalFraction
  have hpos0 := evalDivisor_pos (p := p) ha hpos.le h0
  rw [Nat.le_div_iff_mul_le (evalDivisor_pos ha hpos pos.succ_ne_zero)]
  generalize evalDivisor _ (discAt p x a (pos + 1)) = q' at *
  generalize evalDivisor _ (discAt p x a pos) = q at *
  have hquot := Nat.div_mul_le_self (pos * 2 ^ (p.discPrec + p.fracBits)) q
  generalize pos * 2 ^ (p.discPrec + p.fracBits) / q = k at *
  refine Nat.le_of_mul_le_mul_left ?_ (Nat.pos_of_ne_zero h0)
  calc pos * (k * q') = k * (pos * q') := by ring
    _ ≤ k * ((pos + 1) * q) := Nat.mul_le_mul_left k hgrow
    _ = (pos + 1) * (k * q) := by ring
    _ ≤ (pos + 1) * (pos * 2 ^ (p.discPrec + p.fracBits)) := Nat.mul_le_mul_left _ hquot
    _ = pos * ((pos + 1) * 2 ^ (p.discPrec + p.fracBits)) := by ring

theorem evalOffset_mono (t : Nat) (ha : a.natAbs ≤ x) (hpos : pos < x) :
    evalOffset p (seedVelocity p x a) pos t (discAt p x a pos) ≤
      evalOffset p (seedVelocity p x a) (pos + 1) t (discAt p x a (pos + 1)) := by
  rcases Nat.eq_zero_or_pos pos with rfl | h0
  · rw [evalOffset_zero]
    exact Nat.zero_le _
  · rw [evalOffset_of_ne_zero _ _ _ _ h0.ne', evalOffset_of_ne_zero _ _ _ _ pos.succ_ne_zero]
    exact Nat.div_le_div_right (Nat.mul_le_mul_left t (evalFraction_mono ha hpos h0.ne'))

end Offsets

/-- Settles O50: from one position to the next the divisor grows by no more than the position, and at the boundary the root
is exact. -/
theorem pulseOffsetsNeverDecrease : Obligations.PulseOffsetsNeverDecrease :=
  fun _ _ t _ _ hx ha hp => ⟨evalOffset_mono t ha hp, evalOffset_boundary t ha (Nat.one_le_iff_ne_zero.mp hx)⟩

end Machine
end Sys2Proof

/-! ### EVAL on a filled record -/

namespace Sys2Proof
namespace Machine

/-- The state with a field of a record written. -/
def State.wrote (s : State) (q : Nat) (f : Field) (v : Int) : State := { s with mem := memSet s.mem q f v }

theorem fieldWidth_disc (p : Params) : fieldWidth p .disc = 2 * p.stepBits + 2 + 2 * p.discPrec := rfl

/-- A discriminant that is not negative is of its field's type where its magnitude is. -/
theorem fieldFits_disc {p : Params} {d : Int} (h0 : 0 ≤ d) (hmax : d ≤ maxMagnitude (fieldWidth p .disc)) :
    fieldFits p .disc d = true := by
  have hpos : (0 : Int) < 2 ^ fieldWidth p .disc := by positivity
  unfold maxMagnitude at hmax
  exact (fits_signed d _).mpr ⟨by omega, hmax⟩

section Eval

variable {s : State} {q : Nat} {disc amul tmul : Int}

/-- EVAL on a filled record, in the order of its checks (42_scheduler.md R137, log entry 29). -/
theorem evalSegment_of_filled (hdisc : memGet s.mem q .disc = some disc) (hamul : memGet s.mem q .amul = some amul)
    (htmul : memGet s.mem q .tmul = some tmul) :
    evalSegment q s =
      if evalWidth s.params ≤ s.params.maxW then
        if 0 ≤ disc + amul then
          if disc + amul ≤ maxMagnitude (fieldWidth s.params .disc) then
            if s.sp.pos = 0 then .ok 0 (s.wrote q .disc (disc + amul))
            else if evalDivisor s.sp.v0 (disc + amul).toNat ≠ 0 then
              if evalFraction s.params s.sp.v0 s.sp.pos (disc + amul).toNat ≤ 2 ^ (s.params.fracBits + 1) - 1 then
                .ok (evalOffset s.params s.sp.v0 s.sp.pos tmul.toNat (disc + amul).toNat) (s.wrote q .disc (disc + amul))
              else (raise .fxRange : Op Nat) (s.wrote q .disc (disc + amul))
            else (raise .fxDivZero : Op Nat) (s.wrote q .disc (disc + amul))
          else (raise .fxRange : Op Nat) s
        else (raise .spDiscNegative : Op Nat) s
      else (raise .fxWidth : Op Nat) s := by
  have htmul' : memGet (s.wrote q .disc (disc + amul)).mem q .tmul = some tmul :=
    (memGet_memSet_other _ (by simp)).trans htmul
  unfold evalSegment
  rw [memRead_bind_filled _ hdisc, memRead_bind_filled _ hamul, op_get_bind, op_check_bind, op_check_bind, op_check_bind]
  refine ite_congr rfl (fun _ => ite_congr rfl (fun h0 => ite_congr rfl (fun hmax => ?_) fun _ => rfl) fun _ => rfl)
    fun _ => rfl
  rw [memWrite_bind, if_pos (fieldFits_disc h0 hmax), op_ite]
  refine ite_congr rfl (fun _ => rfl) fun hpos => ?_
  rw [op_check_bind, op_check_bind]
  refine ite_congr rfl (fun _ => ite_congr rfl (fun _ => ?_) fun _ => rfl) fun _ => rfl
  rw [evalOffset_of_ne_zero _ _ _ _ hpos]
  exact memRead_bind_filled _ htmul'

end Eval

/-! ### The chain of FX operations -/

section Chain

variable {p : Params}

theorem fieldWidth_disc_le_evalWidth (p : Params) : fieldWidth p .disc ≤ evalWidth p :=
  (le_max_left _ _).trans (Nat.le_succ _)

/-- A sum that is not negative is narrowed where it is at most the type's maximum. -/
theorem fxNarrow_sum {d : Int} (h0 : 0 ≤ d) :
    fxNarrowValue ⟨true, evalWidth p, d⟩ (fieldWidth p .disc) =
      if d ≤ maxMagnitude (fieldWidth p .disc) then .ok ⟨true, fieldWidth p .disc, d⟩ else .error .fxRange := by
  have hwidth : 1 ≤ fieldWidth p .disc := by rw [fieldWidth_disc]; omega
  refine (if_pos ⟨hwidth, fieldWidth_disc_le_evalWidth p⟩).trans (if_congr ⟨fun h => ?_, fieldFits_disc h0⟩ rfl rfl)
  exact ((fits_signed d _).mp h).2

/-- The root of a discriminant of its type has half of its bits (40_fxu.md R93). -/
theorem fxSqrt_disc {d : Int} (hp : p.Valid) (h0 : 0 ≤ d) (hmax : d ≤ maxMagnitude (fieldWidth p .disc)) :
    fxSqrtValue p.maxW ⟨false, fieldWidth p .disc, d⟩ (p.stepBits + 1 + p.discPrec) =
      .ok ⟨false, p.stepBits + 1 + p.discPrec, floorSqrt d.toNat⟩ := by
  have hroom := hp.discriminant
  refine (if_pos ⟨by omega, by omega⟩).trans (if_pos ((fits_natCast_iff _ _).mpr (Nat.le_sub_one_of_lt ?_)))
  refine floorSqrt_lt ?_
  rw [← pow_add, show p.stepBits + 1 + p.discPrec + (p.stepBits + 1 + p.discPrec) = fieldWidth p .disc by
    rw [fieldWidth_disc]; omega]
  have hcast : ((2 ^ fieldWidth p .disc : Nat) : Int) = 2 ^ fieldWidth p .disc := by norm_cast
  unfold maxMagnitude at hmax
  show d.toNat < 2 ^ fieldWidth p .disc
  omega

theorem fxAdd_root {v0 r : Nat} (hp : p.Valid) :
    fxAddValue p.maxW ⟨false, p.stepBits + p.discPrec, v0⟩ ⟨false, p.stepBits + 1 + p.discPrec, r⟩ =
      .ok ⟨false, p.stepBits + 1 + p.discPrec + 1, (v0 + r : Nat)⟩ := by
  have hwidth : max (p.stepBits + p.discPrec) (p.stepBits + 1 + p.discPrec) = p.stepBits + 1 + p.discPrec :=
    max_eq_right (by omega)
  have hroom := hp.discriminant
  have hsteps := hp.stepBits
  unfold fxAddValue
  simp only [hwidth]
  rw [if_pos (by omega)]
  rfl

/-- The shift of a number that is not negative is a division (40_fxu.md R88). -/
theorem shrTz_natCast (v n : Nat) : shrTz v n = (v / 2 ^ n : Nat) := by
  rw [shrTz_eq, if_pos (Int.natCast_nonneg v)]
  norm_cast

theorem fxShr_natCast {w v n : Nat} (h : n + 1 ≤ w) :
    fxShrValue ⟨false, w, v⟩ n = .ok ⟨false, w - n, (v / 2 ^ n : Nat)⟩ := by
  rw [← shrTz_natCast]
  exact if_pos h

theorem fxShl_pos {pos : Nat} (hp : p.Valid) :
    fxShlValue p.maxW ⟨false, p.stepBits, pos⟩ (p.discPrec + p.fracBits) =
      .ok ⟨false, p.stepBits + (p.discPrec + p.fracBits), (pos * 2 ^ (p.discPrec + p.fracBits) : Nat)⟩ := by
  have hroom : p.stepBits + (p.discPrec + p.fracBits) ≤ p.maxW := by
    have := hp.dividend
    omega
  refine (if_pos hroom).trans ?_
  norm_cast

/-- A division of numbers that are not negative, with its two violations (40_fxu.md R92). -/
theorem fxDiv_natCast {maxW wa wb v q tw : Nat} (h1 : 1 ≤ tw) (hmax : tw ≤ maxW) :
    fxDivValue maxW ⟨false, wa, v⟩ ⟨false, wb, q⟩ tw =
      if q ≠ 0 then if v / q ≤ 2 ^ tw - 1 then .ok ⟨false, tw, (v / q : Nat)⟩ else .error .fxRange
      else .error .fxDivZero := by
  have hquot : truncDiv v q = (v / q : Nat) := by
    unfold truncDiv
    norm_cast
  refine (if_pos ⟨h1, hmax⟩).trans (if_congr (not_congr Int.natCast_eq_zero) ?_ rfl)
  simp only [hquot]
  exact if_congr (fits_natCast_iff _ _) rfl rfl

theorem fxMul_frac {tmul frac : Nat} (hp : p.Valid) :
    fxMulValue p.maxW ⟨false, p.tmulBits, tmul⟩ ⟨false, p.fracBits + 1, frac⟩ =
      .ok ⟨false, p.tmulBits + (p.fracBits + 1), (tmul * frac : Nat)⟩ := by
  have hroom : p.tmulBits + (p.fracBits + 1) ≤ p.maxW := hp.product
  refine (if_pos hroom).trans ?_
  norm_cast

theorem except_ok_bind {ε α β : Type} (a : α) (f : α → Except ε β) : (Except.ok a >>= f) = f a := rfl

/-- The chain, past the check that the discriminant is not negative: its one width that parameters can exceed, its two ranges
and its divisor. -/
theorem fxEvalChain_eq {disc amul : Int} (hp : p.Valid) (h0 : 0 ≤ disc + amul) (v0 pos tmul : Nat) :
    fxEvalChain p disc amul v0 pos tmul =
      if evalWidth p ≤ p.maxW then
        if disc + amul ≤ maxMagnitude (fieldWidth p .disc) then
          if evalDivisor v0 (disc + amul).toNat ≠ 0 then
            if evalFraction p v0 pos (disc + amul).toNat ≤ 2 ^ (p.fracBits + 1) - 1 then
              .ok ⟨false, p.tmulBits + 1, (tmul * evalFraction p v0 pos (disc + amul).toNat / 2 ^ p.fracBits : Nat)⟩
            else .error .fxRange
          else .error .fxDivZero
        else .error .fxRange
      else .error .fxWidth := by
  have hsum : fxAddValue p.maxW ⟨true, fieldWidth p .disc, disc⟩ ⟨true, fieldWidth p .amul, amul⟩ =
      if evalWidth p ≤ p.maxW then .ok ⟨true, evalWidth p, disc + amul⟩ else .error .fxWidth := rfl
  have hshift : evalDivisor v0 (disc + amul).toNat = (v0 + floorSqrt (disc + amul).toNat) / 2 ^ 1 := rfl
  have hfrac : 1 ≤ p.fracBits + 1 ∧ p.fracBits + 1 ≤ p.maxW := by
    have := hp.dividend
    have := hp.stepBits
    omega
  unfold fxEvalChain
  rw [hsum]
  by_cases hw : evalWidth p ≤ p.maxW
  case neg => rw [if_neg hw, if_neg hw]; rfl
  rw [if_pos hw, if_pos hw]
  simp only [except_ok_bind]
  rw [fxNarrow_sum h0]
  by_cases hmax : disc + amul ≤ maxMagnitude (fieldWidth p .disc)
  case neg => rw [if_neg hmax, if_neg hmax]; rfl
  rw [if_pos hmax, if_pos hmax]
  have htou : fxTouValue ⟨true, fieldWidth p .disc, disc + amul⟩ =
      .ok ⟨false, fieldWidth p .disc, disc + amul⟩ := if_pos h0
  simp only [except_ok_bind, htou, fxSqrt_disc hp h0 hmax, fxAdd_root hp, fxShl_pos hp,
    fxShr_natCast (show 1 + 1 ≤ p.stepBits + 1 + p.discPrec + 1 by omega), ← hshift, fxDiv_natCast hfrac.1 hfrac.2]
  by_cases hq : evalDivisor v0 (disc + amul).toNat ≠ 0
  case neg => rw [if_neg hq, if_neg hq]; rfl
  rw [if_pos hq, if_pos hq]
  unfold evalFraction
  by_cases htf : pos * 2 ^ (p.discPrec + p.fracBits) / evalDivisor v0 (disc + amul).toNat ≤ 2 ^ (p.fracBits + 1) - 1
  case neg => rw [if_neg htf, if_neg htf]; rfl
  rw [if_pos htf, if_pos htf]
  simp only [except_ok_bind, fxMul_frac hp, fxShr_natCast (show p.fracBits + 1 ≤ p.tmulBits + (p.fracBits + 1) by omega)]
  rw [show p.tmulBits + (p.fracBits + 1) - p.fracBits = p.tmulBits + 1 by omega]

end Chain

/-- Settles O49: on a filled record EVAL and the chain have the same checks in the same order, and TMUL is not negative. -/
theorem evalIsTheFxChain : Obligations.EvalIsTheFxChain := by
  intro s q disc amul tmul hp _ hm hdisc hamul htmul
  obtain ⟨t, rfl⟩ := Int.eq_ofNat_of_zero_le ((fits_unsigned tmul _).mp (memGet_fits hm htmul)).1
  rw [evalSegment_of_filled hdisc hamul htmul]
  refine ⟨fun hw => if_neg (not_le.mpr hw), fun hw hneg => ?_, fun hw h0 hpos => ?_, fun h0 hpos => ?_⟩
  · rw [if_pos hw, if_neg (not_le.mpr hneg)]
  · rw [if_pos hw, if_pos h0, if_pos hpos]
    rfl
  · rw [fxEvalChain_eq hp h0, if_pos h0, if_neg hpos, evalOffset_of_ne_zero _ _ _ _ hpos]
    by_cases hw : evalWidth s.params ≤ s.params.maxW
    case neg => simpa only [if_neg hw] using ⟨s, rfl, .inl rfl⟩
    by_cases hmax : disc + amul ≤ maxMagnitude (fieldWidth s.params .disc)
    case neg => simpa only [if_pos hw, if_neg hmax] using ⟨s, rfl, .inl rfl⟩
    by_cases hq : evalDivisor s.sp.v0 (disc + amul).toNat ≠ 0
    case neg => simpa only [if_pos hw, if_pos hmax, if_neg hq] using ⟨_, rfl, .inr rfl⟩
    by_cases htf : evalFraction s.params s.sp.v0 s.sp.pos (disc + amul).toNat ≤ 2 ^ (s.params.fracBits + 1) - 1
    case neg => simpa only [if_pos hw, if_pos hmax, if_pos hq, if_neg htf] using ⟨_, rfl, .inr rfl⟩
    simpa only [if_pos hw, if_pos hmax, if_pos hq, if_pos htf, true_and] using ⟨rfl, Int.natCast_nonneg _⟩

end Machine
end Sys2Proof

/-! ## O47, O48: SP.STEP in a segment under way

A pulse before the boundary moves SP_POS by one, adds AMUL to DISC and asks EVAL for the offset. Whichever way SP_POS counts,
the discriminant after `k` evaluations is the closed form's at the position of the `k`-th event (`discOf_add_eq_discAt`),
so one lemma about EVAL (`evalSegment_of_recordAfter`) serves both phases, and LOAD too. -/

/-! ### The record of a Command under way -/

namespace Sys2Proof
namespace Machine

/-- SP_POS at the `k`-th event of a segment of `x` steps (10_state.md R16). -/
def segmentPos (x : Nat) (a : Int) (k : Nat) : Nat := if 0 ≤ a then k else x - k

/-- The time of the event with the offset `delta` from the boundary SP_TIME counts from (42_scheduler.md R140). -/
def eventTime (a : Int) (boundary : Time) (delta : Nat) : Time :=
  if 0 ≤ a then boundary + BitVec.ofNat 32 delta else boundary - BitVec.ofNat 32 delta

theorem segmentPos_le {x k : Nat} (a : Int) (hk : k ≤ x) : segmentPos x a k ≤ x := by
  unfold segmentPos
  split <;> omega

/-- After `k` evaluations DISC is the closed form's discriminant at the position of the `k`-th event (42_scheduler.md
R135). -/
theorem discOf_add_eq_discAt {p : Params} {x k : Nat} {a : Int} (ha : a.natAbs ≤ x) (hk : k ≤ x) :
    discOf p x a + k * amulOf p a = (discAt p x a (segmentPos x a k) : Nat) := by
  obtain ⟨y, rfl⟩ := Nat.exists_eq_add_of_le' ha
  obtain ⟨j, hj⟩ := Nat.exists_eq_add_of_le' hk
  have hj' : (y : Int) + a.natAbs = j + k := by exact_mod_cast hj
  unfold discOf amulOf discAt segmentPos
  rw [Nat.add_sub_cancel, pow_add, two_mul p.discPrec, pow_add]
  split
  case isTrue h =>
    have hmag : |a| = a := abs_of_nonneg h
    push_cast
    rw [hmag]
    ring
  case isFalse h =>
    have hmag : |a| = -a := abs_of_neg (not_le.mp h)
    rw [show y + a.natAbs - k = j by omega]
    push_cast at hj' ⊢
    rw [hmag] at *
    linear_combination (-4 * a * (2 ^ p.discPrec * 2 ^ p.discPrec)) * hj'

theorem discAt_lt {p : Params} {x pos : Nat} {a : Int} (ha : a.natAbs ≤ x) (hx : x < 2 ^ p.stepBits) (hpos : pos ≤ x) :
    discAt p x a pos < 2 ^ fieldWidth p .disc := by
  have hsum : (x - a.natAbs) * (x - a.natAbs) + 4 * a.natAbs * pos < 2 ^ (2 * p.stepBits + 2) := by
    calc (x - a.natAbs) * (x - a.natAbs) + 4 * a.natAbs * pos
      _ ≤ (x - a.natAbs) * (x - a.natAbs) + 4 * a.natAbs * x := Nat.add_le_add_left (Nat.mul_le_mul_left _ hpos) _
      _ = (x + a.natAbs) * (x + a.natAbs) := by
        obtain ⟨y, rfl⟩ := Nat.exists_eq_add_of_le' ha
        rw [Nat.add_sub_cancel]
        ring
      _ < (2 * 2 ^ p.stepBits) * (2 * 2 ^ p.stepBits) := Nat.mul_self_lt_mul_self (by omega)
      _ = 2 ^ (2 * p.stepBits + 2) := by ring
  rw [fieldWidth_disc, pow_add]
  exact Nat.mul_lt_mul_of_pos_right hsum (Nat.two_pow_pos _)

section Record

variable {p : Params} {m : Memory} {q x t k : Nat} {a : Int} {dir : Bool}

/-- A field of a filled record is read as the record has it. -/
theorem memGet_of_memRecord {r : CommandRecord} (f : Field) (h : memRecord m q = some r) :
    memGet m q f = some (recordGet r f) := by
  rw [memGet, h]
  rfl

theorem RecordAfter.natAbs_le (h : RecordAfter p m q x t a dir k) : a.natAbs ≤ x := by
  have hlower := h.lower
  have hupper := h.upper
  omega

theorem RecordAfter.dirx (h : RecordAfter p m q x t a dir k) :
    memGet m q .dirx = some (packDirx p x dir (decide (0 ≤ a))) := memGet_of_memRecord .dirx h.record

theorem RecordAfter.tmul (h : RecordAfter p m q x t a dir k) : memGet m q .tmul = some (t : Int) :=
  memGet_of_memRecord .tmul h.record

theorem RecordAfter.amul (h : RecordAfter p m q x t a dir k) : memGet m q .amul = some (amulOf p a) :=
  memGet_of_memRecord .amul h.record

theorem RecordAfter.disc (h : RecordAfter p m q x t a dir k) :
    memGet m q .disc = some (discOf p x a + k * amulOf p a) := memGet_of_memRecord .disc h.record

/-- The next discriminant, written to DISC, is one more evaluation. -/
theorem RecordAfter.next (h : RecordAfter p m q x t a dir k) :
    RecordAfter p (memSet m q .disc (discOf p x a + ((k + 1 : Nat) : Int) * amulOf p a)) q x t a dir (k + 1) :=
  ⟨h.steps, h.duration, h.lower, h.upper, by rw [memRecord_memSet, h.record]; simp [recordSet]⟩

end Record

/-! ### EVAL in a segment -/

section Eval

variable {s : State} {q x t k : Nat} {a : Int} {dir : Bool}

/-- EVAL of a Command: no check can fail but the one on the FXU's width, and the offset is the closed form's. -/
theorem evalSegment_of_recordAfter (h : RecordAfter s.params s.mem q x t a dir k) (hk : k < x)
    (hpos : s.sp.pos = segmentPos x a (k + 1)) (hv0 : s.sp.v0 = seedVelocity s.params x a)
    (hw : evalWidth s.params ≤ s.params.maxW) :
    evalSegment q s = .ok (evalOffset s.params s.sp.v0 s.sp.pos t (discAt s.params x a s.sp.pos))
      (s.wrote q .disc (discOf s.params x a + ((k + 1 : Nat) : Int) * amulOf s.params a)) := by
  have hle : s.sp.pos ≤ x := hpos ▸ segmentPos_le a hk
  have hnext : discOf s.params x a + k * amulOf s.params a + amulOf s.params a =
      discOf s.params x a + ((k + 1 : Nat) : Int) * amulOf s.params a := by push_cast; ring
  have hdisc : discOf s.params x a + ((k + 1 : Nat) : Int) * amulOf s.params a = (discAt s.params x a s.sp.pos : Nat) := by
    rw [hpos]
    exact discOf_add_eq_discAt h.natAbs_le hk
  have hmax : discOf s.params x a + ((k + 1 : Nat) : Int) * amulOf s.params a ≤
      maxMagnitude (fieldWidth s.params .disc) := by
    have hlt : ((discAt s.params x a s.sp.pos : Nat) : Int) < 2 ^ fieldWidth s.params .disc := by
      exact_mod_cast discAt_lt h.natAbs_le h.steps hle
    rw [hdisc, maxMagnitude]
    omega
  rw [evalSegment_of_filled h.disc h.amul h.tmul, if_pos hw, hnext, if_pos (by rw [hdisc]; exact Int.natCast_nonneg _),
    if_pos hmax]
  by_cases h0 : s.sp.pos = 0
  case pos => rw [if_pos h0, h0, evalOffset_zero]
  have hnat : (discOf s.params x a + ((k + 1 : Nat) : Int) * amulOf s.params a).toNat = discAt s.params x a s.sp.pos := by
    rw [hdisc, Int.toNat_natCast]
  have hfrac : evalFraction s.params s.sp.v0 s.sp.pos (discAt s.params x a s.sp.pos) ≤
      2 ^ (s.params.fracBits + 1) - 1 := by
    have hone : 1 ≤ 2 ^ s.params.fracBits := Nat.one_le_two_pow
    rw [hv0, pow_succ]
    exact (evalFraction_le h.natAbs_le hle).trans (by omega)
  rw [if_neg h0, hnat, if_pos, if_pos hfrac, Int.toNat_natCast]
  rw [hv0]
  exact (evalDivisor_pos h.natAbs_le hle h0).ne'

/-- Where MAX_W is too small for its first sum EVAL of a Command raises FX_WIDTH (log entry 29). -/
theorem evalSegment_narrow (h : RecordAfter s.params s.mem q x t a dir k) (hw : s.params.maxW < evalWidth s.params) :
    evalSegment q s = (raise .fxWidth : Op Nat) s := by
  rw [evalSegment_of_filled h.disc h.amul h.tmul, if_neg (not_le.mpr hw)]

end Eval

/-- The last event of a segment is at its end, whichever boundary SP_TIME counts from (42_scheduler.md R142). -/
theorem eventTime_last {p : Params} {x : Nat} {a : Int} (t : Nat) (b : Time) (ha : a.natAbs ≤ x) (hx : x ≠ 0) :
    eventTime a (if 0 ≤ a then b else b + BitVec.ofNat 32 t)
      (evalOffset p (seedVelocity p x a) (segmentPos x a x) t (discAt p x a (segmentPos x a x))) =
    b + BitVec.ofNat 32 t := by
  unfold eventTime segmentPos
  split
  · rw [evalOffset_boundary t ha hx]
  · rw [Nat.sub_self, evalOffset_zero, BitVec.sub_zero]

/-! ### What a pulse interrupt performs -/

/-- The state after one pulse (42_scheduler.md R141). -/
def State.pulsed (s : State) : State :=
  { s with pins := { s.pins with step := false }, trace := s.trace ++ [.pulseOn, .pulseOff] }

/-- The state with SP_POS written. -/
def State.movedTo (s : State) (pos : Nat) : State := { s with sp := { s.sp with pos := pos } }

/-- The state in which a segment has ended at `time` (42_scheduler.md R140). -/
def State.segmentEnded (s : State) (time : Time) : State :=
  { s with sp := { s.sp with notEnded := false, time := time } }

section Handler

variable {s : State}

/-- FX_WIDTH is recorded in every build (60_exceptions.md R183). -/
theorem violationOutcome_fxWidth (s : State) : violationOutcome .fxWidth s = .next (recordViolation .fxWidth s) := by
  simp [violationOutcome, alwaysDetected]

/-- A sequence whose first part raises, from whatever state it raises in. -/
theorem op_bind_of_raise {α β : Type} {x : Op α} {f : α → Op β} {v : Violation} {t : State}
    (h : x s = (raise v : Op α) t) : (x >>= f) s = (raise v : Op β) t := by
  rw [op_bind, h, ← op_raise_bind v f t, op_bind]

theorem exec_spStep_of_ok {keep : Bool} {u : State} (hl : Live s) (hc : s.latch.issuer = .core)
    (h : stepHandler s.quiet = .ok keep u) : exec .spStep s = .next u := by
  refine perform_ok ?_
  rw [coreOnly_of_core hl hc]
  exact op_bind_ok h

theorem exec_spStep_of_raise {v : Violation} {t : State} (hl : Live s) (hc : s.latch.issuer = .core)
    (h : stepHandler s.quiet = (raise v : Op Bool) t) : exec .spStep s = violationOutcome v t := by
  refine perform_raise v ?_
  rw [coreOnly_of_core hl hc]
  exact op_bind_of_raise h

theorem stepHandler_of_notEnded (hrun : s.sp.running = true) (h : s.sp.notEnded = true) :
    stepHandler s = pulseInterrupt s.sp.cmdPtr s := by
  rw [stepHandler, op_get_bind, op_check_bind, if_pos hrun, if_pos h]

theorem stepHandler_of_ended (hrun : s.sp.running = true) (h : s.sp.notEnded = false) :
    stepHandler s = fetchInterrupt s.sp.cmdPtr s := by
  rw [stepHandler, op_get_bind, op_check_bind, if_pos hrun, if_neg (by simp [h])]

theorem pulseInterrupt_unguarded (q : Nat) (h : s.sp.prestepEn = false) : pulseInterrupt q s = emitStep q s := by
  rw [pulseInterrupt, op_get_bind, if_neg (by simp [h])]

/-- What follows the pulse turns on the phase (42_scheduler.md R140). -/
theorem emitStep_of_filled {q : Nat} {dirx : Int} (h : memGet s.mem q .dirx = some dirx) :
    emitStep q s = ((if s.sp.notDecel then advanceUp q (dirxSteps s.params dirx) else advanceDown q) >>=
      fun _ => pure true) s.pulsed := by
  refine (pulse_bind _ s).trans ((memRead_bind_filled (s := s.pulsed) _ h).trans ?_)
  rw [op_get_bind, op_ite_bind]
  exact op_ite _ _ _ _

theorem writePos_bind {β : Type} (pos : Nat) (f : Unit → Op β) (s : State) :
    (writePos pos >>= f) s = if pos < 2 ^ s.params.stepBits then f () (s.movedTo pos) else (raise .fxRange : Op β) s := by
  unfold writePos
  rw [op_bind_assoc, op_get_bind, op_bind_assoc, op_check_bind]
  rfl

end Handler

/-! ### The phases -/

section Phases

variable {s : State} {q x : Nat}

theorem advanceUp_of_ne (hx : s.sp.pos ≠ x) (hlt : s.sp.pos + 1 < 2 ^ s.params.stepBits) :
    advanceUp q x s = (evalSegment q >>= fun delta => get >>= fun u => timerSetNext (u.sp.time + BitVec.ofNat 32 delta))
      (s.movedTo (s.sp.pos + 1)) := by
  rw [advanceUp, op_get_bind, op_ite, if_neg hx, writePos_bind, if_pos hlt]

theorem advanceUp_of_eq {t : Nat} (hx : s.sp.pos = x) (htmul : memGet s.mem q .tmul = some (t : Int)) :
    advanceUp q x s =
      timerSetNext (s.sp.time + BitVec.ofNat 32 t) (s.segmentEnded (s.sp.time + BitVec.ofNat 32 t)) := by
  rw [advanceUp, op_get_bind, op_ite, if_pos hx, op_modify_bind]
  exact memRead_bind_filled (s := s.segmentEnded s.sp.time) _ htmul

theorem advanceDown_of_ne_zero (h0 : s.sp.pos ≠ 0) (hlt : s.sp.pos - 1 < 2 ^ s.params.stepBits) :
    advanceDown q s = (evalSegment q >>= fun delta => get >>= fun u => timerSetNext (u.sp.time - BitVec.ofNat 32 delta))
      (s.movedTo (s.sp.pos - 1)) := by
  rw [advanceDown, op_get_bind, op_ite, if_neg h0, writePos_bind, if_pos hlt]

theorem advanceDown_of_eq_zero (h0 : s.sp.pos = 0) :
    advanceDown q s = timerSetNext s.sp.time (s.segmentEnded s.sp.time) := by
  rw [advanceDown, op_get_bind, op_ite, if_pos h0]
  rfl

end Phases

section Segment

variable {s : State} {x t k : Nat} {a : Int} {dir : Bool} {b : Time}

/-- In either phase a pulse before the boundary moves SP_POS to the next event's position and asks EVAL for its offset. -/
theorem advance_of_segment (h : SegmentAt s x t a dir b k) (hk : k < x) (q : Nat) :
    (if s.sp.notDecel then advanceUp q x else advanceDown q) s =
      (evalSegment q >>= fun delta => get >>= fun u => timerSetNext (eventTime a u.sp.time delta))
        (s.movedTo (segmentPos x a (k + 1))) := by
  have hfirst := h.first
  have hx := h.record.steps
  have hphase := h.phase
  have hposition := h.position
  unfold segmentPos eventTime
  by_cases ha : 0 ≤ a
  · rw [if_pos ha] at hposition
    rw [hphase, decide_eq_true ha, if_pos rfl, if_pos ha, ← hposition, advanceUp_of_ne (by omega) (by omega)]
    simp only [if_pos ha]
  · rw [if_neg ha] at hposition
    rw [hphase, decide_eq_false ha, if_neg Bool.false_ne_true, if_neg ha, Nat.sub_add_eq, ← hposition,
      advanceDown_of_ne_zero (by omega) (by omega)]
    simp only [if_neg ha]

/-- In either phase the pulse at the boundary ends the segment, without EVAL. -/
theorem advance_of_boundary (h : SegmentAt s x t a dir b x) :
    (if s.sp.notDecel then advanceUp s.sp.cmdPtr x else advanceDown s.sp.cmdPtr) s =
      timerSetNext (b + BitVec.ofNat 32 t) (s.segmentEnded (b + BitVec.ofNat 32 t)) := by
  have hphase := h.phase
  have hposition := h.position
  have hboundary := h.boundary
  by_cases ha : 0 ≤ a
  · rw [if_pos ha] at hposition hboundary
    rw [hphase, decide_eq_true ha, if_pos rfl, advanceUp_of_eq hposition h.record.tmul, hboundary]
  · rw [if_neg ha] at hposition hboundary
    rw [hphase, decide_eq_false ha, if_neg Bool.false_ne_true, advanceDown_of_eq_zero (by omega), hboundary]

/-- The pulse and what follows it, for a Command under way. -/
theorem emitStep_of_segment (h : SegmentAt s x t a dir b k) :
    emitStep s.sp.cmdPtr s = ((if s.pulsed.sp.notDecel then advanceUp s.sp.cmdPtr x else advanceDown s.sp.cmdPtr) >>=
      fun _ => pure true) s.pulsed := by
  rw [emitStep_of_filled h.record.dirx, dirxSteps_packDirx h.record.steps]
  rfl

/-- SP.STEP of an unguarded run in a segment is the pulse and what follows it. -/
theorem stepHandler_of_segment (h : SegmentAt s x t a dir b k) (hguard : s.sp.prestepEn = false) :
    stepHandler s = ((if s.pulsed.sp.notDecel then advanceUp s.sp.cmdPtr x else advanceDown s.sp.cmdPtr) >>=
      fun _ => pure true) s.pulsed := by
  rw [stepHandler_of_notEnded h.running h.notEnded, pulseInterrupt_unguarded _ hguard, emitStep_of_segment h]

/-- A pulse leaves a segment where it was: the timer has not been programmed yet. -/
theorem SegmentAt.pulsed (h : SegmentAt s x t a dir b k) : SegmentAt s.pulsed x t a dir b k := { h with }

theorem SegmentAt.quiet (h : SegmentAt s x t a dir b k) : SegmentAt s.quiet x t a dir b k := { h with }

/-- One event later in a segment: one evaluation more, and SP_POS at the next position. -/
theorem SegmentAt.next {u : State} (h : SegmentAt s x t a dir b k) (hk : k < x) (hp : u.params = s.params)
    (hsp : u.sp = { s.sp with pos := segmentPos x a (k + 1) })
    (hm : u.mem = memSet s.mem s.sp.cmdPtr .disc (discOf s.params x a + ((k + 1 : Nat) : Int) * amulOf s.params a)) :
    SegmentAt u x t a dir b (k + 1) where
  record := by rw [hp, hsp, hm]; exact h.record.next
  running := by rw [hsp]; exact h.running
  notEnded := by rw [hsp]; exact h.notEnded
  first := Nat.succ_pos k
  last := hk
  phase := by rw [hsp]; exact h.phase
  velocity := by rw [hp, hsp]; exact h.velocity
  position := by rw [hsp]; rfl
  boundary := by rw [hsp]; exact h.boundary

/-- EVAL of the event after the `k`-th, past the pulse. -/
theorem evalSegment_of_segment (h : SegmentAt s x t a dir b k) (hk : k < x) (hw : evalWidth s.params ≤ s.params.maxW) :
    evalSegment s.sp.cmdPtr (s.movedTo (segmentPos x a (k + 1))) =
      .ok (evalOffset s.params s.sp.v0 (segmentPos x a (k + 1)) t (discAt s.params x a (segmentPos x a (k + 1))))
        ((s.movedTo (segmentPos x a (k + 1))).wrote s.sp.cmdPtr .disc
          (discOf s.params x a + ((k + 1 : Nat) : Int) * amulOf s.params a)) :=
  evalSegment_of_recordAfter (s := s.movedTo (segmentPos x a (k + 1))) h.record hk rfl h.velocity hw

/-- The state after the pulse of the `k`-th event, with the next event evaluated. -/
def State.evaluated (s : State) (x : Nat) (a : Int) (k : Nat) : State :=
  (s.pulsed.movedTo (segmentPos x a (k + 1))).wrote s.sp.cmdPtr .disc
    (discOf s.params x a + ((k + 1 : Nat) : Int) * amulOf s.params a)

/-- SP.STEP before the boundary programs the timer for the next event (42_scheduler.md R140). -/
theorem stepHandler_advances (h : SegmentAt s x t a dir b k) (hk : k < x) (hguard : s.sp.prestepEn = false)
    (hin : s.inIrq = true) (hirq : s.tm.irqEn = true) (hw : evalWidth s.params ≤ s.params.maxW) :
    stepHandler s = .ok true (armedAt (eventTime a s.sp.time
      (evalOffset s.params s.sp.v0 (segmentPos x a (k + 1)) t (discAt s.params x a (segmentPos x a (k + 1)))))
      (s.evaluated x a k)) := by
  rw [stepHandler_of_segment h hguard]
  refine op_bind_ok (a := ()) ((advance_of_segment h.pulsed hk _).trans ?_)
  refine (op_bind_ok (evalSegment_of_segment h.pulsed hk hw)).trans ?_
  exact (timerSetNext_apply _ _).trans (if_pos ⟨hin, hirq⟩)

/-- Where MAX_W is too small for EVAL, SP.STEP before the boundary raises past the pulse (log entry 29). -/
theorem stepHandler_narrow (h : SegmentAt s x t a dir b k) (hk : k < x) (hguard : s.sp.prestepEn = false)
    (hw : s.params.maxW < evalWidth s.params) :
    stepHandler s = (raise .fxWidth : Op Bool) (s.pulsed.movedTo (segmentPos x a (k + 1))) := by
  have hraise : (if s.pulsed.sp.notDecel then advanceUp s.sp.cmdPtr x else advanceDown s.sp.cmdPtr) s.pulsed =
      (raise .fxWidth : Op Unit) (s.pulsed.movedTo (segmentPos x a (k + 1))) := by
    refine (advance_of_segment h.pulsed hk _).trans ?_
    exact op_bind_of_raise (evalSegment_narrow (s := s.pulsed.movedTo (segmentPos x a (k + 1))) h.record hw)
  rw [stepHandler_of_segment h hguard]
  exact op_bind_of_raise hraise

/-- SP.STEP at the boundary ends the segment and requests the fetch at its end (42_scheduler.md R140). -/
theorem stepHandler_ends (h : SegmentAt s x t a dir b x) (hguard : s.sp.prestepEn = false) (hin : s.inIrq = true)
    (hirq : s.tm.irqEn = true) :
    stepHandler s = .ok true (armedAt (b + BitVec.ofNat 32 t) (s.pulsed.segmentEnded (b + BitVec.ofNat 32 t))) := by
  rw [stepHandler_of_segment h hguard]
  refine op_bind_ok (a := ()) ((advance_of_boundary h.pulsed).trans ?_)
  exact (timerSetNext_apply _ _).trans (if_pos ⟨hin, hirq⟩)

end Segment

/-- Programming an armed timer past a pulse writes TM_TIME and TM_CMP alone (41_timer.md R117). -/
theorem armedAt_past_pulse {u : State} {time : Time} {l : List OutEvent} (hirq : u.tm.irqEn = true)
    (harmed : u.tm.armed = u.params.assertions) (htrace : u.trace = l ++ [.pulseOn, .pulseOff]) :
    armedAt time u = { u with
      cnt := u.cnt + BitVec.ofNat 32 u.latch.lag
      tm := { u.tm with time := time
                        cmp := rebase u.params.clearance time (u.cnt + BitVec.ofNat 32 u.latch.lag) }
      trace := l ++ [.pulseOn, .pulseOff,
        .arm (rebase u.params.clearance time (u.cnt + BitVec.ofNat 32 u.latch.lag))] } := by
  rw [armedAt_of_armed hirq harmed, htrace, List.append_assoc]
  rfl

/-! ### The obligations -/

/-- Settles O47: past the pulse EVAL answers the closed form's offset, and the offset of the last event is the segment's end. -/
theorem pulseAdvancesTheSegment : Obligations.PulseAdvancesTheSegment := by
  rintro s x t a dir b k pos hl hp hc hin hirq harmed hguard hseg hk rfl
  refine ⟨fun hw => ?_, fun hw => ⟨_, _, exec_spStep_of_ok hl hc (stepHandler_advances hseg.quiet hk hguard hin hirq hw),
    hseg.next hk rfl rfl rfl, rfl, fun hlast => ?_, armedAt_past_pulse (u := s.quiet.evaluated x a k) hirq harmed rfl⟩⟩
  · rw [exec_spStep_of_raise hl hc (stepHandler_narrow hseg.quiet hk hguard hw), violationOutcome_fxWidth]
    rfl
  · subst hlast
    rw [hseg.velocity, hseg.boundary]
    exact eventTime_last t b hseg.record.natAbs_le k.succ_ne_zero

/-- Settles O48: the timer is armed and stays so, and the boundary time is the end of the segment. -/
theorem boundaryPulseEndsTheSegment : Obligations.BoundaryPulseEndsTheSegment := by
  rintro s x t a dir b now hl hc hin hirq harmed hguard hseg rfl
  rw [exec_spStep_of_ok hl hc (stepHandler_ends hseg.quiet hguard hin hirq)]
  exact congrArg _ (armedAt_past_pulse (u := s.quiet.pulsed.segmentEnded (b + BitVec.ofNat 32 t)) hirq harmed rfl)

end Machine
end Sys2Proof

/-! ## O42, O45: LOAD of a fresh record

LOAD seeds SP_POS, SP_TIME and SP_V0 so that the segment is at its first event, evaluates that event and programs the timer.
SP.START and a fetch interrupt differ only in the state they load from (`State.commanded`) and in how the timer is programmed
(`TimerReady`). -/

/-! ### The seeds -/

namespace Sys2Proof
namespace Machine

/-- The seeds of a segment that begins at `b` and ends at `tend` (42_scheduler.md R136). -/
def State.seeded (s : State) (x : Nat) (a : Int) (b tend : Time) : State :=
  { s with sp := { s.sp with
    pos := segmentPos x a 1
    time := if 0 ≤ a then b else tend
    v0 := seedVelocity s.params x a } }

/-- The speed LOAD computes from AMUL is the closed form's (42_scheduler.md R136). -/
theorem seed_eq_seedVelocity {p : Params} {x : Nat} {a : Int} (ha : a.natAbs ≤ x) :
    (if decide (0 ≤ a) = true then (x : Int) * 2 ^ p.discPrec - shrTz (amulOf p a) (2 + p.discPrec)
      else (x : Int) * 2 ^ p.discPrec + shrTz (amulOf p a) (2 + p.discPrec)) = (seedVelocity p x a : Nat) := by
  rw [amulOf, show 2 + 2 * p.discPrec = p.discPrec + (2 + p.discPrec) by omega, shrTz_mul_pow, seedVelocity, Nat.cast_mul,
    Nat.cast_sub ha]
  push_cast
  simp only [decide_eq_true_eq]
  split
  case isTrue h => rw [abs_of_nonneg h]; ring
  case isFalse h => rw [abs_of_neg (not_le.mp h)]; ring

theorem seedVelocity_lt {p : Params} {x : Nat} (a : Int) (hx : x < 2 ^ p.stepBits) :
    seedVelocity p x a < 2 ^ (p.stepBits + p.discPrec) := by
  rw [pow_add]
  exact Nat.mul_lt_mul_of_pos_right ((Nat.sub_le _ _).trans_lt hx) (Nat.two_pow_pos _)

section Load

variable {s : State} {q x t : Nat} {a : Int} {dir : Bool} {b : Time}

/-- The seeds of a Command raise nothing. -/
theorem seedSegment_of_command (tend : Time) (ha : a.natAbs ≤ x) (hx : x < 2 ^ s.params.stepBits) :
    seedSegment x (decide (0 ≤ a)) (amulOf s.params a) b tend s = .ok () (s.seeded x a b tend) := by
  have hmax : ((seedVelocity s.params x a : Nat) : Int) ≤ maxMagnitude (s.params.stepBits + s.params.discPrec) := by
    have hlt : ((seedVelocity s.params x a : Nat) : Int) < 2 ^ (s.params.stepBits + s.params.discPrec) := by
      exact_mod_cast seedVelocity_lt a hx
    unfold maxMagnitude
    omega
  have hseed := seed_eq_seedVelocity (p := s.params) ha
  unfold seedSegment
  rw [op_get_bind, op_modify_bind, op_check_bind, if_pos (by rw [hseed]; exact Int.natCast_nonneg _), op_check_bind,
    if_pos (by rw [hseed]; exact hmax), op_modify, hseed]
  simp only [decide_eq_true_eq]
  rfl

/-! ### The first event -/

theorem firstEvent_empty (acc : Bool) (tend : Time) :
    firstEvent q 0 acc b tend s = .ok tend { s with sp := { s.sp with time := tend } } := rfl

/-- The first event of a Command with steps is evaluated on its seeds. -/
theorem firstEvent_of_record (h : RecordAfter s.params s.mem q x t a dir 0) (hx : x ≠ 0) (tend : Time) :
    firstEvent q x (decide (0 ≤ a)) b tend s =
      (evalSegment q >>= fun delta => get >>= fun u => pure (eventTime a u.sp.time delta)) (s.seeded x a b tend) := by
  unfold firstEvent eventTime
  rw [op_ite, if_neg hx, memRead_bind_filled _ h.amul, op_bind_ok (seedSegment_of_command tend h.natAbs_le h.steps)]
  simp only [decide_eq_true_eq]

/-! ### LOAD -/

/-- What LOAD writes before the first event: the direction, the phase and whether there is a step (42_scheduler.md R136). -/
def State.loadBegun (s : State) (x : Nat) (a : Int) (dir : Bool) : State :=
  { s with
    pins := { s.pins with dir := dir }
    trace := s.trace ++ [.dirSet dir]
    sp := { s.sp with notDecel := decide (0 ≤ a), notEnded := decide (x ≠ 0) } }

/-- LOAD can program the timer: SP.START sets it first, a fetch interrupt sets it again (41_timer.md R116, R117). -/
def TimerReady (first : Bool) (s : State) : Prop :=
  if first then s.tm.irqEn = false else s.inIrq = true ∧ s.tm.irqEn = true

theorem setTimer_of_ready {first : Bool} {time : Time} (h : TimerReady first s) :
    (if first then timerSetFirst time else timerSetNext time) s = .ok () (armedAt time s) := by
  cases first
  · exact (timerSetNext_apply time s).trans (if_pos h)
  · exact (timerSetFirst_apply time s).trans (if_pos h)

/-- LOAD of a Command's record: what it writes first, its first event, the timer. -/
theorem loadCommand_of_record {k : Nat} (h : RecordAfter s.params s.mem q x t a dir k) (first : Bool) :
    loadCommand q b first s = (firstEvent q x (decide (0 ≤ a)) b (b + BitVec.ofNat 32 t) >>=
      fun target => if first then timerSetFirst target else timerSetNext target) (s.loadBegun x a dir) := by
  unfold loadCommand
  refine (memRead_bind_filled _ h.dirx).trans ?_
  rw [op_get_bind, dirxSteps_packDirx h.steps, dirxDirection_packDirx h.steps, dirxAccelerating_packDirx h.steps]
  refine (memRead_bind_filled (s := s.loadBegun x a dir) _ h.tmul).trans ?_
  rw [Int.toNat_natCast]

theorem loadCommand_empty (h : RecordAfter s.params s.mem q 0 t a dir 0) {first : Bool} (hready : TimerReady first s) :
    loadCommand q b first s = .ok () (armedAt (b + BitVec.ofNat 32 t)
      { s.loadBegun 0 a dir with sp := { (s.loadBegun 0 a dir).sp with time := b + BitVec.ofNat 32 t } }) := by
  rw [loadCommand_of_record h, op_bind_ok (firstEvent_empty _ _)]
  exact setTimer_of_ready hready

/-- The state in which the first event of a Command with steps has been evaluated. -/
def State.firstEvaluated (s : State) (q x t : Nat) (a : Int) (dir : Bool) (b : Time) : State :=
  ((s.loadBegun x a dir).seeded x a b (b + BitVec.ofNat 32 t)).wrote q .disc
    (discOf s.params x a + ((0 + 1 : Nat) : Int) * amulOf s.params a)

theorem loadCommand_steps (h : RecordAfter s.params s.mem q x t a dir 0) (hx : x ≠ 0) {first : Bool}
    (hready : TimerReady first s) (hw : evalWidth s.params ≤ s.params.maxW) :
    loadCommand q b first s = .ok () (armedAt (eventTime a (if 0 ≤ a then b else b + BitVec.ofNat 32 t)
      (evalOffset s.params (seedVelocity s.params x a) (segmentPos x a 1) t (discAt s.params x a (segmentPos x a 1))))
      (s.firstEvaluated q x t a dir b)) := by
  have heval := evalSegment_of_recordAfter (s := (s.loadBegun x a dir).seeded x a b (b + BitVec.ofNat 32 t)) h
    (Nat.pos_of_ne_zero hx) rfl rfl hw
  rw [loadCommand_of_record h]
  refine (op_bind_ok ((firstEvent_of_record (s := s.loadBegun x a dir) h hx _).trans (op_bind_ok heval))).trans ?_
  exact setTimer_of_ready hready

/-- Where MAX_W is too small for EVAL, LOAD of a Command with steps raises before the timer is programmed (log entry 29). -/
theorem loadCommand_narrow (h : RecordAfter s.params s.mem q x t a dir 0) (hx : x ≠ 0) (first : Bool)
    (hw : s.params.maxW < evalWidth s.params) :
    loadCommand q b first s =
      (raise .fxWidth : Op Unit) ((s.loadBegun x a dir).seeded x a b (b + BitVec.ofNat 32 t)) := by
  rw [loadCommand_of_record h]
  refine op_bind_of_raise ((firstEvent_of_record (s := s.loadBegun x a dir) h hx _).trans ?_)
  exact op_bind_of_raise
    (evalSegment_narrow (s := (s.loadBegun x a dir).seeded x a b (b + BitVec.ofNat 32 t)) h hw)

end Load

/-! ### What LOAD leaves -/

/-- The state LOAD begins in: the run is on, its consumer and its Command are recorded (42_scheduler.md R138, R140). -/
def State.commanded (s : State) (q id n : Nat) : State :=
  { s with
    sp := { s.sp with running := true, consumer := id, cmdPtr := q }
    result := none
    freeCount := n }

section Loaded

variable {s : State} {q id n x t : Nat} {a : Int} {dir : Bool} {b : Time}

/-- The part of `Loaded` that is the same for every Command: LOAD writes the seeds and the record, the timer is armed last. -/
theorem loaded_of_armedAt {pos v0 : Nat} {time target : Time} {m : Memory} {u : State}
    (hu : u = armedAt target { (s.commanded q id n).loadBegun x a dir with
      sp := { ((s.commanded q id n).loadBegun x a dir).sp with pos := pos, time := time, v0 := v0 }
      mem := m })
    (hempty : x = 0 → u.sp.notEnded = false ∧ u.sp.time = b + BitVec.ofNat 32 t ∧
      u.tm.time = b + BitVec.ofNat 32 t ∧ u.sp.pos = s.sp.pos ∧ u.sp.v0 = s.sp.v0 ∧ u.mem = s.mem)
    (hsegment : 0 < x → SegmentAt u x t a dir b 1 ∧ u.tm.time = eventTime a u.sp.time
      (evalOffset s.params u.sp.v0 u.sp.pos t (discAt s.params x a u.sp.pos)))
    (hsingle : x = 1 → u.tm.time = b + BitVec.ofNat 32 t)
    (hmem : ∀ p f, ¬ (p = q ∧ f = .disc) → memGet u.mem p f = memGet s.mem p f) :
    Loaded s u q x t a dir b ∧ u.sp.consumer = id ∧ u.freeCount = n := by
  have htrace : u.trace = s.trace ++ [.dirSet dir, .arm u.tm.cmp] := by
    subst hu
    exact List.append_assoc s.trace [.dirSet dir] _
  have hkept : u.sp.prestepEn = s.sp.prestepEn ∧ u.sp.life = s.sp.life ∧ u.params = s.params ∧ u.fault = s.fault ∧
      u.im = s.im ∧ u.inIrq = s.inIrq ∧ u.latch = s.latch ∧ u.inputs = s.inputs ∧ u.result = none := by
    subst hu
    exact ⟨rfl, rfl, rfl, rfl, rfl, rfl, rfl, rfl, rfl⟩
  refine ⟨⟨?_, ?_, ?_, ?_, hempty, hsegment, hsingle, ?_, ?_, ?_, htrace, hmem, hkept⟩, ?_⟩
  all_goals subst hu
  case refine_7 => exact ⟨rfl, rfl, rfl⟩
  case refine_8 => exact ⟨rfl, rfl⟩
  all_goals rfl

/-- LOAD of a fresh record loads it (42_scheduler.md R136). -/
theorem loadCommand_loads (h : RecordAfter s.params s.mem q x t a dir 0) {first : Bool} (hready : TimerReady first s)
    (hw : x = 0 ∨ evalWidth s.params ≤ s.params.maxW) :
    ∃ u, loadCommand q b first (s.commanded q id n) = .ok () u ∧
      Loaded s u q x t a dir b ∧ u.sp.consumer = id ∧ u.freeCount = n := by
  rcases Nat.eq_zero_or_pos x with rfl | hx
  · refine ⟨_, loadCommand_empty (s := s.commanded q id n) h hready, ?_⟩
    exact loaded_of_armedAt rfl (fun _ => ⟨rfl, rfl, rfl, rfl, rfl, rfl⟩) (fun h0 => absurd h0 (lt_irrefl 0)) nofun
      fun _ _ _ => rfl
  · have hwide := hw.resolve_left hx.ne'
    refine ⟨_, loadCommand_steps (s := s.commanded q id n) h hx.ne' hready hwide, ?_⟩
    refine loaded_of_armedAt rfl (fun h0 => absurd h0 hx.ne') (fun _ => ⟨?_, rfl⟩) ?_
      fun _ _ hne => memGet_memSet_other _ hne
    · exact ⟨h.next, rfl, decide_eq_true hx.ne', le_rfl, hx, rfl, rfl, rfl, rfl⟩
    · rintro rfl
      exact eventTime_last t b h.natAbs_le one_ne_zero

/-- Where MAX_W is too small for EVAL, LOAD of a Command with steps leaves the timer and the memory alone (log entry 29). -/
theorem loadCommand_raises (h : RecordAfter s.params s.mem q x t a dir 0) (hx : x ≠ 0) (first : Bool)
    (hw : s.params.maxW < evalWidth s.params) :
    ∃ u, loadCommand q b first (s.commanded q id n) = (raise .fxWidth : Op Unit) u ∧ u.fault = s.fault ∧ u.tm = s.tm ∧
      u.mem = s.mem ∧ u.sp.cmdPtr = q ∧ u.sp.running = true ∧ u.trace = s.trace ++ [.dirSet dir] :=
  ⟨_, loadCommand_narrow (s := s.commanded q id n) h hx first hw, rfl, rfl, rfl, rfl, rfl, rfl⟩

end Loaded

end Machine
end Sys2Proof

/-! ## O37, O38, O39, O43, O25, O42: life cycle, start and stop

Each of these operations is a chain of checks and one write. One equation per operation says both, in the order of
60_exceptions.md R184; every clause of the statements is a branch of it. -/

/-! ### What each operation answers -/

namespace Sys2Proof
namespace Machine

theorem requireBackground_bind {β : Type} (f : Unit → Op β) (s : State) :
    (requireBackground >>= f) s = if s.inIrq = false then f () s else (raise .spContext : Op β) s := by
  unfold requireBackground
  rw [op_bind_assoc, op_get_bind, op_check_bind]

section LifeCycle

variable {s : State}

theorem spInit_apply (hl : Live s) :
    spInit s =
      if s.inIrq = false then
        if s.sp.life = false then .ok () { s.quiet with
          sp := { s.sp with life := true, running := false, prestepEn := false }
          tm := { s.tm with tlife := true, irqEn := false, armed := false } }
        else (raise .spLife : Op Unit) s.quiet
      else (raise .spContext : Op Unit) s.quiet := by
  rw [spInit, onPort_of_live hl, requireBackground_bind, op_get_bind, op_check_bind]
  rfl

theorem spDeinit_apply (hl : Live s) :
    spDeinit s =
      if s.inIrq = false then
        if s.sp.life = true then
          if s.sp.running = false then
            if s.tm.irqEn = false then
              .ok () (unspecifyRegisters { s.quiet with tm := { s.tm with tlife := false } })
            else (raise .tmArmed : Op Unit) s.quiet
          else (raise .spDeinitRunning : Op Unit) s.quiet
        else (raise .spLife : Op Unit) s.quiet
      else (raise .spContext : Op Unit) s.quiet := by
  rw [spDeinit, onPort_of_live hl, requireBackground_bind, op_get_bind, op_check_bind, op_get_bind, op_check_bind]
  refine ite_congr rfl (fun _ => ite_congr rfl (fun _ => ite_congr rfl (fun _ => ?_) fun _ => rfl) fun _ => rfl) fun _ => rfl
  rw [timerDeinit, op_bind_assoc, op_get_bind, op_bind_assoc, op_check_bind]
  rfl

theorem spPrestep_apply (flag : Bool) (hl : Live s) :
    spPrestep flag s =
      if s.inIrq = false then
        if s.sp.life = true then
          if s.sp.running = false then .ok () { s.quiet with sp := { s.sp with prestepEn := flag } }
          else (raise .spBusy : Op Unit) s.quiet
        else (raise .spLife : Op Unit) s.quiet
      else (raise .spContext : Op Unit) s.quiet := by
  rw [spPrestep, onPort_of_live hl, requireBackground_bind, op_get_bind, op_check_bind, op_get_bind, op_check_bind]
  rfl

theorem spStop_apply (hl : Live s) :
    spStop s =
      if s.inIrq = false then
        if s.sp.life = true then .ok () { disarmed s.quiet with sp := { s.sp with running := false } }
        else (raise .spLife : Op Unit) s.quiet
      else (raise .spContext : Op Unit) s.quiet := by
  rw [spStop, onPort_of_live hl, requireBackground_bind, op_get_bind, op_check_bind]
  refine ite_congr rfl (fun _ => ite_congr rfl (fun _ => ?_) fun _ => rfl) fun _ => rfl
  rw [atomically_apply, op_bind_ok (timerUnset_apply _)]
  rfl

/-- What SP.START performs once its checks have passed (42_scheduler.md R138). -/
def startRun (cid : ConsumerId) (q : Nat) (time : Time) : Op Unit := do
  let id ← recordedConsumer cid
  modify fun s => { s with sp := { s.sp with running := true, consumer := id, cmdPtr := q } }
  loadCommand q time true

theorem spStart_of_portTime (cid : ConsumerId) {time : Time} (hl : Live s) (ht : PortTime s.params.maxW s.latch.a time) :
    spStart cid s =
      if s.inIrq = false then
        if s.sp.life = true then
          if s.sp.running = false then
            if pointer s.params s.latch.ptr ≠ 0 then startRun cid (pointer s.params s.latch.ptr) time s.quiet
            else (raise .spNullCommand : Op Unit) s.quiet
          else (raise .spAlreadyRunning : Op Unit) s.quiet
        else (raise .spLife : Op Unit) s.quiet
      else (raise .spContext : Op Unit) s.quiet := by
  rw [spStart, onPort_of_live hl, op_get_bind, timeOperand_bind_of_portTime (s := s.quiet) (p := s.quiet.latch.a) _ ht,
    requireBackground_bind, op_get_bind, op_check_bind, op_get_bind, op_check_bind, op_get_bind, op_check_bind]
  rfl

theorem spStart_of_noTime (cid : ConsumerId) (hl : Live s) (h : portHoldsTime s.params.maxW s.latch.a = false) :
    spStart cid s = (raise .illegalOp : Op Unit) s.quiet := by
  rw [spStart, onPort_of_live hl, op_get_bind]
  exact timeOperand_bind_of_noTime (s := s.quiet) _ h

/-- A port that holds a time holds one. -/
theorem portTime_of_holds {maxW : Nat} {p : PortWord} (h : portHoldsTime maxW p = true) :
    PortTime maxW p (BitVec.ofNat 32 (portNat maxW p)) := by
  have hlt : portNat maxW p < 2 ^ 32 := of_decide_eq_true (Bool.and_eq_true_iff.mp h).1
  exact ⟨h, by rw [BitVec.toNat_ofNat, Nat.mod_eq_of_lt hlt]⟩

end LifeCycle

/-! ### The obligations -/

/-- Settles O37: the two checks pass. -/
theorem spInitEntersStopped : Obligations.SpInitEntersStopped := by
  intro s hl hin hlife
  refine perform_ok ?_
  rw [spInit_apply hl, if_pos hin, if_pos hlife]

/-- Settles O38: past its own checks SP.DEINIT asks the timer's, that the interrupt is off. -/
theorem spDeinitEntersUninitialised : Obligations.SpDeinitEntersUninitialised := by
  intro s hl hin hlife hrun
  have hbody := spDeinit_apply hl
  rw [if_pos hin, if_pos hlife, if_pos hrun] at hbody
  refine ⟨fun hirq => ⟨_, perform_ok (hbody.trans (if_pos hirq)), rfl, rfl, rfl, rfl, rfl⟩, fun hirq => ?_⟩
  exact perform_raise_quiet (hbody.trans (if_neg (by simp [hirq])))

/-- Settles O39: the three checks in their order, then the write. -/
theorem prestepWritesTheEnable : Obligations.PrestepWritesTheEnable := by
  refine ⟨fun flag => decode_encode (.spPrestep flag), fun s flag hl => ?_⟩
  have hbody := spPrestep_apply flag hl
  refine ⟨fun hin => ?_, fun hin hlife => ?_, fun hin hlife hrun => ?_, fun hin hlife hrun => ?_⟩
  · exact perform_raise_quiet (hbody.trans (if_neg (by simp [hin])))
  · rw [if_pos hin] at hbody
    exact perform_raise_quiet (hbody.trans (if_neg (by simp [hlife])))
  · rw [if_pos hin, if_pos hlife] at hbody
    exact perform_raise_quiet (hbody.trans (if_neg (by simp [hrun])))
  · rw [if_pos hin, if_pos hlife, if_pos hrun] at hbody
    exact perform_ok hbody

/-- Settles O43: the two checks in their order, then the timer is disarmed and the run ended; CORE owns a record only while
a run is on. -/
theorem stopEndsTheRun : Obligations.StopEndsTheRun := by
  refine ⟨decode_encode .spStop, fun s hl => ?_⟩
  have hbody := spStop_apply hl
  refine ⟨fun hin => ?_, fun hin hlife => ?_, fun hin hlife => ⟨?_, fun _ => rfl⟩⟩
  · exact perform_raise_quiet (hbody.trans (if_neg (by simp [hin])))
  · rw [if_pos hin] at hbody
    exact perform_raise_quiet (hbody.trans (if_neg (by simp [hlife])))
  · rw [if_pos hin, if_pos hlife] at hbody
    exact perform_ok hbody

/-- Without a life no operation of background context but SP.INIT is performed (42_scheduler.md R132, R133, R139). -/
theorem exec_of_no_life {s : State} {flag : Bool} (hl : Live s) (hin : s.inIrq = false) (hlife : s.sp.life = false) :
    ∀ i ∈ [Instr.spDeinit, .spStop, .spPrestep flag], exec i s = violationOutcome .spLife s := by
  have hno : ¬ s.sp.life = true := by simp [hlife]
  simp only [List.forall_mem_cons, List.not_mem_nil, false_implies, implies_true, and_true]
  refine ⟨perform_raise_quiet ?_, perform_raise_quiet ?_, perform_raise_quiet ?_⟩
  · rw [spDeinit_apply hl, if_pos hin, if_neg hno]
  · rw [spStop_apply hl, if_pos hin, if_neg hno]
  · rw [spPrestep_apply flag hl, if_pos hin, if_neg hno]

/-- Settles O25: each clause is the check of its operation that fails first. -/
theorem lifeCycleViolations : Obligations.LifeCycleViolations := by
  intro s cid flag hl hin
  refine ⟨fun hlife => ?_, exec_of_no_life hl hin, fun hlife hrun => ⟨?_, ?_⟩, fun hno => ?_, fun htime => ?_⟩
  · refine perform_raise_quiet ?_
    rw [spInit_apply hl, if_pos hin, if_neg (by simp [hlife])]
  · refine perform_raise_quiet ?_
    rw [spDeinit_apply hl, if_pos hin, if_pos hlife, if_neg (by simp [hrun])]
  · refine perform_raise_quiet ?_
    rw [spPrestep_apply flag hl, if_pos hin, if_pos hlife, if_neg (by simp [hrun])]
  · exact perform_raise_quiet (spStart_of_noTime cid hl hno)
  · have hbody := spStart_of_portTime cid hl (portTime_of_holds htime)
    rw [if_pos hin] at hbody
    refine ⟨fun hlife => ?_, fun hlife hrun => ?_, fun hlife hrun hnull => ?_⟩
    · exact perform_raise_quiet (hbody.trans (if_neg (by simp [hlife])))
    · rw [if_pos hlife] at hbody
      exact perform_raise_quiet (hbody.trans (if_neg (by simp [hrun])))
    · rw [if_pos hlife, if_pos hrun] at hbody
      exact perform_raise_quiet (hbody.trans (if_neg (not_not.mpr hnull)))

/-! ### SP.START -/

/-- SP.START records the consumer id where CID_BITS bits hold it, else a free one (log entry 28). -/
theorem recordedConsumer_ok (cid : ConsumerId) (s : State) :
    ∃ id n, recordedConsumer cid s = .ok id { s with freeCount := n } ∧ id < 2 ^ s.params.cidBits ∧
      (cid.toNat < 2 ^ s.params.cidBits → id = cid.toNat ∧ n = s.freeCount) := by
  unfold recordedConsumer
  rw [op_get_bind, op_ite]
  split
  case isTrue h => exact ⟨_, s.freeCount, rfl, h, fun _ => ⟨rfl, rfl⟩⟩
  case isFalse h => exact ⟨_, _, rfl, BitVec.isLt _, fun hlt => absurd hlt h⟩

/-- A run begins with LOAD of its first Command. -/
theorem startRun_eq_loadCommand (cid : ConsumerId) (q : Nat) (time : Time) (s : State) :
    ∃ id n, startRun cid q time s.quiet = loadCommand q time true (s.commanded q id n) ∧ id < 2 ^ s.params.cidBits ∧
      (cid.toNat < 2 ^ s.params.cidBits → id = cid.toNat ∧ n = s.freeCount) := by
  obtain ⟨id, n, hok, hrange, hfits⟩ := recordedConsumer_ok cid s.quiet
  exact ⟨id, n, op_bind_ok hok, hrange, hfits⟩

/-- Settles O42: SP.START is LOAD, past its checks and with the consumer recorded. -/
theorem startLoadsTheFirstCommand : Obligations.StartLoadsTheFirstCommand := by
  rintro s cid x t a dir q time hl hp hin hlife hrun hirq ht rfl hq hrec
  obtain ⟨id, n, hstart, hrange, hfits⟩ := startRun_eq_loadCommand cid (pointer s.params s.latch.ptr) time s
  have hbody := spStart_of_portTime cid hl ht
  rw [if_pos hin, if_pos hlife, if_pos hrun, if_pos hq, hstart] at hbody
  refine ⟨fun hw => ?_, fun hx hw => ?_⟩
  · obtain ⟨u, hload, hloaded, rfl, rfl⟩ :=
      loadCommand_loads (id := id) (n := n) (first := true) (b := time) hrec hirq hw
    exact ⟨u, perform_ok (hbody.trans hload), hrange, hfits, hloaded⟩
  · obtain ⟨u, hload, hframe⟩ := loadCommand_raises (id := id) (n := n) (b := time) hrec hx true hw
    exact ⟨u, (perform_raise .fxWidth (hbody.trans hload)).trans (violationOutcome_fxWidth u), hframe⟩

end Machine
end Sys2Proof

/-! ## O40, O41: SP.GENCMD

Past its three checks SP.GENCMD fills a record: each field of a Command whose operands are in range fits the field's type
(`commandRecord_fits`), so nothing more is raised. -/

/-! ### The record of a Command -/

namespace Sys2Proof
namespace Machine

section Fields

variable {p : Params} {x t : Nat} {a : Int}

theorem fieldFits_packDirx (dir acc : Bool) (hx : x < 2 ^ p.stepBits) : fieldFits p .dirx (packDirx p x dir acc) = true := by
  have h0 : 0 ≤ packDirx p x dir acc := by unfold packDirx; positivity
  have hflags : dir.toNat + 2 * acc.toNat ≤ 3 := by
    have hdir := dir.toNat_le
    have hacc := acc.toNat_le
    omega
  have hword := Nat.mul_le_mul_left (2 ^ p.stepBits) hflags
  refine (fits_iff_natAbs _ _ _).mpr ⟨?_, fun _ => h0⟩
  have hmag : (packDirx p x dir acc).natAbs = x + 2 ^ p.stepBits * (dir.toNat + 2 * acc.toNat) := by
    rw [← packDirx_toNat]
    omega
  have hwidth : 2 ^ fieldWidth p .dirx = 2 ^ p.stepBits * 4 := pow_add 2 p.stepBits 2
  omega

theorem fits_acceleration (hx : x < 2 ^ p.stepBits) (hlower : -(x : Int) ≤ a) (hupper : a ≤ x) :
    fits a true p.stepBits = true :=
  (fits_signed_iff_natAbs a _).mpr (by omega)

theorem fieldFits_amulOf (hx : x < 2 ^ p.stepBits) (hlower : -(x : Int) ≤ a) (hupper : a ≤ x) :
    fieldFits p .amul (amulOf p a) = true := by
  have hwidth : fieldWidth p .amul = p.stepBits + (2 + 2 * p.discPrec) := Nat.add_assoc _ _ _
  rw [fieldFits, hwidth]
  exact fits_mul_two_pow (2 + 2 * p.discPrec) (fits_acceleration hx hlower hupper)

theorem fieldFits_discOf (hx : x < 2 ^ p.stepBits) (hlower : -(x : Int) ≤ a) (hupper : a ≤ x) :
    fieldFits p .disc (discOf p x a) = true := by
  have hdiff : fits (x - a : Int) true (p.stepBits + 1) = true := by
    rw [fits_signed_iff_natAbs, pow_succ]
    omega
  have hscaled := fits_mul_two_pow p.discPrec hdiff
  have hwidth : fieldWidth p .disc = p.stepBits + 1 + p.discPrec + (p.stepBits + 1 + p.discPrec) := by
    rw [fieldWidth_disc]
    omega
  rw [fieldFits, hwidth]
  exact fits_mul hscaled hscaled

/-- Every field of a Command's record is in the range of its type (42_scheduler.md R134). -/
theorem commandRecord_fits (dir : Bool) (hx : x < 2 ^ p.stepBits) (ht : t < 2 ^ p.tmulBits) (hlower : -(x : Int) ≤ a)
    (hupper : a ≤ x) : recordFits p (commandRecord p x t a dir) = true := by
  refine (recordFits_iff _ _).mpr fun f => ?_
  cases f with
  | dirx => exact fieldFits_packDirx dir _ hx
  | tmul => exact (fits_natCast_iff t _).mpr (Nat.le_sub_one_of_lt ht)
  | amul => exact fieldFits_amulOf hx hlower hupper
  | disc => exact fieldFits_discOf hx hlower hupper

end Fields

/-! ### What SP.GENCMD answers -/

section Gencmd

variable {s : State} {x t a : Int}

/-- SP.GENCMD, in the order of its checks (42_scheduler.md R134). -/
theorem spGencmd_apply (dir : Bool) (hl : Live s) (hx : portValue s.params.maxW false s.latch.a = x)
    (ht : portValue s.params.maxW false s.latch.b = t) (ha : portValue s.params.maxW true s.latch.c = a) :
    spGencmd dir s =
      if fits x false s.params.stepBits = true ∧ fits t false s.params.tmulBits = true ∧
          fits a true s.params.stepBits = true then
        if pointer s.params s.latch.ptr ≠ 0 then
          if -x ≤ a ∧ a ≤ x then
            if recordFits s.params (commandRecord s.params x t a dir) = true then
              .ok () (spoilIfOwned (pointer s.params s.latch.ptr) { s.quiet with
                mem := memPut s.mem ⟨pointer s.params s.latch.ptr, commandRecord s.params x t a dir⟩ })
            else (raise .fxRange : Op Unit) s.quiet
          else (raise .spAccelRange : Op Unit) s.quiet
        else (raise .spNullCommand : Op Unit) s.quiet
      else (raise .fxRange : Op Unit) s.quiet := by
  subst hx ht ha
  rw [spGencmd, onPort_of_live hl, op_get_bind, op_check_bind, op_check_bind, op_check_bind, memFill_bind]
  rfl

/-- The operands' ranges as magnitudes (40_fxu.md R80). -/
theorem operandRanges_iff (hx : portValue s.params.maxW false s.latch.a = x)
    (ht : portValue s.params.maxW false s.latch.b = t) :
    (fits x false s.params.stepBits = true ∧ fits t false s.params.tmulBits = true ∧
      fits a true s.params.stepBits = true) ↔
    x < 2 ^ s.params.stepBits ∧ t < 2 ^ s.params.tmulBits ∧ a.natAbs < 2 ^ s.params.stepBits := by
  have hx0 : 0 ≤ x := hx ▸ portValue_nonneg _ _
  have ht0 : 0 ≤ t := ht ▸ portValue_nonneg _ _
  rw [fits_unsigned, fits_unsigned, fits_signed_iff_natAbs]
  omega

end Gencmd

/-- A record CORE owns is arbitrary after SP.GENCMD has written it, any other holds what was written (log entry 8). -/
theorem memRecord_spoilIfOwned {s : State} {q : Nat} {r : CommandRecord} {m : Memory} :
    (owns s q = true → memRecord (spoilIfOwned q { s.quiet with mem := memPut m ⟨q, r⟩ }).mem q = none) ∧
    (owns s q = false → memRecord (spoilIfOwned q { s.quiet with mem := memPut m ⟨q, r⟩ }).mem q = some r) ∧
    ∀ p, p ≠ q → memRecord (spoilIfOwned q { s.quiet with mem := memPut m ⟨q, r⟩ }).mem p = memRecord m p := by
  have howns : owns { s.quiet with mem := memPut m ⟨q, r⟩ } q = owns s q := rfl
  rw [spoilIfOwned_mem, howns]
  refine ⟨fun h => ?_, fun h => ?_, fun p hp => ?_⟩
  · rw [if_pos h]
    exact memRecord_memErase_self _ q
  · rw [if_neg (by simp [h])]
    exact memRecord_memPut_self ⟨q, r⟩
  · split
    · rw [memRecord_memErase_other hp]
      exact memRecord_memPut_other hp
    · exact memRecord_memPut_other hp

/-- Settles O41: the checks in their order, none of which has written anything. -/
theorem gencmdChecksItsOperands : Obligations.GencmdChecksItsOperands := by
  intro s dir ok x t a hl hx ht ha hok
  rw [← operandRanges_iff hx ht] at hok
  have hbody := spGencmd_apply dir hl hx ht ha
  refine ⟨fun hno => ?_, fun hyes hnull => ?_, fun hyes hptr hsmall => ?_⟩
  · exact perform_raise_quiet (hbody.trans (if_neg (mt hok.mpr (by simp [hno]))))
  · rw [if_pos (hok.mp hyes)] at hbody
    exact perform_raise_quiet (hbody.trans (if_neg (not_not.mpr hnull)))
  · rw [if_pos (hok.mp hyes), if_pos hptr] at hbody
    exact perform_raise_quiet (hbody.trans (if_neg (by omega)))

/-- The statement's formulas are those of the model's record (42_scheduler.md R134). -/
theorem commandRecord_eq (p : Params) (x t : Nat) (a : Int) (dir : Bool) :
    commandRecord p x t a dir = {
      dirx := (x : Int) + (if dir then 2 ^ p.stepBits else 0) + (if 0 ≤ a then 2 ^ (p.stepBits + 1) else 0)
      tmul := t
      amul := 4 * a * 2 ^ (2 * p.discPrec)
      disc := ((x - a) * 2 ^ p.discPrec) ^ 2 } := by
  unfold commandRecord packDirx amulOf discOf
  simp only [decide_eq_true_eq, CommandRecord.mk.injEq, true_and]
  exact ⟨by ring, by ring⟩

/-- Settles O40: the operands' ranges bound every field, so the record is filled, or spoiled where CORE owns it. -/
theorem gencmdBuildsTheRecord : Obligations.GencmdBuildsTheRecord := by
  rintro s dir x t a q hl hm hx ht ha rfl hq hxlt htlt hlower hupper
  have hranges := (operandRanges_iff (a := a) hx ht).mpr ⟨by exact_mod_cast hxlt, by exact_mod_cast htlt, by omega⟩
  have hfits := commandRecord_fits dir hxlt htlt hlower hupper
  have hbody := spGencmd_apply dir hl hx ht ha
  rw [if_pos hranges, if_pos hq, if_pos ⟨hlower, hupper⟩, if_pos hfits] at hbody
  obtain ⟨howned, hfree, hother⟩ := memRecord_spoilIfOwned (s := s) (q := pointer s.params s.latch.ptr)
    (r := commandRecord s.params x t a dir) (m := s.mem)
  refine ⟨_, perform_ok hbody, ?_, ?_, hother, howned, ?_⟩
  · rw [spoilIfOwned_mem]
    exact spoilIfOwned_eq_withMem _ _
  · exact spoilIfOwned_wf _ (memPut_wf hm (Nat.pos_of_ne_zero hq) (pointer_lt _ _) hfits)
  · rw [← commandRecord_eq]
    exact hfree

end Machine
end Sys2Proof

/-! ## O44, O45, O46: the consumer's answer in SP.STEP

A consumer that answers at once leaves its transaction in the trace and nothing else (43_dispatch.md R162, R163). What follows an
answer is known: the end of the run, LOAD, or the pulse. -/

/-! ### A consumer that answers at once -/

namespace Sys2Proof
namespace Machine

/-- The state with an event emitted. -/
def State.traced (s : State) (e : OutEvent) : State := { s with trace := s.trace ++ [e] }

/-- The state in which the run has ended (42_scheduler.md R143). -/
def State.runEnded (s : State) : State := { s with sp := { s.sp with running := false } }

section Consumer

variable {s : State} {next : CmdAnswer} {abort : Bool}

theorem commandCallback_of_reply (i q : Nat) (h : s.latch.reply = some ⟨[], true, next, abort⟩) :
    commandCallback i q s =
      .ok (slotAnswer s.params next) (s.quiet.traced (.cmdCb i q (slotAnswer s.params next))) := by
  have hanswer : commandAnswer s = .ok (slotAnswer s.params next) s.quiet := by
    unfold commandAnswer
    rw [op_get_bind, h]
    rfl
  exact op_bind_ok hanswer

theorem prestepCallback_of_reply (i : Nat) (h : s.latch.reply = some ⟨[], true, next, abort⟩) :
    prestepCallback i s = .ok abort (s.quiet.traced (.preCb i abort)) := by
  have hanswer : prestepAnswer s = .ok abort s.quiet := by
    unfold prestepAnswer
    rw [op_get_bind, h]
    rfl
  exact op_bind_ok hanswer

/-! ### A fetch interrupt -/

theorem fetchInterrupt_of_stop (q : Nat) (h : s.latch.reply = some ⟨[], true, .stop, abort⟩) :
    fetchInterrupt q s = .ok false (s.quiet.traced (.cmdCb (owningConsumer s) q .stop)).runEnded :=
  op_bind_ok (commandCallback_of_reply (owningConsumer s) q h)

/-- The state in which the consumer has answered continue, with `slot` in the slot (43_dispatch.md R162). -/
def State.answered (s : State) (slot : Nat) : State :=
  s.traced (.cmdCb (owningConsumer s) s.sp.cmdPtr (.proceed (pointer s.params slot)))

/-- The Command a consumer answers is loaded with the end of the old segment as its start. -/
theorem stepHandler_of_proceed {slot : Nat} (hrun : s.sp.running = true) (hended : s.sp.notEnded = false)
    (h : s.latch.reply = some ⟨[], true, .proceed slot, abort⟩) :
    stepHandler s.quiet =
      if pointer s.params slot ≠ 0 then
        (loadCommand (pointer s.params slot) s.sp.time false >>= fun _ => pure true)
          ((s.answered slot).commanded (pointer s.params slot) s.sp.consumer s.freeCount)
      else (raise .spNullCommand : Op Bool) (s.answered slot).quiet := by
  have hcallback := commandCallback_of_reply (s := s.quiet) (owningConsumer s) s.sp.cmdPtr h
  refine (stepHandler_of_ended (s := s.quiet) hrun hended).trans ((op_bind_ok hcallback).trans ?_)
  refine (op_check_bind _ _ _ _).trans (if_congr Iff.rfl ?_ rfl)
  rw [State.commanded, ← hrun]
  rfl

end Consumer

/-- SP.STEP of a run whose consumer answers stop. -/
theorem exec_spStep_of_stop {s : State} {abort : Bool} (hl : Live s) (hc : s.latch.issuer = .core)
    (hrun : s.sp.running = true) (hended : s.sp.notEnded = false)
    (hreply : s.latch.reply = some ⟨[], true, .stop, abort⟩) :
    exec .spStep s = .next (s.quiet.traced (.cmdCb (owningConsumer s) s.sp.cmdPtr .stop)).runEnded :=
  exec_spStep_of_ok hl hc ((stepHandler_of_ended (s := s.quiet) hrun hended).trans (fetchInterrupt_of_stop _ hreply))

/-- Settles O44: the run has ended, and without keep TM.IRQ disarms the timer (`interruptRunsTheHandlerAndReturns`). -/
theorem fetchStopEndsTheRun : Obligations.FetchStopEndsTheRun := by
  refine fun s abort hl hc hrun hended hreply =>
    ⟨exec_spStep_of_stop hl hc hrun hended hreply, fun hirq him hin htime => ?_⟩
  have hstart := (interruptMayStart_iff s).mpr ⟨hirq, him, hin, hl⟩
  have hstep := exec_spStep_of_stop (s := { s with inIrq := true }) hl hc hrun hended hreply
  obtain ⟨-, -, hreturn⟩ := interruptRunsTheHandlerAndReturns s _ hc hstart htime hstep
  rw [hreturn hl rfl]
  simp [State.traced, State.runEnded, State.quiet, owningConsumer, hin]

/-- Settles O45: a null pointer is checked before LOAD, and LOAD begins at SP_TIME. -/
theorem fetchContinueLoadsTheNextCommand : Obligations.FetchContinueLoadsTheNextCommand := by
  rintro s abort slot p hl hp hc hrun hended hreply rfl
  have hstep := stepHandler_of_proceed hrun hended hreply
  refine ⟨fun hnull => ?_, fun x t a dir hptr hin hirq hrec => ?_⟩
  · rw [if_neg (not_not.mpr hnull)] at hstep
    exact (exec_spStep_of_raise hl hc hstep).trans (violationOutcome_quiet _ (s.answered slot))
  rw [if_pos hptr] at hstep
  refine ⟨fun hw => ?_, fun hx hw => ?_⟩
  · obtain ⟨u, hload, hloaded, hconsumer, hcount⟩ := loadCommand_loads (s := s.answered slot) (id := s.sp.consumer)
      (n := s.freeCount) (first := false) (b := s.sp.time) hrec ⟨hin, hirq⟩ hw
    exact ⟨u, exec_spStep_of_ok hl hc (hstep.trans (op_bind_ok hload)), hconsumer, hcount, hloaded⟩
  · obtain ⟨u, hload, hfault, htm, hmem, hcmd, hrunning, htrace⟩ := loadCommand_raises (s := s.answered slot)
      (id := s.sp.consumer) (n := s.freeCount) (b := s.sp.time) hrec hx false hw
    have hraise := exec_spStep_of_raise hl hc (hstep.trans (op_bind_of_raise hload))
    exact ⟨u, hraise.trans (violationOutcome_fxWidth u), hfault, htm, hmem, hcmd, hrunning,
      htrace.trans (List.append_assoc s.trace _ _)⟩

/-! ### The guard

A pulse interrupt reads PRESTEP_EN once, before the pulse; what follows neither reads nor writes it. So it does the same from two
states that differ there alone (`IgnoresGuard`). -/

/-- The state with the guard's enable flag at `b`. -/
def State.withGuard (b : Bool) (s : State) : State := { s with sp := { s.sp with prestepEn := b } }

/-- An end of an operation, with the guard's enable flag at `b`. -/
def endWithGuard {α : Type} (b : Bool) : EStateM.Result Stop State α → EStateM.Result Stop State α
  | .ok a t => .ok a (t.withGuard b)
  | .error e t => .error e (t.withGuard b)

/-- `x` does the same whatever PRESTEP_EN is, and leaves it. -/
def IgnoresGuard {α : Type} (x : Op α) : Prop := ∀ b s, x (s.withGuard b) = endWithGuard b (x s)

section IgnoresGuard

variable {α β : Type}

theorem IgnoresGuard.bind {x : Op α} {f : α → Op β} (hx : IgnoresGuard x) (hf : ∀ a, IgnoresGuard (f a)) :
    IgnoresGuard (x >>= f) := by
  intro b s
  rw [op_bind, op_bind, hx b s]
  cases x s with
  | ok a t => exact hf a b t
  | error e t => rfl

theorem ignoresGuard_pure (a : α) : IgnoresGuard (pure a : Op α) := fun _ _ => rfl

theorem ignoresGuard_raise (v : Violation) : IgnoresGuard (raise v : Op α) := by
  intro b s
  rw [raise_apply, raise_apply]
  show (if s.params.assertions || alwaysDetected v then _ else _) = _
  split <;> rfl

theorem ignoresGuard_ite {c : Prop} [Decidable c] {x y : Op α} (hx : IgnoresGuard x) (hy : IgnoresGuard y) :
    IgnoresGuard (if c then x else y) := by
  split
  · exact hx
  · exact hy

theorem ignoresGuard_check (c : Prop) [Decidable c] (v : Violation) : IgnoresGuard (check c v) :=
  ignoresGuard_ite (ignoresGuard_pure ()) (ignoresGuard_raise v)

/-- What is read of the state is not the flag. -/
theorem ignoresGuard_get_bind {f : State → Op β} (hread : ∀ b s, f (s.withGuard b) = f s)
    (hf : ∀ s, IgnoresGuard (f s)) :
    IgnoresGuard ((get : Op State) >>= f) := by
  intro b s
  rw [op_get_bind, op_get_bind, hread b s]
  exact hf s b s

theorem ignoresGuard_modify {f : State → State} (hf : ∀ b s, f (s.withGuard b) = (f s).withGuard b) :
    IgnoresGuard (modify f : Op PUnit) := by
  intro b s
  rw [op_modify, op_modify, hf b s]
  rfl

theorem ignoresGuard_pulse : IgnoresGuard pulse := fun b s => by
  rw [pulse_apply, pulse_apply]
  rfl

theorem ignoresGuard_freshField (f : Field) : IgnoresGuard (freshField f) := fun _ _ => rfl

theorem ignoresGuard_memRead (q : Nat) (f : Field) : IgnoresGuard (memRead q f) := by
  refine ignoresGuard_get_bind (fun _ _ => rfl) fun s => ?_
  cases memGet s.mem q f with
  | none => exact ignoresGuard_freshField f
  | some v => exact ignoresGuard_pure v

theorem ignoresGuard_memWrite (q : Nat) (f : Field) (v : Int) : IgnoresGuard (memWrite q f v) :=
  ignoresGuard_get_bind (fun _ _ => rfl) fun _ =>
    (ignoresGuard_check _ _).bind fun _ => ignoresGuard_modify fun _ _ => rfl

theorem ignoresGuard_timerSetNext (time : Time) : IgnoresGuard (timerSetNext time) :=
  ignoresGuard_get_bind (fun _ _ => rfl) fun _ => (ignoresGuard_check _ _).bind fun _ b s => by
    rw [armAt_apply, armAt_apply]
    rfl

theorem ignoresGuard_writePos (pos : Nat) : IgnoresGuard (writePos pos) :=
  ignoresGuard_get_bind (fun _ _ => rfl) fun _ =>
    (ignoresGuard_check _ _).bind fun _ => ignoresGuard_modify fun _ _ => rfl

theorem ignoresGuard_evalSegment (q : Nat) : IgnoresGuard (evalSegment q) := by
  refine (ignoresGuard_memRead q .disc).bind fun disc => (ignoresGuard_memRead q .amul).bind fun amul => ?_
  refine ignoresGuard_get_bind (fun _ _ => rfl) fun s => ?_
  refine (ignoresGuard_check _ _).bind fun _ => (ignoresGuard_check _ _).bind fun _ => ?_
  refine (ignoresGuard_check _ _).bind fun _ => (ignoresGuard_memWrite q .disc _).bind fun _ => ?_
  refine ignoresGuard_ite (ignoresGuard_pure 0) ((ignoresGuard_check _ _).bind fun _ => ?_)
  exact (ignoresGuard_check _ _).bind fun _ => (ignoresGuard_memRead q .tmul).bind fun _ => ignoresGuard_pure _

theorem ignoresGuard_advanceUp (q x : Nat) : IgnoresGuard (advanceUp q x) := by
  refine ignoresGuard_get_bind (fun _ _ => rfl) fun s => ignoresGuard_ite ?_ ?_
  · refine (ignoresGuard_modify fun _ _ => rfl).bind fun _ => (ignoresGuard_memRead q .tmul).bind fun tmul => ?_
    refine (ignoresGuard_modify fun _ _ => rfl).bind fun _ => ?_
    exact ignoresGuard_get_bind (fun _ _ => rfl) fun _ => ignoresGuard_timerSetNext _
  · refine (ignoresGuard_writePos _).bind fun _ => (ignoresGuard_evalSegment q).bind fun delta => ?_
    exact ignoresGuard_get_bind (fun _ _ => rfl) fun _ => ignoresGuard_timerSetNext _

theorem ignoresGuard_advanceDown (q : Nat) : IgnoresGuard (advanceDown q) := by
  refine ignoresGuard_get_bind (fun _ _ => rfl) fun s => ignoresGuard_ite ?_ ?_
  · refine (ignoresGuard_modify fun _ _ => rfl).bind fun _ => ?_
    exact ignoresGuard_get_bind (fun _ _ => rfl) fun _ => ignoresGuard_timerSetNext _
  · refine (ignoresGuard_writePos _).bind fun _ => (ignoresGuard_evalSegment q).bind fun delta => ?_
    exact ignoresGuard_get_bind (fun _ _ => rfl) fun _ => ignoresGuard_timerSetNext _

/-- The pulse and what follows it do not turn on the guard. -/
theorem ignoresGuard_emitStep (q : Nat) : IgnoresGuard (emitStep q) := by
  refine ignoresGuard_pulse.bind fun _ => (ignoresGuard_memRead q .dirx).bind fun dirx => ?_
  refine ignoresGuard_get_bind (fun _ _ => rfl) fun s => ignoresGuard_ite ?_ ?_
  · exact (ignoresGuard_advanceUp q _).bind fun _ => ignoresGuard_pure true
  · exact (ignoresGuard_advanceDown q).bind fun _ => ignoresGuard_pure true

end IgnoresGuard

section Guard

variable {s : State} {next : CmdAnswer} {abort : Bool}

/-- A guarded pulse interrupt turns on the consumer's answer (42_scheduler.md R140, 43_dispatch.md R163). -/
theorem pulseInterrupt_guarded (q : Nat) (hguard : s.sp.prestepEn = true)
    (h : s.latch.reply = some ⟨[], true, next, abort⟩) :
    pulseInterrupt q s =
      (if abort then endRun else emitStep q) (s.quiet.traced (.preCb (owningConsumer s) abort)) := by
  rw [pulseInterrupt, op_get_bind, if_pos hguard]
  exact op_bind_ok (prestepCallback_of_reply (owningConsumer s) h)

/-- The state a run goes on from once its guard has answered proceed, as an unguarded run's. -/
def State.proceeded (s : State) : State := (s.traced (.preCb (owningConsumer s) false)).withGuard false

/-- After proceed SP.STEP is that of an unguarded run, but for the flag. -/
theorem stepHandler_of_guardProceed (hrun : s.sp.running = true) (hnotEnded : s.sp.notEnded = true)
    (hguard : s.sp.prestepEn = true) (h : s.latch.reply = some ⟨[], true, next, false⟩) :
    stepHandler s.quiet = endWithGuard true (stepHandler s.proceeded.quiet) := by
  have hflag : s.quiet.traced (.preCb (owningConsumer s) false) = s.proceeded.quiet.withGuard true := by
    rw [← hguard]
    rfl
  calc stepHandler s.quiet
    _ = pulseInterrupt s.sp.cmdPtr s.quiet := stepHandler_of_notEnded (s := s.quiet) hrun hnotEnded
    _ = emitStep s.sp.cmdPtr (s.quiet.traced (.preCb (owningConsumer s) false)) :=
      pulseInterrupt_guarded (s := s.quiet) _ hguard h
    _ = endWithGuard true (emitStep s.sp.cmdPtr s.proceeded.quiet) := by rw [hflag, ignoresGuard_emitStep]
    _ = endWithGuard true (pulseInterrupt s.sp.cmdPtr s.proceeded.quiet) := by rw [pulseInterrupt_unguarded _ rfl]
    _ = endWithGuard true (stepHandler s.proceeded.quiet) :=
      congrArg _ (stepHandler_of_notEnded (s := s.proceeded.quiet) hrun hnotEnded).symm

theorem exec_spStep_of_violated {u : State} (hl : Live s) (hc : s.latch.issuer = .core)
    (h : stepHandler s.quiet = .error .violated u) : exec .spStep s = .next u := by
  refine perform_violated ?_
  rw [coreOnly_of_core hl hc]
  exact op_bind_error h

end Guard

/-- Settles O46: abort is the end of the run; after proceed the run goes on as an unguarded one, and the flag stays. -/
theorem guardAbortEndsTheRun : Obligations.GuardAbortEndsTheRun := by
  refine fun s next hl hc hrun hnotEnded hguard => ⟨fun hreply => ?_, fun hreply u hu => ?_⟩
  · have hpulse := pulseInterrupt_guarded (s := s.quiet) s.sp.cmdPtr hguard hreply
    exact exec_spStep_of_ok hl hc ((stepHandler_of_notEnded (s := s.quiet) hrun hnotEnded).trans hpulse)
  · have hstep := stepHandler_of_guardProceed hrun hnotEnded hguard hreply
    rcases exec_spStep_next (s := s.proceeded) hl hc hu with ⟨keep, hok⟩ | hviolated
    · exact exec_spStep_of_ok hl hc (hstep.trans (congrArg (endWithGuard true) hok))
    · exact exec_spStep_of_violated hl hc (hstep.trans (congrArg (endWithGuard true) hviolated))

end Machine
end Sys2Proof

/-! ## O53, O51, O52: the consumer dispatch

A transaction runs the consumer, then appends its event. So a consumer that does not come to its return ends the transaction
the way it ended itself, whether it raised a violation (43_dispatch.md R164) or went on for ever (93_implementation_defined.md U7). -/

namespace Sys2Proof
namespace Machine

/-! ### The transactions as CORE issues them -/

section Transactions

variable {s : State} {idx : ConsumerId}

theorem exec_cdCmdcb_of_core (hl : Live s) (hc : s.latch.issuer = .core) :
    exec (.cdCmdcb idx) s =
      perform (commandCallback idx.toNat (pointer s.params s.latch.ptr) >>= fun _ => pure ()) s.quiet :=
  perform_congr (coreOnly_of_core hl hc)

theorem exec_cdPrecb_of_core (hl : Live s) (hc : s.latch.issuer = .core) :
    exec (.cdPrecb idx) s = perform (prestepCallback idx.toNat >>= fun _ => pure ()) s.quiet :=
  perform_congr (coreOnly_of_core hl hc)

theorem exec_cdCmdcb_of_ok {ans : CmdAnswer} {t : State} (hl : Live s) (hc : s.latch.issuer = .core)
    (h : commandCallback idx.toNat (pointer s.params s.latch.ptr) s.quiet = .ok ans t) : exec (.cdCmdcb idx) s = .next t :=
  (exec_cdCmdcb_of_core hl hc).trans (perform_ok (op_bind_ok h))

theorem exec_cdPrecb_of_ok {abort : Bool} {t : State} (hl : Live s) (hc : s.latch.issuer = .core)
    (h : prestepCallback idx.toNat s.quiet = .ok abort t) : exec (.cdPrecb idx) s = .next t :=
  (exec_cdPrecb_of_core hl hc).trans (perform_ok (op_bind_ok h))

/-! ### A consumer whose reply is not given -/

/-- The pointer of a free answer is as wide as the slot, so the slot holds it as it is (log entry 24). -/
theorem commandCallback_of_free (i q : Nat) (h : s.latch.reply = none) :
    ∃ ans n, slotAnswer s.params ans = ans ∧
      commandCallback i q s = .ok ans { s with trace := s.trace ++ [.cmdCb i q ans], freeCount := n } := by
  have hanswer : ∃ ans n, slotAnswer s.params ans = ans ∧ commandAnswer s = .ok ans { s with freeCount := n } := by
    unfold commandAnswer
    rw [op_get_bind, h]
    refine ⟨_, _, ?_, rfl⟩
    split
    · exact congrArg CmdAnswer.proceed (Nat.mod_eq_of_lt (BitVec.isLt _))
    · rfl
  obtain ⟨ans, n, hslot, hok⟩ := hanswer
  exact ⟨ans, n, hslot, op_bind_ok hok⟩

theorem prestepCallback_of_free (i : Nat) (h : s.latch.reply = none) :
    ∃ ans n, prestepCallback i s = .ok ans { s with trace := s.trace ++ [.preCb i ans], freeCount := n } := by
  have hanswer : ∃ ans n, prestepAnswer s = .ok ans { s with freeCount := n } := by
    unfold prestepAnswer
    rw [op_get_bind, h]
    exact ⟨_, _, rfl⟩
  obtain ⟨ans, n, hok⟩ := hanswer
  exact ⟨ans, n, op_bind_ok hok⟩

/-! ### A consumer that does not come to its return -/

theorem commandCallback_of_error {r : Reply} {e : Stop} {t : State} (i q : Nat) (hreply : s.latch.reply = some r)
    (hrun : runConsumer r s = .error e t) : commandCallback i q s = .error e t := by
  have hanswer : commandAnswer s = .error e t := by
    unfold commandAnswer
    rw [op_get_bind, hreply]
    exact op_bind_error hrun
  exact op_bind_error hanswer

theorem prestepCallback_of_error {r : Reply} {e : Stop} {t : State} (i : Nat) (hreply : s.latch.reply = some r)
    (hrun : runConsumer r s = .error e t) : prestepCallback i s = .error e t := by
  have hanswer : prestepAnswer s = .error e t := by
    unfold prestepAnswer
    rw [op_get_bind, hreply]
    exact op_bind_error hrun
  exact op_bind_error hanswer

/-- A consumer that acts on nothing and does not return stops the machine (93_implementation_defined.md U7, log entry 15). -/
theorem runConsumer_of_noReturn (next : CmdAnswer) (abort : Bool) (s : State) :
    runConsumer ⟨[], false, next, abort⟩ s = .error (.machine .callbackNeverReturned) s := rfl

/-- Both transactions end as the consumer's own run does. -/
theorem exec_callbacks_of_error {r : Reply} {e : Stop} {t : State} (idx : ConsumerId) (hl : Live s)
    (hc : s.latch.issuer = .core) (hreply : s.latch.reply = some r) (hrun : runConsumer r s.quiet = .error e t) :
    exec (.cdCmdcb idx) s = perform (runConsumer r) s.quiet ∧ exec (.cdPrecb idx) s = perform (runConsumer r) s.quiet := by
  rw [exec_cdCmdcb_of_core hl hc, exec_cdPrecb_of_core hl hc]
  have hcommand := commandCallback_of_error (s := s.quiet) idx.toNat (pointer s.params s.latch.ptr) hreply hrun
  have hprestep := prestepCallback_of_error (s := s.quiet) idx.toNat hreply hrun
  exact ⟨perform_congr ((op_bind_error hcommand).trans hrun.symm), perform_congr ((op_bind_error hprestep).trans hrun.symm)⟩

end Transactions

/-! ### A consumer that drives its own axis -/

section OwnAxis

variable {s t : State} {r : Request} {i : Instr} {v : Violation}

/-- The operation `i`, with `a` on port A, is one of background context only (60_exceptions.md R193): SP.START with a time, or one
of the four that read no port. -/
def DrivesAxis (maxW : Nat) (a : PortWord) (i : Instr) : Prop :=
  i = .spInit ∨ i = .spDeinit ∨ i = .spStop ∨ (∃ flag, i = .spPrestep flag) ∨
    ((∃ cid, i = .spStart cid) ∧ portHoldsTime maxW a = true)

/-- In interrupt context such an operation raises SP_CONTEXT before any check of life cycle or state (60_exceptions.md R184). -/
theorem portOperation_of_drivesAxis (hl : Live s) (hin : s.inIrq = true) (h : DrivesAxis s.params.maxW s.latch.a i) :
    portOperation i s = (raise .spContext : Op Unit) s.quiet := by
  have hcontext : ¬ s.inIrq = false := by simp [hin]
  obtain rfl | rfl | rfl | ⟨flag, rfl⟩ | ⟨⟨cid, rfl⟩, htime⟩ := h
  · exact (spInit_apply hl).trans (if_neg hcontext)
  · exact (spDeinit_apply hl).trans (if_neg hcontext)
  · exact (spStop_apply hl).trans (if_neg hcontext)
  · exact (spPrestep_apply flag hl).trans (if_neg hcontext)
  · exact (spStart_of_portTime cid hl (portTime_of_holds htime)).trans (if_neg hcontext)

/-- A violation of the consumer's first operation ends its run. -/
theorem runConsumer_of_raise {rest : List CallbackAction} {returns : Bool} {next : CmdAnswer} {abort : Bool}
    (hdecode : decode r.word = .ok i) (hop : portOperation i { s with latch := latchOf r } = (raise v : Op Unit) t) :
    runConsumer ⟨.operate r :: rest, returns, next, abort⟩ s = (raise v : Op Unit) t := by
  have haction : callbackAction (.operate r) s = (raise v : Op Unit) t := by
    rw [callbackAction, op_modify_bind, hdecode]
    exact hop
  rw [runConsumer, op_get_bind]
  exact op_bind_of_raise (op_bind_of_raise haction)

/-- A violation is an end of the operation, in every build (60_exceptions.md R182, R183). -/
theorem raise_eq_error {α : Type} (v : Violation) (s : State) : ∃ e t, (raise v : Op α) s = .error e t := by
  rw [raise_apply]
  split <;> exact ⟨_, _, rfl⟩

/-- Where the consumer raises the transaction raises, and its event is not appended. -/
theorem exec_callbacks_of_raise {p : Reply} (idx : ConsumerId) (hl : Live s) (hc : s.latch.issuer = .core)
    (hreply : s.latch.reply = some p) (hrun : runConsumer p s.quiet = (raise v : Op Unit) t.quiet) :
    exec (.cdCmdcb idx) s = violationOutcome v t ∧ exec (.cdPrecb idx) s = violationOutcome v t := by
  obtain ⟨e, u, herror⟩ := raise_eq_error (α := Unit) v t.quiet
  have hcallbacks := exec_callbacks_of_error idx hl hc hreply (hrun.trans herror)
  rwa [perform_raise v hrun, violationOutcome_quiet] at hcallbacks

end OwnAxis

/-! ### The obligations -/

/-- Settles O53: the consumer's first operation is one on the operation port in interrupt context, and it raises. -/
theorem callbacksMayNotDriveTheirAxis : Obligations.CallbacksMayNotDriveTheirAxis := by
  refine fun s idx r rest returns next abort i hl hc hin hreply hdecode => ⟨fun hdrives => ?_, ?_⟩
  · have hop := portOperation_of_drivesAxis (s := { s.quiet with latch := latchOf r }) hl hin hdrives
    exact exec_callbacks_of_raise idx hl hc hreply (runConsumer_of_raise hdecode hop)
  · rintro ⟨⟨cid, rfl⟩, hno⟩
    have hop := spStart_of_noTime (s := { s.quiet with latch := latchOf r }) cid hl hno
    exact exec_callbacks_of_raise idx hl hc hreply (runConsumer_of_raise hdecode hop)

/-- Settles O51: the two branches of `route`. -/
theorem routeCatchesAllOtherIds : Obligations.RouteCatchesAllOtherIds :=
  fun _ _ _ => ⟨fun hlt => if_pos hlt, fun hle => if_neg (not_lt.mpr hle)⟩

/-- Settles O52: by what the consumer does, an answer at once, a free answer or none. -/
theorem callbacksAskTheConsumer : Obligations.CallbacksAskTheConsumer := by
  refine fun s idx next abort hl hc => ⟨fun hreply => ⟨?_, ?_⟩, fun hfree => ⟨?_, ?_⟩, fun hreply => ?_⟩
  · exact exec_cdCmdcb_of_ok hl hc (commandCallback_of_reply (s := s.quiet) _ _ hreply)
  · exact exec_cdPrecb_of_ok hl hc (prestepCallback_of_reply (s := s.quiet) _ hreply)
  · obtain ⟨ans, n, hslot, hok⟩ :=
      commandCallback_of_free (s := s.quiet) idx.toNat (pointer s.params s.latch.ptr) hfree
    exact ⟨ans, n, hslot, exec_cdCmdcb_of_ok hl hc hok⟩
  · obtain ⟨ans, n, hok⟩ := prestepCallback_of_free (s := s.quiet) idx.toNat hfree
    exact ⟨ans, n, exec_cdPrecb_of_ok hl hc hok⟩
  · exact exec_callbacks_of_error idx hl hc hreply (runConsumer_of_noReturn next abort s.quiet)

end Machine
end Sys2Proof

/-! ## O54: SYS.RDREG

A defined register is shown as `registerValue` gives it, on a halted machine too: SYS.RDREG does not ask whether the instance is
halted (60_exceptions.md R182). Register 11 alone is read after ticks have passed, so it has a lemma of its own. -/

namespace Sys2Proof
namespace Machine

/-! ### The status words as numbers -/

/-- A flag below a word: the flag is bit 0 of the whole. -/
theorem append_ofBool_toNat {n : Nat} (x : BitVec n) (b : Bool) : (x ++ BitVec.ofBool b).toNat = b.toNat + 2 * x.toNat := by
  rw [BitVec.toNat_append, BitVec.toNat_ofBool, ← Nat.shiftLeft_add_eq_or_of_lt (Bool.toNat_lt b), Nat.shiftLeft_eq]
  omega

/-- SP_STATUS as a number (10_state.md R14). -/
theorem spStatusWord_toNat (r : SpRegs) :
    (spStatusWord r).toNat =
      r.running.toNat + 2 * r.notEnded.toNat + 4 * r.notDecel.toNat + 8 * r.prestepEn.toNat + 16 * r.life.toNat := by
  unfold spStatusWord
  simp only [append_ofBool_toNat, BitVec.toNat_ofBool]
  omega

/-- TM_CTRL as a number (10_state.md R22). -/
theorem tmCtrlWord_toNat (p : Params) (r : TmRegs) :
    (tmCtrlWord p r).toNat = (r.armed && p.assertions).toNat + 2 * r.irqEn.toNat + 4 * r.tlife.toNat := by
  unfold tmCtrlWord
  simp only [append_ofBool_toNat, BitVec.toNat_ofBool]
  omega

/-! ### What SYS.RDREG answers -/

/-- The registers with a value are those 10_state.md defines (30_encoding.md R68). -/
theorem definedRegister_of_registerValue {s : State} {reg : BitVec 8} {p : Nat × Nat}
    (h : registerValue s reg.toNat = some p) : definedRegister reg = true := by
  unfold registerValue at h
  split at h
  case h_12 => cases h
  all_goals
    rename_i hreg
    simp [definedRegister, hreg]

/-- Every register but the counter is read from the state as it stands (44_system.md R170). -/
theorem sysRdreg_register {s : State} {reg : BitVec 8} {n w : Nat} (hreg : reg ≠ 11)
    (h : registerValue s reg.toNat = some (n, w)) : sysRdreg reg s = presentRegister w n s := by
  unfold sysRdreg
  rw [op_bind_ok (clearResult_apply s), op_check_bind, if_pos (definedRegister_of_registerValue h), ← presentRegister_quiet]
  refine op_bind_ok (a := some (n, w)) ?_
  rw [atomically_apply, op_ite, if_neg hreg, ← h]
  rfl

/-- The counter is read after the ticks that pass inside the operation (93_implementation_defined.md U8). -/
theorem sysRdreg_counter (s : State) :
    sysRdreg 11 s = presentRegister 32 (s.cnt + BitVec.ofNat 32 s.latch.lag).toNat (advanceCounter s.latch.lag s) := by
  unfold sysRdreg
  rw [op_bind_ok (clearResult_apply s), op_check_bind, if_pos (by decide), ← presentRegister_quiet]
  refine op_bind_ok (a := some ((s.cnt + BitVec.ofNat 32 s.latch.lag).toNat, 32)) ?_
  rw [atomically_apply, op_ite, if_pos rfl]
  rfl

theorem exec_sysRdreg_showsRegister {s : State} {reg : BitVec 8} {n w : Nat} (hp : s.params.Valid) (hreg : reg ≠ 11)
    (h : registerValue s reg.toNat = some (n, w)) (hn : n < 2 ^ w) : ShowsRegister s w n (exec (.sysRdreg reg) s) :=
  presentRegister_showsRegister hp hn (sysRdreg_register hreg h)

theorem exec_sysRdreg_counter {s : State} (hp : s.params.Valid) :
    ShowsRegister (advanceCounter s.latch.lag s) 32 (s.cnt + BitVec.ofNat 32 s.latch.lag).toNat (exec (.sysRdreg 11) s) := by
  show ShowsRegister _ 32 _ (perform (sysRdreg 11) s)
  rw [perform_congr (sysRdreg_counter s)]
  exact presentRegister_showsRegister hp (BitVec.isLt _) rfl

theorem exec_sysRdreg_undefined {s : State} {reg : BitVec 8} (h : reg.toNat ∉ [0, 1, 2, 3, 4, 5, 8, 9, 10, 11, 15]) :
    exec (.sysRdreg reg) s = .next (recordViolation .illegalOp s) := by
  refine sysRdreg_undefinedRegister ?_
  rwa [definedRegister, ← Bool.not_eq_true, List.contains_iff_mem]

/-- Settles O54, register by register: a word of flags or a time fits its width, the registers whose width is a parameter do by
the invariant's `RegistersInRange`. -/
theorem rdregShowsTheRegisters : Obligations.RdregShowsTheRegisters := by
  refine ⟨fun reg => decode_encode (.sysRdreg reg), fun s hp hr => ?_, fun _ _ => exec_sysRdreg_undefined⟩
  rw [← spStatusWord_toNat, ← tmCtrlWord_toNat, ← faultWord_toNat]
  refine ⟨?status, ?cmdPtr, ?pos, ?time, ?v0, ?consumer, ?tmTime, ?tmCmp, ?tmCtrl, ?counter, ?fault⟩
  case status | time | tmTime | tmCmp | tmCtrl | fault => exact exec_sysRdreg_showsRegister hp (by decide) rfl (BitVec.isLt _)
  case cmdPtr => exact exec_sysRdreg_showsRegister hp (by decide) rfl hr.cmdPtr
  case pos => exact exec_sysRdreg_showsRegister hp (by decide) rfl hr.pos
  case v0 => exact exec_sysRdreg_showsRegister hp (by decide) rfl hr.v0
  case consumer => exact exec_sysRdreg_showsRegister hp (by decide) rfl hr.consumer
  case counter => exact exec_sysRdreg_counter hp

end Machine
end Sys2Proof

/-! ## O59: the inner violations

`Runs` already says of each operation which violations it raises. So what is to be added is that FAULT is untouched up to the
raise: then the code a live machine records is that of an outer violation (`Outer`). -/

namespace Sys2Proof
namespace Machine

/-- `x` ends with FAULT as it was, or raises, with FAULT as it was, no inner violation. -/
abbrev RaisesOuter (x : Op Unit) (s : State) : Prop :=
  Runs x s (fun _ t => t.fault = s.fault) (Outer fun t => t.fault = s.fault)

/-- FAULT holds no code of an inner violation (60_exceptions.md R181). -/
abbrev NoInnerCode (s : State) : Prop :=
  s.fault.code ≠ 0x10 ∧ s.fault.code ≠ 0x11 ∧ s.fault.code ≠ 0x12 ∧ s.fault.code ≠ 0x26

theorem noInnerCode_of_clear {s : State} (h : s.fault.code = 0) : NoInnerCode s := by
  unfold NoInnerCode
  rw [h]
  decide

theorem Inv.noInnerCode {s : State} (hs : Inv s) (hl : Live s) : NoInnerCode s := noInnerCode_of_clear (hs.fault.clear hl)

theorem noInnerCode_recordViolation {v : Violation} {s : State} (hl : Live s) (hv : v.inner = false) :
    NoInnerCode (recordViolation v s) := by
  have hcode : (recordViolation v s).fault.code = violationCode v := by simp [recordViolation_code, hl]
  unfold NoInnerCode
  rw [hcode]
  cases v
  case tmAlreadyArmed | tmContext | tmArmed | spNotRunning => simp [Violation.inner] at hv
  all_goals decide

/-- A coherent live machine holds no code yet, so the first violation's is the one it records. -/
theorem RaisesOuter.perform {x : Op Unit} {s t : State} (h : RaisesOuter x s) (hs : Inv s) (hl : Live s)
    (ht : perform x s = .next t) : NoInnerCode t := by
  rcases perform_runs h ht with hfault | ⟨v, u, rfl, hinner, hfault⟩
  · exact noInnerCode_of_clear ((congrArg FaultReg.code hfault).trans (hs.fault.clear hl))
  · exact noInnerCode_recordViolation ((congrArg FaultReg.halted hfault).trans hl) hinner

/-! ### Operations on the operation port -/

theorem RunsInCallback.raisesOuter {x : Op Unit} {s : State} (h : RunsInCallback x s) : RaisesOuter x s :=
  runs_mono h (fun _ _ hf => hf.fault) fun _ _ hf => ⟨hf.1, hf.2.fault⟩

theorem raisesOuter_spInit (s : State) : RaisesOuter spInit s :=
  runs_onPort (fun _ => rfl) fun _ => runs_requireBackground_bind (fun _ => runs_get_bind (runs_check_bind
    (fun _ => runs_bind (runs_of_ok (timerInit_apply _) (runs_modify rfl))) ⟨rfl, rfl⟩)) ⟨rfl, rfl⟩

/-- A machine that is not running has its interrupt off, so SP.DEINIT passes the timer's check (41_timer.md R114). -/
theorem raisesOuter_spDeinit {s : State} (hs : Inv s) : RaisesOuter spDeinit s := by
  refine runs_onPort (fun _ => rfl) fun hl => runs_requireBackground_bind (fun _ => ?_) ⟨rfl, rfl⟩
  refine runs_get_bind (runs_check_bind (fun _ => runs_get_bind (runs_check_bind (fun hrun => ?_) ⟨rfl, rfl⟩)) ⟨rfl, rfl⟩)
  have hirq : s.quiet.tm.irqEn = false := (hs.settled hl).runningArmed ▸ hrun
  exact runs_bind (runs_of_ok ((timerDeinit_apply _).trans (if_pos hirq)) (runs_modify rfl))

theorem raisesOuter_spPrestep (flag : Bool) (s : State) : RaisesOuter (spPrestep flag) s :=
  runs_onPort (fun _ => rfl) fun _ => runs_requireBackground_bind (fun _ => runs_get_bind (runs_check_bind
    (fun _ => runs_get_bind (runs_check_bind (fun _ => runs_modify rfl) ⟨rfl, rfl⟩)) ⟨rfl, rfl⟩)) ⟨rfl, rfl⟩

theorem raisesOuter_spStop (s : State) : RaisesOuter spStop s :=
  runs_onPort (fun _ => rfl) fun _ => runs_requireBackground_bind (fun _ => runs_get_bind (runs_check_bind
    (fun _ => runs_spStop_body rfl) ⟨rfl, rfl⟩)) ⟨rfl, rfl⟩

/-- A machine that is not running has its interrupt off, so LOAD finds the timer ready for TM.SETFIRST (41_timer.md R116). -/
theorem raisesOuter_spStart (cid : ConsumerId) {s : State} (hs : Inv s) : RaisesOuter (spStart cid) s := by
  refine runs_onPort (fun _ => rfl) fun hl => runs_get_bind (runs_timeOperand_bind (fun _ time => ?_) ⟨rfl, rfl⟩)
  refine runs_requireBackground_bind (fun _ => ?_) ⟨rfl, rfl⟩
  refine runs_get_bind (runs_check_bind (fun _ => runs_get_bind (runs_check_bind (fun hrun => ?_) ⟨rfl, rfl⟩)) ⟨rfl, rfl⟩)
  refine runs_get_bind (runs_check_bind (fun _ => runs_recordedConsumer_bind fun id n _ => runs_modify_bind ?_) ⟨rfl, rfl⟩)
  have hirq : s.tm.irqEn = false := (hs.settled hl).runningArmed ▸ hrun
  refine runs_loadCommand hs.memory (fun v u hv hu => ⟨hv, hu.fault⟩) (fun u _ _ hi => ?_) (fun u _ h => by cases h)
    fun u target hu _ _ => hu.fault
  exact absurd (hi.symm.trans hirq) (by simp)

/-- On a coherent machine no operation of the port raises an inner violation. -/
theorem raisesOuter_portOperation (i : Instr) {s : State} (hs : Inv s) : RaisesOuter (portOperation i) s := by
  cases i
  case spInit => exact raisesOuter_spInit s
  case spDeinit => exact raisesOuter_spDeinit hs
  case spStart cid => exact raisesOuter_spStart cid hs
  case spStop => exact raisesOuter_spStop s
  case spPrestep flag => exact raisesOuter_spPrestep flag s
  case spGencmd => exact (runsInCallback_spGencmd hs.memory).raisesOuter
  case tmGettime => exact (runsInCallback_tmGettime hs.memory).raisesOuter
  case tmGe => exact (runsInCallback_tmGe hs.memory).raisesOuter
  case sysRdreg => exact (runsInCallback_sysRdreg hs.memory).raisesOuter
  case tmInit | tmDeinit | tmSetfirst | tmSetnext | tmUnset | tmIrq =>
    exact (runsInCallback_illegalWord hs.memory).raisesOuter
  case spStep | cdCmdcb | cdPrecb => exact (runsInCallback_illegalWord hs.memory).raisesOuter
  all_goals exact (runsInCallback_fx hs.memory (runs_portOperation_fx s rfl)).raisesOuter

theorem performRequest_noInnerCode {w : RequestWord} {s t : State} (hs : Inv s) (hl : Live s)
    (hp : s.latch.issuer = .operationPort) (ht : performRequest w s = .next t) : NoInnerCode t := by
  cases hdec : decode w with
  | ok i =>
    rw [performRequest_decoded s hdec, exec_on_port i hp] at ht
    exact (raisesOuter_portOperation i hs).perform hs hl ht
  | error e =>
    rw [performRequest_rejected s hdec] at ht
    exact (runsInCallback_illegalWord hs.memory).raisesOuter.perform hs hl ht

/-! ### The interrupt -/

/-- The return from the handler raises nothing (60_exceptions.md R191). -/
theorem raisesOuter_handlerReturn {s t : State} (keep : Bool) (h : t.fault = s.fault) :
    Runs (do
      if keep then pure () else timerUnset
      modify fun s => { s with inIrq := false }) t (fun _ u => u.fault = s.fault) (Outer fun u => u.fault = s.fault) := by
  cases keep with
  | true => exact runs_bind (runs_pure (runs_modify h))
  | false => exact runs_bind (runs_of_ok (timerUnset_apply t) (runs_modify h))

/-- The interrupt that starts is enabled, so a coherent machine runs a Command when SP.STEP begins, with its timer armed
(42_scheduler.md R140). -/
theorem raisesOuter_timerIrq {s : State} (hs : Inv s) : RaisesOuter timerIrq s := by
  refine runs_get_bind ?_
  split
  case isFalse => exact runs_pure rfl
  case isTrue hstart =>
    obtain ⟨hirq, -, -, hl⟩ := (interruptMayStart_iff s).mp (Bool.and_eq_true_iff.mp hstart).1
    obtain ⟨harmed, halive, -⟩ := hs.settled hl
    have hrun : s.sp.running = true := harmed.trans hirq
    refine runs_modify_bind (runs_bind (runs_mono (runs_stepHandler hs.memory rfl hirq hrun (halive hrun).2) ?_ ?_))
    · exact fun keep t ht => raisesOuter_handlerReturn keep ht.fault
    · exact fun v t ht => ⟨ht.1, ht.2.fault⟩

theorem execTmIrq_noInnerCode {s t : State} (hs : Inv s) (hl : Live s) (ht : exec .tmIrq s = .next t) : NoInnerCode t := by
  refine RaisesOuter.perform (x := coreOnly timerIrq) ?_ hs hl ht
  exact runs_coreOnly (fun _ => rfl) (fun _ => ⟨rfl, rfl⟩) fun _ _ => raisesOuter_timerIrq hs.quiet

/-! ### Every step -/

theorem idleStep_noInnerCode {s t : State} (hs : Inv s) (hl : Live s) (ht : idleStep s = .next t) : NoInnerCode t := by
  unfold idleStep at ht
  split at ht
  · exact execTmIrq_noInnerCode (hs.accepted _ _) hl ht
  · cases ht
    exact hs.noInnerCode hl

/-- Settles O59: an operation on the port or a delivered interrupt raises outer violations only, and the environment's own steps
leave FAULT or clear it. -/
theorem innerViolationsAreUnreachable : Obligations.InnerViolationsAreUnreachable := by
  intro s t hs hl ht
  have hclear := hs.fault.clear hl
  rcases hin : s.inputs with _ | ⟨input, rest⟩
  · rw [step_unscheduled hin] at ht
    exact idleStep_noInnerCode hs hl ht
  cases input with
  | request r =>
    rw [step_request hin] at ht
    exact performRequest_noInnerCode (hs.accepted _ _) hl rfl ht
  | interrupt lag reply =>
    rw [step_interrupt hin] at ht
    exact execTmIrq_noInnerCode (hs.accepted _ _) hl ht
  | tick n =>
    cases (step_tick hin).symm.trans ht
    exact noInnerCode_of_clear hclear
  | fill p r =>
    cases (step_fill hin).symm.trans ht
    exact noInnerCode_of_clear ((congrArg FaultReg.code (fillRecord_fault p r _)).trans hclear)
  | free p =>
    cases (step_free hin).symm.trans ht
    exact noInnerCode_of_clear hclear
  | mask b =>
    cases (step_mask hin).symm.trans ht
    exact noInnerCode_of_clear hclear
  | reset =>
    cases (step_reset hin).symm.trans ht
    exact noInnerCode_of_clear rfl

end Machine
end Sys2Proof

/-! ## O21, O22, O24: operations in a halted machine and in interrupt context

What a halted instance refuses clears R and RT alone (60_exceptions.md R182); SYS.RDREG, which it performs, shows a register or
raises once more, and FAULT keeps the first code. -/

namespace Sys2Proof
namespace Machine

/-! ### A halted instance refuses -/

theorem onPort_of_halted {body : Op Unit} {s : State} (h : s.fault.halted = true) : onPort body s = .ok () s.quiet := by
  rw [onPort_apply, if_pos h]

theorem coreOnly_of_halted {body : Op Unit} {s : State} (h : s.fault.halted = true) : coreOnly body s = .ok () s.quiet := by
  rw [coreOnly_apply, if_pos h]

/-- Settles O21: every other operation is one of the port or one of CORE alone, and asks first whether the instance is halted. -/
theorem haltedRefusesAllButRegisterReads : Obligations.HaltedRefusesAllButRegisterReads := by
  intro i s hh hreg
  cases i
  case sysRdreg reg => exact absurd rfl (hreg reg)
  case tmInit | tmDeinit | tmSetfirst | tmSetnext | tmUnset | tmIrq => exact perform_ok (coreOnly_of_halted hh)
  case spStep | cdCmdcb | cdPrecb => exact perform_ok (coreOnly_of_halted hh)
  all_goals exact perform_ok (onPort_of_halted hh)

/-! ### A halted machine keeps its state -/

/-- `t` has the registers of `s`, its pins, its trace, IN_IRQ and the parameters: what only RESET takes from a halted machine. -/
abbrev StateHeld (s t : State) : Prop :=
  t.fault = s.fault ∧ t.sp = s.sp ∧ t.tm = s.tm ∧ t.pins = s.pins ∧ t.trace = s.trace ∧ t.inIrq = s.inIrq ∧
    t.params = s.params

theorem stateHeld_recordViolation {s : State} (v : Violation) (h : s.fault.halted = true) :
    StateHeld s (recordViolation v s) := by
  refine ⟨?_, rfl, rfl, rfl, rfl, rfl, rfl⟩
  simp only [recordViolation, h, if_true]
  rw [← h]

/-- Showing a register always ends, and writes R, RT and the count of free values alone. -/
theorem perform_presentRegister {body : Op Unit} {s t : State} {w n : Nat} (h : body s = presentRegister w n t) :
    ∃ r k, perform body s = .next { t with result := r, freeCount := k } := by
  rw [presentRegister_apply] at h
  split at h
  · exact ⟨_, t.freeCount, perform_ok h⟩
  · exact ⟨_, _, perform_ok h⟩

/-- Each number 10_state.md defines names a register with a value (44_system.md R170). -/
theorem registerValue_of_definedRegister (s : State) {reg : BitVec 8} (h : definedRegister reg = true) :
    ∃ n w, registerValue s reg.toNat = some (n, w) := by
  simp only [definedRegister, List.contains_iff_mem, List.mem_cons, List.not_mem_nil, or_false] at h
  rcases h with h | h | h | h | h | h | h | h | h | h | h
  all_goals
    rw [h]
    exact ⟨_, _, rfl⟩

theorem exec_sysRdreg_of_halted {s : State} (reg : BitVec 8) (hh : s.fault.halted = true) :
    ∃ t, exec (.sysRdreg reg) s = .next t ∧ StateHeld s t := by
  cases hdef : definedRegister reg
  case false => exact ⟨_, sysRdreg_undefinedRegister hdef, stateHeld_recordViolation _ hh⟩
  case true =>
    by_cases hcnt : reg = 11
    · subst hcnt
      obtain ⟨r, k, h⟩ := perform_presentRegister (sysRdreg_counter s)
      exact ⟨_, h, rfl, rfl, rfl, rfl, rfl, rfl, rfl⟩
    · obtain ⟨n, w, hvalue⟩ := registerValue_of_definedRegister s hdef
      obtain ⟨r, k, h⟩ := perform_presentRegister (sysRdreg_register hcnt hvalue)
      exact ⟨_, h, rfl, rfl, rfl, rfl, rfl, rfl, rfl⟩

theorem exec_of_halted {s : State} (i : Instr) (hh : s.fault.halted = true) : ∃ t, exec i s = .next t ∧ StateHeld s t := by
  by_cases h : ∃ reg, i = .sysRdreg reg
  · obtain ⟨reg, rfl⟩ := h
    exact exec_sysRdreg_of_halted reg hh
  · exact ⟨_, haltedRefusesAllButRegisterReads i s hh fun reg hi => h ⟨reg, hi⟩, rfl, rfl, rfl, rfl, rfl, rfl, rfl⟩

theorem performRequest_of_halted {s : State} (w : RequestWord) (hh : s.fault.halted = true) :
    ∃ t, performRequest w s = .next t ∧ StateHeld s t := by
  cases hdec : decode w with
  | ok i =>
    rw [performRequest_decoded s hdec]
    exact exec_of_halted i hh
  | error e =>
    rw [performRequest_rejected s hdec]
    exact ⟨_, perform_ok (onPort_of_halted hh), rfl, rfl, rfl, rfl, rfl, rfl, rfl⟩

/-- Settles O22: an operation of a halted machine, requested or interrupting, holds its state, and so does every step of the
environment but RESET. -/
theorem haltedMachineIsLeftOnlyByReset : Obligations.HaltedMachineIsLeftOnlyByReset := by
  intro s hh hno
  rcases hin : s.inputs with _ | ⟨input, rest⟩
  · rw [step_unscheduled hin, idleStep_idle (idleInterrupt_eq_false (.inr (.inr (.inr (.inl hh)))))]
    exact ⟨_, rfl, rfl, rfl, rfl, rfl, rfl, rfl, rfl⟩
  cases input with
  | request r =>
    rw [step_request hin]
    exact performRequest_of_halted (s := acceptRequest r rest s) r.word hh
  | interrupt lag reply =>
    rw [step_interrupt hin]
    exact exec_of_halted (s := acceptInterrupt lag reply rest s) .tmIrq hh
  | tick n => exact ⟨_, step_tick hin, rfl, rfl, rfl, rfl, rfl, rfl, rfl⟩
  | fill p r =>
    refine ⟨_, step_fill hin, ?_⟩
    simp [environmentStep]
  | free p => exact ⟨_, step_free hin, rfl, rfl, rfl, rfl, rfl, rfl, rfl⟩
  | mask b => exact ⟨_, step_mask hin, rfl, rfl, rfl, rfl, rfl, rfl, rfl⟩
  | reset => simp [hin] at hno

/-! ### Interrupt context -/

/-- Settles O24: on the port such an operation raises before any other check (`portOperation_of_drivesAxis`), and SP.START reads
its time first. -/
theorem backgroundOperationsRaiseContext : Obligations.BackgroundOperationsRaiseContext := by
  intro s cid flag hl hin
  have hraise {i : Instr} (h : DrivesAxis s.params.maxW s.latch.a i) := perform_raise_quiet (portOperation_of_drivesAxis hl hin h)
  refine ⟨?_, fun htime => ?_, fun hno => perform_raise_quiet (spStart_of_noTime cid hl hno)⟩
  · simp only [List.forall_mem_cons, List.not_mem_nil, false_implies, implies_true, and_true]
    exact ⟨hraise (.inl rfl), hraise (.inr (.inl rfl)), hraise (.inr (.inr (.inl rfl))),
      hraise (.inr (.inr (.inr (.inl ⟨flag, rfl⟩))))⟩
  · exact hraise (.inr (.inr (.inr (.inr ⟨⟨cid, rfl⟩, htime⟩))))

end Machine
end Sys2Proof

/-! ## O26: what a release build records

FAULT is written by `raise` alone, and `raise` writes it only where the build detects the violation (60_exceptions.md R182, R183).
`FaultByRaise` says so of a sequence of operations: its parts' lemmas give it, and it holds of all that CORE performs, from any
state. -/

namespace Sys2Proof
namespace Machine

/-- The parameters, ASSERTIONS among them, and FAULT. -/
abbrev buildAndFault (s : State) : Params × FaultReg := (s.params, s.fault)

/-- The build with the parameters `p` detects the violation (60_exceptions.md R183). -/
abbrev Detected (p : Params) (v : Violation) : Prop := (p.assertions || alwaysDetected v) = true

/-- `x` keeps the parameters, and FAULT but for raising a violation the build detects. -/
def FaultByRaise {α : Type} (x : Op α) : Prop :=
  ∀ s, Runs x s (fun _ t => buildAndFault t = buildAndFault s)
    fun v t => buildAndFault t = buildAndFault s ∧ Detected s.params v

/-- What an outcome's FAULT is: the one before, or that of a detected violation. -/
theorem FaultByRaise.perform {x : Op Unit} {s t : State} (h : FaultByRaise x) (ht : perform x s = .next t) :
    t.fault = s.fault ∨ ∃ v, Detected s.params v ∧ t.fault = (recordViolation v s).fault := by
  rcases perform_runs (h s) ht with hend | ⟨v, u, rfl, hkept, hdet⟩
  · exact .inl (congrArg Prod.snd hend)
  · have hfault : u.fault = s.fault := congrArg Prod.snd hkept
    exact .inr ⟨v, hdet, by simp only [recordViolation, hfault]⟩

/-! ### Sequences -/

section FaultByRaise

variable {α β : Type}

theorem FaultByRaise.bind {x : Op α} {f : α → Op β} (hx : FaultByRaise x) (hf : ∀ a, FaultByRaise (f a)) :
    FaultByRaise (x >>= f) := by
  refine fun s => runs_bind (runs_mono (hx s) (fun a t ht => ?_) fun _ _ => id)
  refine runs_mono (hf a t) (fun _ _ hu => hu.trans ht) fun v u ⟨hu, hdet⟩ => ⟨hu.trans ht, ?_⟩
  have hparams : t.params = s.params := congrArg Prod.fst ht
  exact hparams ▸ hdet

theorem faultByRaise_of_apply {x : Op α} {a : State → α} {f : State → State} (h : ∀ s, x s = .ok (a s) (f s))
    (hf : ∀ s, buildAndFault (f s) = buildAndFault s) : FaultByRaise x := fun s => runs_of_ok (h s) (hf s)

theorem faultByRaise_pure (a : α) : FaultByRaise (pure a : Op α) := fun _ => runs_pure rfl

theorem faultByRaise_throw (f : Fault) : FaultByRaise (throw (.machine f) : Op α) := fun _ => trivial

theorem faultByRaise_raise (v : Violation) : FaultByRaise (raise v : Op α) := by
  intro s
  unfold Runs
  rw [raise_apply]
  split
  case h_1 h => split at h <;> cases h
  case h_2 h =>
    split at h
    case isTrue hdet =>
      cases h
      exact ⟨v, s, rfl, rfl, hdet⟩
    case isFalse => cases h
  case h_3 => trivial

theorem faultByRaise_modify {f : State → State} (hf : ∀ s, buildAndFault (f s) = buildAndFault s) :
    FaultByRaise (modify f : Op PUnit) :=
  faultByRaise_of_apply (op_modify f) hf

theorem faultByRaise_modify_bind {g : State → State} {f : PUnit → Op β} (hg : ∀ s, buildAndFault (g s) = buildAndFault s)
    (hf : FaultByRaise (f ⟨⟩)) : FaultByRaise ((modify g : Op PUnit) >>= f) :=
  (faultByRaise_modify hg).bind fun _ => hf

theorem faultByRaise_get_bind {f : State → Op β} (hf : ∀ s, FaultByRaise (f s)) :
    FaultByRaise ((get : Op State) >>= f) := fun s => hf s s

theorem faultByRaise_ite {c : Prop} [Decidable c] {x y : Op α} (hx : FaultByRaise x) (hy : FaultByRaise y) :
    FaultByRaise (if c then x else y) := by
  split
  · exact hx
  · exact hy

theorem faultByRaise_check (c : Prop) [Decidable c] (v : Violation) : FaultByRaise (check c v) :=
  faultByRaise_ite (faultByRaise_pure ()) (faultByRaise_raise v)

theorem faultByRaise_check_bind {c : Prop} [Decidable c] {v : Violation} {f : Unit → Op β} (hf : FaultByRaise (f ())) :
    FaultByRaise (check c v >>= f) :=
  (faultByRaise_check c v).bind fun _ => hf

/-- A check of the state as it stands. -/
theorem faultByRaise_get_check_bind {c : State → Prop} [∀ s, Decidable (c s)] {v : Violation} {f : Unit → Op β}
    (hf : FaultByRaise (f ())) : FaultByRaise ((get : Op State) >>= fun s => check (c s) v >>= f) :=
  faultByRaise_get_bind fun _ => faultByRaise_check_bind hf

/-! ### The shared operations -/

theorem faultByRaise_onPort {body : Op Unit} (h : FaultByRaise body) : FaultByRaise (onPort body) :=
  faultByRaise_modify_bind (fun _ => rfl) <| faultByRaise_get_bind fun _ => faultByRaise_ite (faultByRaise_pure ()) h

theorem faultByRaise_coreOnly {body : Op Unit} (h : FaultByRaise body) : FaultByRaise (coreOnly body) :=
  faultByRaise_modify_bind (fun _ => rfl) <| faultByRaise_get_bind fun _ =>
    faultByRaise_ite (faultByRaise_pure ()) (faultByRaise_ite (faultByRaise_raise _) h)

theorem faultByRaise_illegalWord : FaultByRaise illegalWord := faultByRaise_onPort (faultByRaise_raise _)

theorem faultByRaise_timeOperand (p : PortWord) : FaultByRaise (timeOperand p) :=
  faultByRaise_get_bind fun _ => faultByRaise_check_bind <| faultByRaise_pure _

theorem faultByRaise_freshBits (w : Nat) : FaultByRaise (freshBits w) :=
  faultByRaise_of_apply (freshBits_apply w) fun _ => rfl

theorem faultByRaise_presentRegister (w n : Nat) : FaultByRaise (presentRegister w n) :=
  faultByRaise_get_bind fun _ => faultByRaise_ite (faultByRaise_modify fun _ => rfl)
    ((faultByRaise_freshBits _).bind fun _ => faultByRaise_modify fun _ => rfl)

theorem faultByRaise_memRead (p : Nat) (f : Field) : FaultByRaise (memRead p f) := fun s =>
  have ⟨_, _, h⟩ := memRead_ok p f s
  runs_of_ok h rfl

theorem faultByRaise_memWrite (p : Nat) (f : Field) (v : Int) : FaultByRaise (memWrite p f v) :=
  faultByRaise_get_check_bind <| faultByRaise_modify fun _ => rfl

theorem faultByRaise_memFill (p : Nat) (r : CommandRecord) : FaultByRaise (memFill p r) :=
  faultByRaise_get_check_bind <| faultByRaise_modify fun _ => rfl

theorem faultByRaise_readCounter : FaultByRaise readCounter := faultByRaise_of_apply readCounter_apply fun _ => rfl

theorem faultByRaise_atomically {body : Op α} (h : FaultByRaise body) : FaultByRaise (atomically body) :=
  faultByRaise_get_bind fun _ => faultByRaise_modify_bind (fun _ => rfl) <| h.bind fun _ =>
    faultByRaise_modify_bind (fun _ => rfl) <| faultByRaise_pure _

theorem faultByRaise_emit (e : OutEvent) : FaultByRaise (emit e) := faultByRaise_modify fun _ => rfl

theorem faultByRaise_pulse : FaultByRaise pulse := faultByRaise_of_apply pulse_apply fun _ => rfl

theorem faultByRaise_setDirection (b : Bool) : FaultByRaise (setDirection b) :=
  faultByRaise_of_apply (setDirection_apply b) fun _ => rfl

end FaultByRaise

/-! ### The FXU -/

theorem faultByRaise_presentOrRaise (r : Except Violation Bounded) : FaultByRaise (presentOrRaise r) := by
  cases r with
  | ok b => exact faultByRaise_modify fun _ => rfl
  | error v => exact faultByRaise_raise v

theorem faultByRaise_requireWidth (w : WidthField) : FaultByRaise (requireWidth w) :=
  faultByRaise_get_bind fun _ => faultByRaise_check _ _

theorem faultByRaise_typedOperand (signed : Bool) (w : WidthField) (p : PortWord) : FaultByRaise (typedOperand signed w p) :=
  faultByRaise_get_bind fun _ => faultByRaise_check_bind <| faultByRaise_pure _

theorem faultByRaise_unaryFx (sa : Bool) (wa : WidthField) (f : Nat → Bounded → Except Violation Bounded) :
    FaultByRaise (unaryFx sa wa f) :=
  faultByRaise_onPort <| (faultByRaise_requireWidth wa).bind fun _ => faultByRaise_get_bind fun _ =>
    (faultByRaise_typedOperand sa wa _).bind fun _ => faultByRaise_get_bind fun _ => faultByRaise_presentOrRaise _

theorem faultByRaise_binaryFx (sa : Bool) (wa : WidthField) (sb : Bool) (wb : WidthField)
    (f : Nat → Bounded → Bounded → Except Violation Bounded) : FaultByRaise (binaryFx sa wa sb wb f) := by
  refine faultByRaise_onPort <| (faultByRaise_requireWidth wa).bind fun _ => (faultByRaise_requireWidth wb).bind fun _ => ?_
  refine faultByRaise_get_bind fun _ => (faultByRaise_typedOperand sa wa _).bind fun _ => faultByRaise_get_bind fun _ => ?_
  exact (faultByRaise_typedOperand sb wb _).bind fun _ => faultByRaise_get_bind fun _ => faultByRaise_presentOrRaise _

theorem faultByRaise_fxMake (sa : Bool) (wa : WidthField) : FaultByRaise (fxMake sa wa) :=
  faultByRaise_onPort <| (faultByRaise_requireWidth wa).bind fun _ => faultByRaise_get_bind fun _ =>
    faultByRaise_presentOrRaise _

/-! ### The timer -/

theorem faultByRaise_timerInit : FaultByRaise timerInit := faultByRaise_modify fun _ => rfl

theorem faultByRaise_timerDeinit : FaultByRaise timerDeinit :=
  faultByRaise_get_check_bind <| faultByRaise_modify fun _ => rfl

theorem faultByRaise_timerSetFirst (time : Time) : FaultByRaise (timerSetFirst time) :=
  faultByRaise_get_check_bind <| faultByRaise_of_apply (armAt_apply time) fun _ => rfl

theorem faultByRaise_timerSetNext (time : Time) : FaultByRaise (timerSetNext time) :=
  faultByRaise_get_check_bind <| faultByRaise_of_apply (armAt_apply time) fun _ => rfl

theorem faultByRaise_timerUnset : FaultByRaise timerUnset := faultByRaise_of_apply timerUnset_apply fun _ => rfl

theorem faultByRaise_tmSetfirst : FaultByRaise tmSetfirst :=
  faultByRaise_coreOnly <| faultByRaise_get_bind fun _ => (faultByRaise_timeOperand _).bind faultByRaise_timerSetFirst

theorem faultByRaise_tmSetnext : FaultByRaise tmSetnext :=
  faultByRaise_coreOnly <| faultByRaise_get_bind fun _ => (faultByRaise_timeOperand _).bind faultByRaise_timerSetNext

theorem faultByRaise_tmGe : FaultByRaise tmGe :=
  faultByRaise_onPort <| faultByRaise_get_bind fun _ => (faultByRaise_timeOperand _).bind fun _ =>
    faultByRaise_get_bind fun _ => (faultByRaise_timeOperand _).bind fun _ => faultByRaise_modify fun _ => rfl

theorem faultByRaise_tmGettime : FaultByRaise tmGettime :=
  faultByRaise_onPort <| (faultByRaise_atomically faultByRaise_readCounter).bind fun _ => faultByRaise_presentRegister _ _

/-! ### EVAL and LOAD -/

theorem faultByRaise_evalSegment (p : Nat) : FaultByRaise (evalSegment p) := by
  refine (faultByRaise_memRead p .disc).bind fun disc => (faultByRaise_memRead p .amul).bind fun amul => ?_
  refine faultByRaise_get_bind fun s => faultByRaise_check_bind <| faultByRaise_check_bind <| faultByRaise_check_bind <| ?_
  refine (faultByRaise_memWrite p .disc _).bind fun _ => faultByRaise_ite (faultByRaise_pure 0) ?_
  exact faultByRaise_check_bind <| faultByRaise_check_bind <| (faultByRaise_memRead p .tmul).bind fun _ => faultByRaise_pure _

theorem faultByRaise_seedSegment (x : Nat) (acc : Bool) (amul : Int) (t0 tend : Time) :
    FaultByRaise (seedSegment x acc amul t0 tend) :=
  faultByRaise_get_bind fun _ => faultByRaise_modify_bind (fun _ => rfl) <| faultByRaise_check_bind <|
    faultByRaise_check_bind <| faultByRaise_modify fun _ => rfl

theorem faultByRaise_firstEvent (p x : Nat) (acc : Bool) (t0 tend : Time) :
    FaultByRaise (firstEvent p x acc t0 tend) := by
  refine faultByRaise_ite (faultByRaise_modify_bind (fun _ => rfl) <| faultByRaise_pure tend) ?_
  refine (faultByRaise_memRead p .amul).bind fun amul => (faultByRaise_seedSegment x acc amul t0 tend).bind fun _ => ?_
  exact (faultByRaise_evalSegment p).bind fun _ => faultByRaise_get_bind fun _ => faultByRaise_pure _

theorem faultByRaise_loadCommand (p : Nat) (t0 : Time) (first : Bool) : FaultByRaise (loadCommand p t0 first) := by
  refine (faultByRaise_memRead p .dirx).bind fun dirx => faultByRaise_get_bind fun s => ?_
  refine (faultByRaise_setDirection _).bind fun _ => faultByRaise_modify_bind (fun _ => rfl) <| ?_
  refine (faultByRaise_memRead p .tmul).bind fun tmul => (faultByRaise_firstEvent p _ _ t0 _).bind fun target => ?_
  exact faultByRaise_ite (faultByRaise_timerSetFirst target) (faultByRaise_timerSetNext target)

/-! ### The scheduler on the operation port, SYS -/

theorem faultByRaise_requireBackground_bind {β : Type} {f : Unit → Op β} (hf : FaultByRaise (f ())) :
    FaultByRaise (requireBackground >>= f) :=
  FaultByRaise.bind (faultByRaise_get_bind fun _ => faultByRaise_check _ _) fun _ => hf

theorem faultByRaise_spInit : FaultByRaise spInit :=
  faultByRaise_onPort <| faultByRaise_requireBackground_bind <| faultByRaise_get_check_bind <|
    faultByRaise_timerInit.bind fun _ => faultByRaise_modify fun _ => rfl

theorem faultByRaise_spDeinit : FaultByRaise spDeinit :=
  faultByRaise_onPort <| faultByRaise_requireBackground_bind <| faultByRaise_get_check_bind <|
    faultByRaise_get_check_bind <| faultByRaise_timerDeinit.bind fun _ => faultByRaise_modify fun _ => rfl

theorem faultByRaise_spPrestep (flag : Bool) : FaultByRaise (spPrestep flag) :=
  faultByRaise_onPort <| faultByRaise_requireBackground_bind <| faultByRaise_get_check_bind <|
    faultByRaise_get_check_bind <| faultByRaise_modify fun _ => rfl

theorem faultByRaise_spStop : FaultByRaise spStop :=
  faultByRaise_onPort <| faultByRaise_requireBackground_bind <| faultByRaise_get_check_bind <|
    faultByRaise_atomically <| faultByRaise_timerUnset.bind fun _ => faultByRaise_modify fun _ => rfl

theorem faultByRaise_recordedConsumer (cid : ConsumerId) : FaultByRaise (recordedConsumer cid) :=
  faultByRaise_get_bind fun _ => faultByRaise_ite (faultByRaise_pure _)
    ((faultByRaise_freshBits _).bind fun _ => faultByRaise_pure _)

theorem faultByRaise_spStart (cid : ConsumerId) : FaultByRaise (spStart cid) := by
  refine faultByRaise_onPort <| faultByRaise_get_bind fun _ => (faultByRaise_timeOperand _).bind fun time => ?_
  refine faultByRaise_requireBackground_bind <| faultByRaise_get_check_bind <| faultByRaise_get_check_bind <| ?_
  refine faultByRaise_get_bind fun s => faultByRaise_check_bind <| (faultByRaise_recordedConsumer cid).bind fun id => ?_
  exact faultByRaise_modify_bind (fun _ => rfl) <| faultByRaise_loadCommand _ time true

theorem faultByRaise_spGencmd (dir : Bool) : FaultByRaise (spGencmd dir) := by
  refine faultByRaise_onPort <| faultByRaise_get_bind fun s => ?_
  refine faultByRaise_check_bind <| faultByRaise_check_bind <| faultByRaise_check_bind <| ?_
  exact (faultByRaise_memFill _ _).bind fun _ => faultByRaise_modify fun t => by simp [buildAndFault]

theorem faultByRaise_sysRdreg (reg : BitVec 8) : FaultByRaise (sysRdreg reg) := by
  refine faultByRaise_modify_bind (fun _ => rfl) <| faultByRaise_check_bind <| ?_
  refine (faultByRaise_atomically (faultByRaise_ite ?_ ?_)).bind fun v => ?_
  · exact faultByRaise_readCounter.bind fun _ => faultByRaise_pure _
  · exact faultByRaise_get_bind fun _ => faultByRaise_pure _
  · cases v with
    | none => exact faultByRaise_raise _
    | some p => exact faultByRaise_presentRegister _ _

theorem faultByRaise_portOperation (i : Instr) : FaultByRaise (portOperation i) := by
  cases i
  case fxMake sa wa => exact faultByRaise_fxMake sa wa
  case fxTos | fxTou | fxWiden | fxNarrow | fxShl | fxShr | fxSqrt =>
    rw [portOperation]
    exact faultByRaise_unaryFx _ _ _
  case fxAdd | fxSub | fxMul | fxDiv =>
    rw [portOperation]
    exact faultByRaise_binaryFx _ _ _ _ _
  case tmGettime => exact faultByRaise_tmGettime
  case tmGe => exact faultByRaise_tmGe
  case spInit => exact faultByRaise_spInit
  case spDeinit => exact faultByRaise_spDeinit
  case spStart cid => exact faultByRaise_spStart cid
  case spStop => exact faultByRaise_spStop
  case spGencmd dir => exact faultByRaise_spGencmd dir
  case spPrestep flag => exact faultByRaise_spPrestep flag
  case sysRdreg reg => exact faultByRaise_sysRdreg reg
  all_goals exact faultByRaise_illegalWord

/-! ### Consumers -/

theorem faultByRaise_callbackAction (a : CallbackAction) : FaultByRaise (callbackAction a) := by
  cases a with
  | operate r =>
    refine faultByRaise_modify_bind (fun _ => rfl) ?_
    cases decode r.word with
    | ok i => exact faultByRaise_portOperation i
    | error e => exact faultByRaise_illegalWord
  | fill p r => exact faultByRaise_modify fun s => by simp [buildAndFault]
  | free p => exact faultByRaise_modify fun _ => rfl

theorem faultByRaise_callbackActions (l : List CallbackAction) : FaultByRaise (callbackActions l) := by
  induction l with
  | nil => exact faultByRaise_pure ()
  | cons a rest ih => exact (faultByRaise_callbackAction a).bind fun _ => ih

theorem faultByRaise_runConsumer (r : Reply) : FaultByRaise (runConsumer r) :=
  faultByRaise_get_bind fun _ => (faultByRaise_callbackActions r.actions).bind fun _ =>
    faultByRaise_ite (faultByRaise_modify fun _ => rfl) (faultByRaise_throw _)

theorem faultByRaise_commandCallback (i p : Nat) : FaultByRaise (commandCallback i p) := by
  refine FaultByRaise.bind (faultByRaise_get_bind fun s => ?_) fun _ => (faultByRaise_emit _).bind fun _ => faultByRaise_pure _
  cases s.latch.reply with
  | none =>
    exact (faultByRaise_freshBits _).bind fun _ => faultByRaise_get_bind fun _ =>
      (faultByRaise_freshBits _).bind fun _ => faultByRaise_pure _
  | some r => exact (faultByRaise_runConsumer r).bind fun _ => faultByRaise_get_bind fun _ => faultByRaise_pure _

theorem faultByRaise_prestepCallback (i : Nat) : FaultByRaise (prestepCallback i) := by
  refine FaultByRaise.bind (faultByRaise_get_bind fun s => ?_) fun _ => (faultByRaise_emit _).bind fun _ => faultByRaise_pure _
  cases s.latch.reply with
  | none => exact (faultByRaise_freshBits _).bind fun _ => faultByRaise_pure _
  | some r => exact (faultByRaise_runConsumer r).bind fun _ => faultByRaise_pure _

/-! ### The handler -/

theorem faultByRaise_writePos (p : Nat) : FaultByRaise (writePos p) :=
  faultByRaise_get_check_bind <| faultByRaise_modify fun _ => rfl

theorem faultByRaise_advanceUp (p x : Nat) : FaultByRaise (advanceUp p x) := by
  refine faultByRaise_get_bind fun s => faultByRaise_ite ?_ ?_
  · refine faultByRaise_modify_bind (fun _ => rfl) <| (faultByRaise_memRead p .tmul).bind fun tmul => ?_
    exact faultByRaise_modify_bind (fun _ => rfl) <| faultByRaise_get_bind fun _ => faultByRaise_timerSetNext _
  · refine (faultByRaise_writePos _).bind fun _ => (faultByRaise_evalSegment p).bind fun delta => ?_
    exact faultByRaise_get_bind fun _ => faultByRaise_timerSetNext _

theorem faultByRaise_advanceDown (p : Nat) : FaultByRaise (advanceDown p) := by
  refine faultByRaise_get_bind fun s => faultByRaise_ite ?_ ?_
  · exact faultByRaise_modify_bind (fun _ => rfl) <| faultByRaise_get_bind fun _ => faultByRaise_timerSetNext _
  · refine (faultByRaise_writePos _).bind fun _ => (faultByRaise_evalSegment p).bind fun delta => ?_
    exact faultByRaise_get_bind fun _ => faultByRaise_timerSetNext _

theorem faultByRaise_emitStep (p : Nat) : FaultByRaise (emitStep p) := by
  refine faultByRaise_pulse.bind fun _ => (faultByRaise_memRead p .dirx).bind fun dirx => faultByRaise_get_bind fun s => ?_
  refine faultByRaise_ite ?_ ?_
  · exact (faultByRaise_advanceUp p _).bind fun _ => faultByRaise_pure true
  · exact (faultByRaise_advanceDown p).bind fun _ => faultByRaise_pure true

theorem faultByRaise_endRun : FaultByRaise endRun := faultByRaise_modify_bind (fun _ => rfl) <| faultByRaise_pure false

theorem faultByRaise_pulseInterrupt (p : Nat) : FaultByRaise (pulseInterrupt p) := by
  refine faultByRaise_get_bind fun s => faultByRaise_ite ?_ (faultByRaise_emitStep p)
  exact (faultByRaise_prestepCallback _).bind fun _ => faultByRaise_ite faultByRaise_endRun (faultByRaise_emitStep p)

theorem faultByRaise_fetchInterrupt (p : Nat) : FaultByRaise (fetchInterrupt p) := by
  refine faultByRaise_get_bind fun s => (faultByRaise_commandCallback _ p).bind fun answer => ?_
  cases answer with
  | stop => exact faultByRaise_endRun
  | proceed q =>
    refine faultByRaise_check_bind <| faultByRaise_modify_bind (fun _ => rfl) <| faultByRaise_get_bind fun t => ?_
    exact (faultByRaise_loadCommand q _ false).bind fun _ => faultByRaise_pure true

theorem faultByRaise_stepHandler : FaultByRaise stepHandler :=
  faultByRaise_get_bind fun _ => faultByRaise_check_bind <|
    faultByRaise_ite (faultByRaise_pulseInterrupt _) (faultByRaise_fetchInterrupt _)

theorem faultByRaise_timerIrq : FaultByRaise timerIrq := by
  refine faultByRaise_get_bind fun s => faultByRaise_ite ?_ (faultByRaise_pure ())
  refine faultByRaise_modify_bind (fun _ => rfl) <| faultByRaise_stepHandler.bind fun keep => ?_
  refine faultByRaise_ite (faultByRaise_modify fun _ => rfl) ?_
  exact faultByRaise_timerUnset.bind fun _ => faultByRaise_modify fun _ => rfl

/-! ### Every operation -/

/-- An operation of kind P is the same whoever issues it. -/
theorem exec_of_kind_port {i : Instr} (s : State) (h : i.kind = .port) : exec i s = perform (portOperation i) s := by
  cases i
  case tmInit | tmDeinit | tmSetfirst | tmSetnext | tmUnset | tmIrq => cases h
  case spStep | cdCmdcb | cdPrecb => cases h
  all_goals rfl

/-- An operation of any kind writes FAULT by raising a detected violation, or not at all. -/
theorem fault_of_exec {i : Instr} {s t : State} (ht : exec i s = .next t) :
    t.fault = s.fault ∨ ∃ v, Detected s.params v ∧ t.fault = (recordViolation v s).fault := by
  cases i
  case tmInit => exact (faultByRaise_coreOnly faultByRaise_timerInit).perform ht
  case tmDeinit => exact (faultByRaise_coreOnly faultByRaise_timerDeinit).perform ht
  case tmSetfirst => exact faultByRaise_tmSetfirst.perform ht
  case tmSetnext => exact faultByRaise_tmSetnext.perform ht
  case tmUnset => exact (faultByRaise_coreOnly faultByRaise_timerUnset).perform ht
  case tmIrq => exact (faultByRaise_coreOnly faultByRaise_timerIrq).perform ht
  case spStep =>
    exact (faultByRaise_coreOnly (faultByRaise_stepHandler.bind fun _ => faultByRaise_pure ())).perform ht
  case cdCmdcb =>
    exact (faultByRaise_coreOnly ((faultByRaise_commandCallback _ _).bind fun _ => faultByRaise_pure ())).perform ht
  case cdPrecb =>
    exact (faultByRaise_coreOnly ((faultByRaise_prestepCallback _).bind fun _ => faultByRaise_pure ())).perform ht
  all_goals exact (faultByRaise_portOperation _).perform ((exec_of_kind_port s rfl).symm.trans ht)

theorem alwaysDetected_iff (v : Violation) : alwaysDetected v = true ↔ v = .illegalOp ∨ v = .fxWidth := by
  simp [alwaysDetected]

/-- Settles O26: without ASSERTIONS the two violations detected are ILLEGAL_OP and FX_WIDTH, and a live machine records their
codes. -/
theorem releaseBuildDetectsOnlyCompileTimeErrors : Obligations.ReleaseBuildDetectsOnlyCompileTimeErrors := by
  intro i s t hrelease hl ht
  have hfault (v : Violation) : (recordViolation v s).fault = { halted := true, code := violationCode v } := by
    simp [recordViolation, hl]
  refine (fault_of_exec ht).imp_right ?_
  rintro ⟨v, hdet, hv⟩
  rw [Detected, hrelease, Bool.false_or, alwaysDetected_iff] at hdet
  rw [hv, hfault]
  obtain rfl | rfl := hdet
  · exact .inl rfl
  · exact .inr rfl

end Machine
end Sys2Proof
